-- ==== Sys2Proof/Word.lean ====
section
/-! DEFINITION. The two word types of the engine: bytes of memory and of the formats, and 32-bit register words. -/

namespace Sys2Proof

/-- One byte of memory or of a format (00_scope.md R9). -/
abbrev Byte := BitVec 8

/-- One interface register word (10_state.md R22). -/
abbrev Word := BitVec 32

end Sys2Proof
end

