-- ==== Sys2Proof/Config.lean ====
section
/-! DEFINITION. The parameters of 00_scope.md R6 and the free values of the spec.

`Params` is carried in the state (log 1): the spec says a model takes every parameter as a
configuration field, and `exec` has no other argument to take it from. It is plain data, so a parameter
that is a function, the hash and the parse, is given as the finitely many values it takes (log 15, 16).
The free values are opaque: nothing can evaluate them. -/

namespace Sys2Proof

/-- The identity string for models (00_scope.md R2, D1). -/
def Config.identity : String := "lz4ultra-block-engine"

/-- A memory byte address: a natural number below 2^ADDR_W, as a base register holds it (10_state.md R22). Its
width is a parameter, so no bit vector type has it; `State.AddrOk` says it keeps its bound (log 2). -/
abbrev Addr := Nat

/-- How the frame header checksum byte is emitted and checked (45_frame_container.md R232, R239). -/
inductive HcMode where
  | source | computed | strictSource
  deriving DecidableEq, Repr

/-- How finely the engine's run of one command is cut into steps (40_commands.md R129 lets a model
run a whole command as one step). MODEL's own; log 6. -/
inductive Grain where
  /-- a whole command is one engine step -/
  | command
  /-- one engine step per stage of a compress command and per payload element of a decompress command -/
  | element
  deriving DecidableEq, Repr

/-- A range of byte addresses `[base, base + len)`. -/
structure Region where
  base : Nat
  len : Nat
  deriving DecidableEq, Repr

namespace Machine

/-- A match candidate (00_scope.md R12). -/
structure Cand where
  off : Nat
  len : Nat
  deriving DecidableEq, Repr

/-- One sequence of a parse (42_optimal_parser.md R160, R166): `r` literals then a match of offset
`o` and length `k`, or the last `r` literals. -/
inductive Cmd where
  | seq (r o k : Nat)
  | last (r : Nat)
  deriving DecidableEq, Repr

end Machine

/-- A block-max code (00_scope.md R6). -/
inductive BlockCode where
  | c4 | c5 | c6 | c7
  deriving DecidableEq, Repr

/-- `BLOCK_MAX(c)` (00_scope.md R6), with the values the source fixes, 65536 · 4^(c−4). -/
structure BlockMax where
  c4 : Nat := 65536
  c5 : Nat := 262144
  c6 : Nat := 1048576
  c7 : Nat := 4194304
  deriving DecidableEq, Repr

/-- The block maximum of a code. -/
def BlockMax.of (m : BlockMax) : BlockCode → Nat
  | .c4 => m.c4
  | .c5 => m.c5
  | .c6 => m.c6
  | .c7 => m.c7

/-- The values of XXH32 the spec gives (45_frame_container.md R232): of FLG = 0x40 and each BD, with seed 0. -/
def Config.knownHashes : List ((List Byte × Word) × Word) :=
  [(([0x40, 0x40], 0), 0x101EC066), (([0x40, 0x50], 0), 0x193377E3),
    (([0x40, 0x60], 0), 0x02389691), (([0x40, 0x70], 0), 0x19D8DF23)]

/-- The parameters of 00_scope.md R6, with the spec's defaults. FRAME_DEPENDENT and RAW_MODE, options of one host
run, are `FrameOpts`. -/
structure Params where
  /-- `ADDR_W`: width of a memory byte address and of the base registers: OPEN, default 32 (D7; log 2). -/
  addrW : Nat := 32
  minMatch : Nat := 4
  maxOffset : Nat := 65535
  matchLenCap : Nat := 65535
  /-- `MAXLEN_DR`: OPEN, default inactive (D12). -/
  maxLenDr : Nat := 65535
  lastLiterals : Nat := 5
  /-- `MFLIMIT`: named by the source, not enforced by this hardware (R6, R148, R208). -/
  mfLimit : Nat := 12
  /-- `NCAND`: OPEN, default unbounded (D13). -/
  nCand : Option Nat := none
  /-- `BLOCK_MAX(c)`. -/
  blockMax : BlockMax := {}
  /-- `BLOCK_CODE_DEFAULT`: the block-max code of a run that is given none. -/
  blockCodeDefault : BlockCode := .c7
  blockLenLimit : Nat := 4194304
  prefixLimit : Nat := 65536
  dictLimit : Nat := 65535
  rawLimit : Nat := 65535
  /-- `IFACE_BASE`: OPEN, no default. DESIGN CHOICE 0x40000000 (log 3). -/
  ifaceBase : Nat := 0x40000000
  hcMode : HcMode := .source
  /-- `XXH32`: the values of the black-box hash that are known, by byte string and seed; `Config.xxh32` is its
  other values (log 16). -/
  xxh32 : List ((List Byte × Word) × Word) := Config.knownHashes
  /-- `parse` as a configuration function (42_optimal_parser.md R169): the command stream of each block, by its
  candidate lists, where it is not the least-cost one of R164. Default: R164's for every block (log 15). -/
  parses : List (List (List Machine.Cand) × List Machine.Cmd) := []
  /-- MODEL's own (log 6). -/
  grain : Grain := .command
  /-- Memory the host does not provide (70_reset_and_hazards.md R299). Default none (log 25). -/
  notProvided : List Region := []
  /-- Memory with side effects, such as other devices (20_memory.md R65). Default none (log 25). -/
  sideEffect : List Region := []
  /-- Where the frame layer's host program puts its window. DESIGN CHOICE (log 17). -/
  hostWindow : Word := 0x01000000
  /-- Where it puts a payload to decode. DESIGN CHOICE (log 17). -/
  hostPayload : Word := 0x02000000
  /-- Where it lets the engine write a payload. DESIGN CHOICE (log 17). -/
  hostOutput : Word := 0x03000000
  deriving DecidableEq, Repr

/-- A free 32-bit value, the n-th drawn: OUT_LEN, TOKENS and ERR_POS where the spec calls them
unspecified (10_state.md R32 to R35). Log 7. -/
opaque Config.freeWord : Nat → Word

/-- A free byte, the n-th drawn: the unspecified bytes of 20_memory.md R62. Log 7. -/
opaque Config.freeByte : Nat → Byte

/-- The values of the black-box hash XXH32 that the parameter `Params.xxh32` does not give (00_scope.md R6). Log 16. -/
opaque Config.xxh32 : List Byte → Word → Word

/-- `XXH32` of a byte string and a seed (00_scope.md R6). -/
def Params.hash (p : Params) (bs : List Byte) (seed : Word) : Word :=
  (p.xxh32.lookup (bs, seed)).getD (Config.xxh32 bs seed)

end Sys2Proof
end

