-- ==== Sys2Proof/Syntax.lean ====
section
/-! DEFINITION. The instruction set: one constructor per row of the opcode table (30_encoding.md R100). -/

namespace Sys2Proof

/-- One row of the opcode table each, with the fields its encoding has. -/
inductive Instr where
  /-- COMPRESS_BLOCK (40_commands.md R121); bits 31:4 of the command word are ignored (R94). -/
  | compressBlock (ignored : BitVec 28)
  /-- DECOMPRESS_BLOCK (40_commands.md R122). -/
  | decompressBlock (ignored : BitVec 28)
  /-- RESERVED_CMD (40_commands.md R123): every OP but 1 and 2. -/
  | reservedCmd (op : BitVec 4) (ignored : BitVec 28)
  /-- SEQ (30_encoding.md R81, R86): the token of a sequence that is not the last. -/
  | seq (ln mn : BitVec 4)
  /-- LAST (30_encoding.md R87): the token of the last sequence. -/
  | last (ln : BitVec 4)
  /-- RUN_FF (30_encoding.md R83). -/
  | runFf
  /-- RUN_END (30_encoding.md R83). -/
  | runEnd (e : Byte)
  /-- OFFSET16 (30_encoding.md R85). -/
  | offset16 (lo hi : Byte)
  /-- LITERALS (30_encoding.md R82). -/
  | literals (bytes : List Byte)
  /-- BLK_COMPRESSED (30_encoding.md R90). -/
  | blkCompressed (size : BitVec 31)
  /-- BLK_UNCOMPRESSED (30_encoding.md R90). -/
  | blkUncompressed (size : BitVec 31)
  /-- BLK_ENDMARK (30_encoding.md R90, R92). -/
  | blkEndmark
  /-- FRAME_HEADER (30_encoding.md R91). -/
  | frameHeader (bd hc : Byte)
  /-- RAW_FOOTER (30_encoding.md R93). -/
  | rawFooter
  deriving DecidableEq, Repr

end Sys2Proof
end

