-- ==== Sys2Proof/Machine/State.lean ====
section
/-! DEFINITION. The state of the machine: the engine of 10_state.md, the shared memory of
20_memory.md, the host of 45_frame_container.md, and what decides who moves next. Plain data. -/

namespace Sys2Proof.Machine

/-- Memory (20_memory.md R60): the (address, byte) pairs, with addresses strictly rising, and the bytes that
are unspecified (R62), which hold a free value. An unlisted address reads as `Memory.blank` (log 4). -/
structure Memory where
  cells : List Host.Cell := []
  /-- MODEL's own: (address, number of the free value it holds), addresses strictly rising (log 7) -/
  free : List (Nat × Nat) := []
  deriving DecidableEq, Repr

/-! ## The engine -/

/-- STATUS.CODE (60_exceptions.md R270). -/
inductive StatusCode where
  | ok | incompressible | compressionInternal | decompressionError | badCommand
  deriving DecidableEq, Repr

/-- STATUS.DETAIL by name (60_exceptions.md R271). -/
inductive Detail where
  | none
  | truncatedToken | truncatedRun | truncatedLiterals | truncatedOffset
  | badOffset | badLastToken | oversize
  | reservedOp | prefixTooLong | lengthTooLong | bufferWraps
  deriving DecidableEq, Repr

/-- The latched descriptor LD (10_state.md R36): copies of the six descriptor registers. -/
structure Desc where
  winBase : Addr
  prefixLen : Word
  blockLen : Word
  inBase : Addr
  inLen : Word
  outBase : Addr
  deriving DecidableEq, Repr

/-- CHOICE[i] (42_optimal_parser.md R164). -/
inductive Choice where
  | tail
  | seq (r o k : Nat)
  deriving DecidableEq, Repr

/-- S[i] and CHOICE[i] (42_optimal_parser.md R164). -/
structure Entry where
  cost : Nat
  choice : Choice
  deriving DecidableEq, Repr

/-- What the match-finder leaves (10_state.md R42): SA, LCP, RANK and C. -/
structure MatchScratch where
  sa : List Nat
  lcp : List Nat
  rank : List Nat
  cands : List (List Cand)
  deriving DecidableEq, Repr

/-- What the parse stage leaves (10_state.md R42): S and CHOICE for positions 0..L, and CMDS. -/
structure ParseScratch where
  table : List Entry
  cmds : List Cmd
  deriving DecidableEq, Repr

/-- The emit stage (43_block_encoder.md R180): the sequences still to emit, the cursor `ip`, and the
payload emitted so far. -/
structure EmitScratch where
  todo : List Cmd
  ip : Nat
  payload : List Byte
  deriving DecidableEq, Repr

/-- Which element of the payload the decode datapath reads next (44_block_decoder.md R201 to R207),
with what it has read of the sequence. -/
inductive DecPos where
  | token
  /-- in a literal run; `mn` is the token's match nibble, `sum` what the run has added up to -/
  | litRun (mn : BitVec 4) (sum : Nat)
  /-- before `lit` literals -/
  | literals (mn : BitVec 4) (lit : Nat)
  | offset (mn : BitVec 4)
  /-- in a match run, the offset being read -/
  | matchRun (off sum : Nat)
  deriving DecidableEq, Repr

/-- The decode datapath (44_block_decoder.md R200): the cursor `ip`, the place, and the window bytes
`W[0, op)`, the history then what has been decoded; they reach memory in the completion step
(40_commands.md R128; log 27). -/
structure DecScratch where
  ip : Nat
  at_ : DecPos
  win : List Byte
  deriving DecidableEq, Repr

/-- The cursor `op` of the encoder (10_state.md R38). -/
def EmitScratch.op (e : EmitScratch) : Nat := e.payload.length

/-- The cursor `op` of the decoder (10_state.md R38). -/
def DecScratch.op (d : DecScratch) : Nat := d.win.length

/-- How far a running command has got, with the hidden state that is alive there (10_state.md R42,
R43). -/
inductive Stage where
  /-- accepted; `word` is the command word -/
  | pending (word : Word)
  | found (m : MatchScratch)
  | parsed (p : ParseScratch)
  | emitting (e : EmitScratch)
  | decoding (d : DecScratch)
  deriving DecidableEq, Repr

/-- The phase (10_state.md R21). Hidden state exists only while BUSY (R43). -/
inductive Phase where
  | idle
  | busy (ld : Desc) (stage : Stage)
  deriving DecidableEq, Repr

/-- The engine: phase, CMD, STATUS and the interface registers (10_state.md R22). STATUS.BUSY is the
phase; PARAM is computed from the parameters. -/
structure Engine where
  phase : Phase
  cmdOp : BitVec 4
  done : Bool
  code : StatusCode
  detail : Detail
  winBase : Addr
  prefixLen : Word
  blockLen : Word
  inBase : Addr
  inLen : Word
  outBase : Addr
  outLen : Word
  tokens : Word
  errPos : Word
  deriving DecidableEq, Repr

/-- The engine after reset (10_state.md R45): IDLE and every register 0. -/
def Engine.reset : Engine where
  phase := .idle
  cmdOp := 0
  done := false
  code := .ok
  detail := .none
  winBase := 0
  prefixLen := 0
  blockLen := 0
  inBase := 0
  inLen := 0
  outBase := 0
  outLen := 0
  tokens := 0
  errPos := 0

/-! ## The host -/

/-- Host options (45_frame_container.md R230), with the defaults given there. -/
structure FrameOpts where
  /-- `blockMaxCode`, none where the run is given none: then BLOCK_CODE_DEFAULT -/
  code : Option BlockCode := none
  dependent : Bool := true
  raw : Bool := false
  verify : Bool := false
  decompress : Bool := false
  deriving DecidableEq, Repr

/-- The dictionary file of a run (45_frame_container.md R243). -/
inductive DictFile where
  | absent
  | unreadable
  | bytes (l : List Byte)
  deriving DecidableEq, Repr

/-- Host error kinds (60_exceptions.md R276). -/
inductive HostErr where
  | src | dst | dictionary | memory | compression | rawTooLarge | rawUncompressed
  | format | checksum | decompression
  deriving DecidableEq, Repr

/-- How a frame-layer run ends: success, or an error kind, with the first differing offset where
verify finds one (45_frame_container.md R246, R247). -/
inductive HostResult where
  | success
  | failed (e : HostErr) (firstDiff : Option Nat)
  deriving DecidableEq, Repr

/-- What a frame-layer run is given (45_frame_container.md R230, R243). File I/O is outside the spec
(00_scope.md R5); whether it works is an input (log 18). -/
structure Job where
  opts : FrameOpts := {}
  dict : DictFile := .absent
  /-- the input bytes, or none where the input cannot be read -/
  src : Option (List Byte)
  dstOk : Bool := true
  memoryOk : Bool := true
  deriving DecidableEq, Repr

/-- Where a frame-layer run stands. -/
inductive FramePhase where
  /-- compress: the frame header is next (R231) -/
  | emitHeader
  /-- compress: the next block, or the footer (R233, R236) -/
  | nextBlock
  /-- compress: COMPRESS_BLOCK was issued for the block in hand (R235) -/
  | awaitCompress
  /-- decompress: a frame header is next in the stream (R239) -/
  | readHeader
  /-- decompress: a block header is next in the stream (R240) -/
  | readBlock
  /-- decompress: the stream is a raw stream, its footer is read next (R244, R245) -/
  | readFooter
  /-- decompress: DECOMPRESS_BLOCK was issued (R241) -/
  | awaitDecompress
  | ended (r : HostResult)
  deriving DecidableEq, Repr

/-- The registers that hold an address, ADDR_W bits wide (10_state.md R22). -/
inductive BaseReg where
  | win | inp | out
  deriving DecidableEq, Repr

/-- An access or act of the host (30_encoding.md R98, 40_commands.md R126, R127). -/
inductive HostAct where
  /-- read `n` bytes at an address: a register where the address is in the register file -/
  | load (addr n : Nat)
  /-- write bytes at an address: a register where the address is in the register file -/
  | store (addr : Nat) (bytes : List Byte)
  /-- read a base register whole, where it is wider than 32 bits (10_state.md R22; log 2) -/
  | loadBase (b : BaseReg)
  /-- write a base register whole, where it is wider than 32 bits (10_state.md R22; log 2) -/
  | storeBase (b : BaseReg) (v : Nat)
  /-- WAIT: read STATUS until DONE = 1 -/
  | wait
  /-- start a run of the frame layer -/
  | frame (job : Job)
  deriving DecidableEq, Repr

/-- A run of the frame layer (45_frame_container.md). -/
structure FrameRun where
  phase : FramePhase
  opts : FrameOpts := {}
  /-- the loaded dictionary (R243) -/
  dict : List Byte := []
  /-- what is left of the input stream -/
  src : List Byte := []
  /-- the output stream so far -/
  out : List Byte := []
  /-- `blockMax` (R230, R239) -/
  blockMax : Nat := BlockMax.of {} .c7
  /-- the block in hand (R235) -/
  block : List Byte := []
  /-- the previous block, none before block 0 (R234) -/
  prev : Option (List Byte) := none
  /-- the accesses issued and not yet made -/
  todo : List HostAct := []
  /-- the whole input of the run (R246) -/
  input : List Byte := []
  /-- while verify decodes: the stream the run produced (R246) -/
  produced : Option (List Byte) := none
  dstOk : Bool := true
  deriving DecidableEq, Repr

/-- The host. -/
structure HostState where
  /-- the host's program: the accesses still to be made, the next first (log 20) -/
  acts : List HostAct
  /-- the bytes the last load or poll returned -/
  rdata : List Byte
  /-- ranges the host may not write until it has read DONE = 1 (20_memory.md R69; log 33) -/
  guardRead : List Region
  /-- ranges the host may neither read nor write until then -/
  guardWrite : List Region
  frame : Option FrameRun
  deriving DecidableEq, Repr

/-! ## The whole machine -/

/-- The two agents (10_state.md R20). -/
inductive Agent where
  | host | engine
  deriving DecidableEq, Repr

/-- An input of the environment: whose turn it is (70_reset_and_hazards.md R300; log 5), or a reset
(R290). -/
inductive Event where
  | turn (a : Agent)
  | reset
  deriving DecidableEq, Repr

/-- The machine. `par` is the parameters (no step changes them, log 1) and `draws` counts the free
values drawn (log 7). -/
structure State where
  par : Params
  eng : Engine
  mem : Memory
  host : HostState
  inputs : List Event
  draws : Nat
  deriving DecidableEq, Repr

/-- The host after reset of the whole machine: it has nothing to do (log 30). -/
def HostState.reset : HostState where
  acts := []
  rdata := []
  guardRead := []
  guardWrite := []
  frame := none

/-- The machine right after reset (70_reset_and_hazards.md R290, 10_state.md R45), with the default
parameters and nothing in memory. -/
def State.reset : State where
  par := {}
  eng := Engine.reset
  mem := {}
  host := HostState.reset
  inputs := []
  draws := 0

/-- Where the machine stops with a fault. -/
inductive Fault where
  /-- Raised by a host load or store that reaches past the 2^ADDR_W bytes of memory (20_memory.md
  R60): there is no such byte. Safe. -/
  | outsideMemory (addr : Nat)
  deriving DecidableEq, Repr

/-- Where the model gives a step no meaning (93_implementation_defined.md section 3). -/
inductive Refusal where
  /-- Answered by `exec` for an instruction that has no meaning yet. Safe. -/
  | notModelled (mnemonic : String)
  /-- Answered by a meaning that is run where the machine is not reading such an element: the spec
  gives an element a meaning in its place only (30_encoding.md R88). `step` never does so. Safe. -/
  | outOfPosition
  /-- Raised by a host access to the register file that is not one aligned 32-bit word
  (10_state.md R23, 20_memory.md R64), and by a whole access to a base register that is not wider than 32 bits
  (log 2). Safe. -/
  | registerAccess
  /-- Raised by a host access to a buffer of a command it must keep its hands off (20_memory.md R69,
  70_reset_and_hazards.md R296). Safe. -/
  | handsOff
  /-- Raised by a host access to memory with side effects, whose behaviour the spec does not give,
  or to memory the host does not have (log 25). Safe. -/
  | notMemory
  /-- Raised by a command whose buffers overlap (20_memory.md R74). Safe. -/
  | buffersOverlap
  /-- Raised by a command with a buffer over the register file (20_memory.md R65). Safe. -/
  | bufferOverRegisters
  /-- Raised by a command with a buffer over memory with side effects (20_memory.md R65). Safe. -/
  | bufferOverSideEffect
  /-- Raised by a command with a buffer in memory the host did not provide (20_memory.md R65,
  70_reset_and_hazards.md R299). Safe. -/
  | bufferNotProvided
  deriving DecidableEq, Repr

/-- The outcome of a step of this machine. -/
abbrev Out := Host.Outcome State Fault Refusal

end Sys2Proof.Machine
end

