-- ==== Sys2Proof/Machine/Flags.lean ====
section
/-! DEFINITION. The STATUS and PARAM words (10_state.md R25, R34; 60_exceptions.md R270, R271). -/

namespace Sys2Proof.Machine

/-- The number of a status code (60_exceptions.md R270). -/
def StatusCode.num : StatusCode → Byte
  | .ok => 0
  | .incompressible => 1
  | .compressionInternal => 2
  | .decompressionError => 3
  | .badCommand => 4

/-- The number of a detail (60_exceptions.md R271). -/
def Detail.num : Detail → Byte
  | .none => 0
  | .truncatedToken => 1
  | .truncatedRun => 2
  | .truncatedLiterals => 3
  | .truncatedOffset => 4
  | .badOffset => 5
  | .badLastToken => 6
  | .oversize => 7
  | .reservedOp => 1
  | .prefixTooLong => 2
  | .lengthTooLong => 3
  | .bufferWraps => 4

/-- A detail a DECOMPRESSION_ERROR ending may have (60_exceptions.md R271). -/
def Detail.ofDecoder : Detail → Bool
  | .truncatedToken | .truncatedRun | .truncatedLiterals | .truncatedOffset
  | .badOffset | .badLastToken | .oversize => true
  | .none | .reservedOp | .prefixTooLong | .lengthTooLong | .bufferWraps => false

/-- A detail a BAD_COMMAND ending may have (60_exceptions.md R271). -/
def Detail.ofCommand : Detail → Bool
  | .reservedOp | .prefixTooLong | .lengthTooLong | .bufferWraps => true
  | .none | .truncatedToken | .truncatedRun | .truncatedLiterals | .truncatedOffset
  | .badOffset | .badLastToken | .oversize => false

/-- The details each code may stand with (60_exceptions.md R271). -/
def StatusCode.allows (c : StatusCode) (d : Detail) : Bool :=
  match c with
  | .ok => d == .none
  | .incompressible => d == .none
  | .compressionInternal => d == .none
  | .decompressionError => d.ofDecoder
  | .badCommand => d.ofCommand

/-- STATUS.BUSY (10_state.md R25): the phase is BUSY. -/
def Engine.busy (e : Engine) : Bool :=
  match e.phase with
  | .idle => false
  | .busy _ _ => true

/-- The STATUS word (10_state.md R25): BUSY 0, DONE 1, reserved 7:2, CODE 15:8, DETAIL 23:16,
reserved 31:24. -/
def statusWord (e : Engine) : Word :=
  0#8 ++ e.detail.num ++ e.code.num ++ 0#6 ++ BitVec.ofBool e.done ++ BitVec.ofBool e.busy

/-- The PARAM word (10_state.md R34). -/
def paramWord (p : Params) : Word :=
  0#16 ++ BitVec.ofNat 8 p.lastLiterals ++ BitVec.ofNat 8 p.minMatch

end Sys2Proof.Machine
end

