-- ==== Sys2Proof/WellFormed.lean ====
section
/-! DEFINITION. Which terms of `Instr` stand for an encoding of the opcode table. -/

namespace Sys2Proof

/-- The BD bytes the format has: `blockMaxCode << 4` for a code in 4..7 (30_encoding.md R91). -/
def legalBd (bd : Byte) : Bool := bd == 0x40 || bd == 0x50 || bd == 0x60 || bd == 0x70

/-- A term stands for an encoding: the field values that belong to another row of the same place
are shut out (30_encoding.md R83, R90, R91, R94). -/
def Instr.wellFormed : Instr → Bool
  | .compressBlock _ => true
  | .decompressBlock _ => true
  | .reservedCmd op _ => op != 1 && op != 2
  | .seq _ _ => true
  | .last _ => true
  | .runFf => true
  | .runEnd e => e != 0xFF
  | .offset16 _ _ => true
  | .literals _ => true
  | .blkCompressed size => size != 0
  | .blkUncompressed _ => true
  | .blkEndmark => true
  | .frameHeader bd _ => legalBd bd
  | .rawFooter => true

end Sys2Proof
end

