-- ==== Sys2Proof/Decode.lean ====
section
/-! DEFINITION. Decoding and encoding.

Rows of the opcode table that share bit patterns are told apart by where they stand
(30_encoding.md R88, R100), so the decoder takes a place (`Pos`) beside the bytes. It is total: it
answers an instruction with the bytes left over, or a named reject. Each reject is what the machine
turns into the error the spec gives for that place (`rejectUnit`). -/

namespace Sys2Proof

/-- A place an instruction can stand at. -/
inductive Pos where
  /-- the word written to CMD (30_encoding.md R94) -/
  | command
  /-- the start of a sequence; the bytes given are all the payload has left (R81, R88) -/
  | token
  /-- inside a literal or match run (R83) -/
  | run
  /-- after the literals of a sequence that is not the last (R85) -/
  | offset
  /-- after a token and its literal run, whose literal length is `n` (R82) -/
  | literals (n : Nat)
  /-- before a block of a frame (R90) -/
  | blockHeader
  /-- at the start of a frame (R91) -/
  | frameHeader
  /-- the last two bytes of a raw stream (R93) -/
  | rawFooter
  deriving DecidableEq, Repr

/-- Why bytes at a place are no instruction. -/
inductive Reject where
  | shortCommand
  | truncatedToken
  | truncatedRun
  | truncatedOffset
  | truncatedLiterals
  | shortBlockHeader
  | shortFrameHeader
  | badMagic
  | badFlags
  | badDescriptor
  | shortFooter
  | badFooter
  deriving DecidableEq, Repr

/-- `le16` of 00_scope.md R9. -/
def le16 (lo hi : Byte) : Nat := lo.toNat + 256 * hi.toNat

/-- `le32` of 00_scope.md R9, as a word. -/
def le32 (b0 b1 b2 b3 : Byte) : Word := b3 ++ b2 ++ b1 ++ b0

/-- The four bytes of a word in little-endian order (20_memory.md R63). -/
def wordBytes (w : Word) : List Byte :=
  [w.extractLsb' 0 8, w.extractLsb' 8 8, w.extractLsb' 16 8, w.extractLsb' 24 8]

/-- The literal nibble `t[7:4]` of a token (30_encoding.md R81). -/
def tokenLn (t : Byte) : BitVec 4 := t.extractLsb' 4 4

/-- The match nibble `t[3:0]` of a token (30_encoding.md R81). -/
def tokenMn (t : Byte) : BitVec 4 := t.extractLsb' 0 4

/-- `readRun` of 44_block_decoder.md R202 on the bytes left: the value of the run and the bytes after
it, or none where the bytes end inside the run. -/
def readRun : List Byte → Option (Nat × List Byte)
  | [] => none
  | b :: bs =>
    if b = 0xFF then (readRun bs).map fun (v, r) => (v + 255, r)
    else some (b.toNat, bs)

/-- The literal length of a token, given the bytes after the token, and the bytes after its literal
run (30_encoding.md R82). -/
def readLitLen (ln : BitVec 4) (bs : List Byte) : Option (Nat × List Byte) :=
  if ln = 15 then (readRun bs).map fun (v, r) => (15 + v, r) else some (ln.toNat, bs)

/-- The match length of a sequence, given the bytes after its offset (30_encoding.md R84). -/
def readMatchLen (mn : BitVec 4) (bs : List Byte) : Option (Nat × List Byte) :=
  if mn = 15 then (readRun bs).map fun (v, r) => (19 + v, r) else some (mn.toNat + 4, bs)

/-- The payload ends exactly after this token's literals (30_encoding.md R88). -/
def endsAfterLiterals (ln : BitVec 4) (bs : List Byte) : Bool :=
  match readLitLen ln bs with
  | some (lit, r) => r.length == lit
  | none => false

/-- The command word (30_encoding.md R94): bits 3:0 are OP, bits 31:4 are ignored. -/
def decodeCommand (w : Word) : Instr :=
  let op : BitVec 4 := w.extractLsb' 0 4
  let ignored : BitVec 28 := w.extractLsb' 4 28
  if op = 1 then .compressBlock ignored
  else if op = 2 then .decompressBlock ignored
  else .reservedCmd op ignored

/-- The token byte. SEQ and LAST are told apart by position (30_encoding.md R88): a token whose
literals end the payload and whose match nibble is 0 is LAST. A token with another match nibble that
ends the payload is no LAST row (`LLLL0000`): it decodes as SEQ, and its literals end the command
with BAD_LAST_TOKEN (44_block_decoder.md R204; log 23). -/
def decodeToken (t : Byte) (bs : List Byte) : Instr :=
  if tokenMn t = 0 ∧ endsAfterLiterals (tokenLn t) bs = true then .last (tokenLn t)
  else .seq (tokenLn t) (tokenMn t)

/-- The block header word (30_encoding.md R90). -/
def decodeBlockHeader (h : Word) : Instr :=
  if h = 0 then .blkEndmark
  else if h.extractLsb' 31 1 = 0 then .blkCompressed (h.extractLsb' 0 31)
  else .blkUncompressed (h.extractLsb' 0 31)

/-- The instruction at a place, and the bytes after it; or why there is none. -/
def decode : Pos → List Byte → Except Reject (Instr × List Byte)
  | .command, b0 :: b1 :: b2 :: b3 :: r => .ok (decodeCommand (le32 b0 b1 b2 b3), r)
  | .command, _ => .error .shortCommand
  | .token, t :: r => .ok (decodeToken t r, r)
  | .token, [] => .error .truncatedToken
  | .run, b :: r => .ok (if b = 0xFF then .runFf else .runEnd b, r)
  | .run, [] => .error .truncatedRun
  | .offset, lo :: hi :: r => .ok (.offset16 lo hi, r)
  | .offset, _ => .error .truncatedOffset
  | .literals n, bs => if bs.length < n then .error .truncatedLiterals else .ok (.literals (bs.take n), bs.drop n)
  | .blockHeader, b0 :: b1 :: b2 :: b3 :: r => .ok (decodeBlockHeader (le32 b0 b1 b2 b3), r)
  | .blockHeader, _ => .error .shortBlockHeader
  | .frameHeader, m0 :: m1 :: m2 :: m3 :: flg :: bd :: hc :: r =>
    if m0 = 0x04 ∧ m1 = 0x22 ∧ m2 = 0x4D ∧ m3 = 0x18 then
      if flg = 0x40 then
        if legalBd bd = true then .ok (.frameHeader bd hc, r) else .error .badDescriptor
      else .error .badFlags
    else .error .badMagic
  | .frameHeader, _ => .error .shortFrameHeader
  | .rawFooter, b0 :: b1 :: r => if b0 = 0 ∧ b1 = 0 then .ok (.rawFooter, r) else .error .badFooter
  | .rawFooter, _ => .error .shortFooter

/-- The bytes of an instruction, from the encodings of 30_encoding.md (R81, R83, R85, R90 to R94). -/
def encode : Instr → List Byte
  | .compressBlock ignored => wordBytes (ignored ++ 1#4)
  | .decompressBlock ignored => wordBytes (ignored ++ 2#4)
  | .reservedCmd op ignored => wordBytes (ignored ++ op)
  | .seq ln mn => [ln ++ mn]
  | .last ln => [ln ++ 0#4]
  | .runFf => [0xFF]
  | .runEnd e => [e]
  | .offset16 lo hi => [lo, hi]
  | .literals bytes => bytes
  | .blkCompressed size => wordBytes (0#1 ++ size)
  | .blkUncompressed size => wordBytes (1#1 ++ size)
  | .blkEndmark => [0, 0, 0, 0]
  | .frameHeader bd hc => [0x04, 0x22, 0x4D, 0x18, 0x40, bd, hc]
  | .rawFooter => [0, 0]

/-- The bytes of a list of instructions, in order. -/
def assemble (is : List Instr) : List Byte := is.flatMap encode

/-- The place each instruction stands at. -/
def Instr.pos : Instr → Pos
  | .compressBlock _ => .command
  | .decompressBlock _ => .command
  | .reservedCmd _ _ => .command
  | .seq _ _ => .token
  | .last _ => .token
  | .runFf => .run
  | .runEnd _ => .run
  | .offset16 _ _ => .offset
  | .literals bytes => .literals bytes.length
  | .blkCompressed _ => .blockHeader
  | .blkUncompressed _ => .blockHeader
  | .blkEndmark => .blockHeader
  | .frameHeader _ _ => .frameHeader
  | .rawFooter => .rawFooter

/-- The bytes after a token decide between SEQ and LAST (30_encoding.md R88): the bytes `rest` fit the
token `i`. Any bytes fit every other instruction. -/
def Instr.fits : Instr → List Byte → Bool
  | .seq ln mn, rest => mn != 0 || !endsAfterLiterals ln rest
  | .last ln, rest => endsAfterLiterals ln rest
  | _, _ => true

/-- The low `n` bytes of a number, the least significant first (20_memory.md R63). -/
def leBytes : Nat → Nat → List Byte
  | 0, _ => []
  | n + 1, w => BitVec.ofNat 8 w :: leBytes n (w / 256)

/-- The place at which a word of the opcode table is read when only its bits are given. The table's
rows share bit patterns and are told apart by place (30_encoding.md R100), which `nbits` and `w` do
not give, so this is the model's choice (log 12). -/
def tablePos (nbits w : Nat) : Pos :=
  if nbits = 8 then if w = 255 then .run else .token
  else if nbits = 16 then if w = 0 then .rawFooter else .offset
  else if nbits = 32 then if w % 16 = 0 then .blockHeader else .command
  else if nbits = 56 then .frameHeader
  else .literals (nbits / 8)

/-- The zero operand bytes that follow a token whose literal nibble is `ln`: its literal run and
literals. -/
def tokenOperands (ln : BitVec 4) : List Byte :=
  if ln = 15 then List.replicate 16 0 else List.replicate ln.toNat 0

/-- A table word laid out as the hardware stores it, with operand bytes of zeros after a token. The
table numbers FRAME_HEADER with byte 0 most significant, every other row with byte 0 least
significant; either numbering of a frame header is read (log 13). -/
def tableBytes (nbits w : Nat) : List Byte :=
  let bs := leBytes (nbits / 8) w
  match tablePos nbits w with
  | .token => bs ++ tokenOperands (tokenLn (BitVec.ofNat 8 w))
  | .frameHeader => if w / 2 ^ 48 = 0x04 then bs.reverse else bs
  | _ => bs

/-- The instruction the decoder reads from a word of the opcode table. -/
def decodeTableWord (nbits w : Nat) : Option Instr :=
  if nbits % 8 = 0 then
    match decode (tablePos nbits w) (tableBytes nbits w) with
    | .ok (i, _) => some i
    | .error _ => none
  else none

end Sys2Proof
end

