-- ==== Sys2Proof/Machine/Operands.lean ====
section
/-! DEFINITION. The operands of the commands and of the payload elements: the latched descriptor and
its buffers (10_state.md R36, 20_memory.md R61), the descriptor checks (40_commands.md R124, R125),
and the lengths of a sequence (30_encoding.md R83, R86). -/

namespace Sys2Proof.Machine

/-! ## The descriptor -/

/-- Copy the descriptor registers (10_state.md R36). -/
def latch (e : Engine) : Desc where
  winBase := e.winBase
  prefixLen := e.prefixLen
  blockLen := e.blockLen
  inBase := e.inBase
  inLen := e.inLen
  outBase := e.outBase

/-- `LD.WIN` -/
def Desc.win (ld : Desc) : Nat := ld.winBase
/-- `LD.P` -/
def Desc.P (ld : Desc) : Nat := ld.prefixLen.toNat
/-- `LD.L` -/
def Desc.L (ld : Desc) : Nat := ld.blockLen.toNat
/-- `LD.CAP`: the BLOCK_LEN value of a decompress command (10_state.md R28). -/
def Desc.cap (ld : Desc) : Nat := ld.blockLen.toNat
/-- `LD.IN` -/
def Desc.inp (ld : Desc) : Nat := ld.inBase
/-- `LD.INLEN` -/
def Desc.n (ld : Desc) : Nat := ld.inLen.toNat
/-- `LD.OUT` -/
def Desc.out (ld : Desc) : Nat := ld.outBase

/-- The size of memory, `2^ADDR_W` (20_memory.md R60). -/
def memSize (p : Params) : Nat := 2 ^ p.addrW

/-- `check_compress` (40_commands.md R124): the detail of the first failing check. -/
def checkCompress (p : Params) (ld : Desc) : Option Detail :=
  if p.prefixLimit < ld.P then some .prefixTooLong
  else if p.blockLenLimit < ld.L then some .lengthTooLong
  else if memSize p < ld.win + ld.P + ld.L ∨ memSize p < ld.out + ld.L then some .bufferWraps
  else none

/-- `check_decompress` (40_commands.md R125). -/
def checkDecompress (p : Params) (ld : Desc) : Option Detail :=
  if p.prefixLimit < ld.P then some .prefixTooLong
  else if p.blockLenLimit < ld.cap ∨ p.blockLenLimit < ld.n then some .lengthTooLong
  else if memSize p < ld.inp + ld.n ∨ memSize p < ld.win + ld.P + ld.cap then some .bufferWraps
  else none

/-! ## Buffers -/

/-- Two ranges have an address in common. -/
def meets (a b : Region) : Bool :=
  0 < a.len && 0 < b.len && a.base < b.base + b.len && b.base < a.base + a.len

/-- The address lies in the range. -/
def holds (a : Region) (x : Nat) : Bool := a.base ≤ x && x < a.base + a.len

/-- The register file (10_state.md R22): offsets 0x00 to 0xFF. -/
def registerFile (p : Params) : Region := ⟨p.ifaceBase, 256⟩

/-- The window a compress command reads (20_memory.md R61). -/
def Desc.compressWindow (ld : Desc) : Region := ⟨ld.win, ld.P + ld.L⟩
/-- The payload buffer a compress command writes (20_memory.md R61). -/
def Desc.compressOut (ld : Desc) : Region := ⟨ld.out, ld.L⟩
/-- The payload a decompress command reads (20_memory.md R61). -/
def Desc.payload (ld : Desc) : Region := ⟨ld.inp, ld.n⟩
/-- The output window of a decompress command, with its history (20_memory.md R61). -/
def Desc.decompressWindow (ld : Desc) : Region := ⟨ld.win, ld.P + ld.cap⟩
/-- The part of the window a decompress command writes (20_memory.md R61). -/
def Desc.decompressOut (ld : Desc) : Region := ⟨ld.win + ld.P, ld.cap⟩

/-- The addresses of a range that exist: a range that passes the top of memory ends there (20_memory.md R60;
log 26). -/
def clip (p : Params) (r : Region) : Region := ⟨r.base, min r.len (memSize p - r.base)⟩

/-- The ranges the command with this OP reads (20_memory.md R61), whatever its descriptor checks say. -/
def readSet (p : Params) (op : BitVec 4) (ld : Desc) : List Region :=
  if op = 1 then [clip p ld.compressWindow]
  else if op = 2 then [clip p ld.payload, clip p ld.decompressWindow]
  else []

/-- The ranges the command with this OP writes (20_memory.md R61), whatever its descriptor checks say. -/
def writeSet (p : Params) (op : BitVec 4) (ld : Desc) : List Region :=
  if op = 1 then [clip p ld.compressOut]
  else if op = 2 then [clip p ld.decompressOut]
  else []

/-- Why a model refuses a command with the two buffers `a` and `b` (93_implementation_defined.md
section 3): they overlap (20_memory.md R74), lie over the register file or side-effect memory (R65),
or run into memory the host did not provide (70_reset_and_hazards.md R299). -/
def bufferRefusal (p : Params) (a b : Region) : Option Refusal :=
  if meets a b then some .buffersOverlap
  else if meets a (registerFile p) || meets b (registerFile p) then some .bufferOverRegisters
  else if p.sideEffect.any fun r => meets a r || meets b r then some .bufferOverSideEffect
  else if p.notProvided.any fun r => meets a r || meets b r then some .bufferNotProvided
  else none

/-! ## Lengths -/

/-- `extraRunBytes` (30_encoding.md R83). -/
def extraRunBytes (v : Nat) : Nat := if v < 15 then 0 else 1 + (v - 15) / 255

/-- `seqLen` (30_encoding.md R86). -/
def seqLen (r k : Nat) : Nat := 1 + extraRunBytes r + r + 2 + extraRunBytes (k - 4)

/-- `lastLen` (30_encoding.md R86). -/
def lastLen (r : Nat) : Nat := 1 + extraRunBytes r + r

/-- The nibble of a length: `min(v, 15)` (30_encoding.md R82, R84). -/
def nibble (v : Nat) : BitVec 4 := BitVec.ofNat 4 (min v 15)

/-- The place of the instruction set a decoder place reads at (44_block_decoder.md R201 to R207). -/
def DecPos.pos : DecPos → Pos
  | .token => .token
  | .litRun _ _ => .run
  | .literals _ lit => .literals lit
  | .offset _ => .offset
  | .matchRun _ _ => .run

end Sys2Proof.Machine
end

