-- ==== Sys2Proof/Machine/Ops.lean ====
section
/-! DEFINITION. The named operations the meanings share: memory, free values, the completion step (an
error's entry among its uses), reset, the registers, and the accesses of the host. -/

namespace Sys2Proof.Machine

/-! ## Memory (20_memory.md R60) -/

namespace Memory

/-- What an address that nobody has written reads as. The spec leaves the contents of memory to the host
(10_state.md R45). DESIGN CHOICE: zero (log 4). -/
def blank : Byte := 0

/-- The canonical form: the addresses of each list strictly rise, no address is in both, and no listed byte
is what an unlisted address reads as. -/
abbrev wf (m : Memory) : Prop :=
  (m.cells.Pairwise fun a b => a.1 < b.1) ∧ (m.free.Pairwise fun a b => a.1 < b.1) ∧
  (∀ c ∈ m.cells, c.2 ≠ blank) ∧ ∀ c ∈ m.cells, ∀ d ∈ m.free, c.1 ≠ d.1

/-- Every listed address is one of memory's (20_memory.md R60). -/
abbrev inRange (p : Params) (m : Memory) : Prop :=
  (∀ c ∈ m.cells, c.1 < memSize p) ∧ ∀ d ∈ m.free, d.1 < memSize p

/-- The entry of an address. -/
def find {α : Type} : List (Nat × α) → Nat → Option α
  | [], _ => none
  | (a, b) :: l, x => if a = x then some b else find l x

/-- The byte at an address: every address holds one (20_memory.md R60). -/
def read (m : Memory) (a : Nat) : Byte :=
  match find m.free a with
  | some k => Config.freeByte k
  | none => (find m.cells a).getD blank

/-- `MemRead` (00_scope.md R10): the `n` bytes from an address on. -/
def readRange (m : Memory) (base : Nat) : Nat → List Byte
  | 0 => []
  | n + 1 => read m base :: readRange m (base + 1) n

/-- Replace the entries of the `n` addresses from `base` on. -/
def splice {α : Type} (l : List (Nat × α)) (base n : Nat) (new : List (Nat × α)) : List (Nat × α) :=
  l.filter (fun c => c.1 < base) ++ new ++ l.filter (fun c => base + n ≤ c.1)

/-- The cells of a byte string laid from an address on. -/
def cellsOf : Nat → List Byte → List Host.Cell
  | _, [] => []
  | base, b :: bs => if b = blank then cellsOf (base + 1) bs else (base, b) :: cellsOf (base + 1) bs

/-- The entries of `n` free values, the `k`-th drawn the first, laid from an address on. -/
def freeOf (base n k : Nat) : List (Nat × Nat) := (List.range n).map fun i => (base + i, k + i)

/-- `MemWrite` (00_scope.md R10): the bytes laid from an address on, every other address as before. -/
def writeRange (m : Memory) (base : Nat) (bs : List Byte) : Memory where
  cells := splice m.cells base bs.length (cellsOf base bs)
  free := splice m.free base bs.length []

/-- The `n` bytes from an address on become free values, the `k`-th drawn the first; every other address is as
before. -/
def freeRange (m : Memory) (base n k : Nat) : Memory where
  cells := splice m.cells base n []
  free := splice m.free base n (freeOf base n k)

end Memory

/-! ## Updates of the state -/

/-- Replace the engine. -/
def State.setEng (s : State) (e : Engine) : State := { s with eng := e }
/-- Replace memory. -/
def State.setMem (s : State) (m : Memory) : State := { s with mem := m }
/-- Replace the host. -/
def State.setHost (s : State) (h : HostState) : State := { s with host := h }
/-- Replace the turns and resets to come. -/
def State.setInputs (s : State) (l : List Event) : State := { s with inputs := l }
/-- Count `n` more free values drawn. -/
def State.drew (s : State) (n : Nat) : State := { s with draws := s.draws + n }

/-- STATUS.BUSY (10_state.md R25). -/
def State.busy (s : State) : Bool := s.eng.busy

/-- `MemWrite` on the machine. -/
def State.write (s : State) (base : Nat) (bs : List Byte) : State :=
  s.setMem (s.mem.writeRange base bs)

/-! ## Free values (93_implementation_defined.md section 2; log 7) -/

/-- Make every byte of a range unspecified (20_memory.md R62, 70_reset_and_hazards.md R291). -/
def State.scramble (s : State) (r : Region) : State :=
  (s.setMem (s.mem.freeRange r.base r.len s.draws)).drew r.len

/-- A register value the spec leaves unspecified: the given one, or else a free word. -/
def State.orFree (s : State) (v : Option Word) : Word := v.getD (Config.freeWord s.draws)

/-! ## The completion step (40_commands.md R128, 60_exceptions.md R272) -/

/-- What a command ends with. A `none` is a value the spec leaves unspecified. -/
structure Ending where
  code : StatusCode
  detail : Detail := .none
  outLen : Option Word := none
  tokens : Option Word := none
  errPos : Word := 0
  deriving DecidableEq, Repr

/-- The completion step (40_commands.md R128 (2) to (4)): OUT_LEN, TOKENS and ERR_POS are written, then
CODE and DETAIL, then BUSY <- 0, DONE <- 1 and the phase is IDLE. This is also how an error is
entered (60_exceptions.md R272): there is no vector, saved pc or mode. -/
def State.endCommand (s : State) (e : Ending) : State :=
  (s.setEng { s.eng with
      phase := .idle
      done := true
      code := e.code
      detail := e.detail
      outLen := s.orFree e.outLen
      tokens := (s.drew 1).orFree e.tokens
      errPos := e.errPos }).drew 2

/-- `done(OUT_LEN, TOKENS)` (00_scope.md R10, 40_commands.md R128). -/
def State.finish (s : State) (outLen tokens : Nat) : State :=
  s.endCommand
    { code := .ok, outLen := some (BitVec.ofNat 32 outLen), tokens := some (BitVec.ofNat 32 tokens) }

/-- `raise Status(code, detail, pos)` (00_scope.md R10, 40_commands.md R128): TOKENS keeps the value
written earlier in the command, and is unspecified where none was. -/
def State.raise (s : State) (code : StatusCode) (detail : Detail) (pos : Nat) (tokens : Option Word) :
    State :=
  s.endCommand { code := code, detail := detail, tokens := tokens, errPos := BitVec.ofNat 32 pos }

/-- `raise Status(BAD_COMMAND, detail, 0)` (40_commands.md R123 to R125). -/
def State.badCommand (s : State) (detail : Detail) : State := s.raise .badCommand detail 0 none

/-! ## Starting a command (40_commands.md R120) -/

/-- The OP of a command word (30_encoding.md R94). -/
def wordOp (w : Word) : BitVec 4 := w.extractLsb' 0 4

/-- A write of `w` to CMD while IDLE (40_commands.md R120): the descriptor is latched, CMD takes the OP,
BUSY <- 1, DONE, CODE and DETAIL <- 0. The host must keep its hands off the command's buffers from
here on (70_reset_and_hazards.md R296; log 33). -/
def State.startCommand (s : State) (w : Word) : State :=
  let ld := latch s.eng
  (s.setEng { s.eng with
      phase := .busy ld (.pending w)
      cmdOp := wordOp w
      done := false
      code := .ok
      detail := .none }).setHost
    { s.host with
      guardRead := s.host.guardRead ++ readSet s.par (wordOp w) ld
      guardWrite := s.host.guardWrite ++ writeSet s.par (wordOp w) ld }

/-- Run a command word (40_commands.md R120, R129). On an IDLE engine it is accepted and its command run
at once; where it is the word accepted and not yet run, its command is run; on an engine busy
otherwise, a write to CMD is ignored (10_state.md R35; log 24). -/
def runCommand (w : Word) (run : Desc → State → Out) (s : State) : Out :=
  match s.eng.phase with
  | .idle => run (latch s.eng) (s.startCommand w)
  | .busy ld (.pending v) => if v = w then run ld s else .next s
  | .busy _ (.found _) => .next s
  | .busy _ (.parsed _) => .next s
  | .busy _ (.emitting _) => .next s
  | .busy _ (.decoding _) => .next s

/-! ## Reset (70_reset_and_hazards.md R290, R291) -/

/-- The bytes a reset makes unspecified: the write set of the command it cuts (R291, R61; log 26). -/
def State.cutRanges (s : State) : List Region :=
  match s.eng.phase with
  | .idle => []
  | .busy ld _ => writeSet s.par s.eng.cmdOp ld

/-- Reset of the engine (R290). Memory keeps its contents but for the write set of a command that was
running (R291). The host's program and the parameters are not the engine's (R293). -/
def State.applyReset (s : State) : State :=
  ((s.cutRanges.foldl State.scramble s).setEng Engine.reset).setHost
    { s.host with guardRead := [], guardWrite := [] }

/-! ## The interface registers (10_state.md R22, 40_commands.md R126, R127) -/

/-- A register by its offset (10_state.md R22). -/
inductive Reg where
  | cmd | status | winBase | prefixLen | blockLen | inBase | inLen | outBase
  | outLen | tokens | errPos | param
  | reserved
  deriving DecidableEq, Repr

/-- The register at a word offset (10_state.md R22). -/
def regAt (off : Nat) : Reg :=
  if off = 0x00 then .cmd
  else if off = 0x04 then .status
  else if off = 0x08 then .winBase
  else if off = 0x0C then .prefixLen
  else if off = 0x10 then .blockLen
  else if off = 0x14 then .inBase
  else if off = 0x18 then .inLen
  else if off = 0x1C then .outBase
  else if off = 0x20 then .outLen
  else if off = 0x24 then .tokens
  else if off = 0x28 then .errPos
  else if off = 0x2C then .param
  else .reserved

/-- The address a base register holds. -/
def State.base (s : State) : BaseReg → Addr
  | .win => s.eng.winBase
  | .inp => s.eng.inBase
  | .out => s.eng.outBase

/-- A base register takes as many bits of a value as it is wide (10_state.md R22). -/
def State.setBase (s : State) (b : BaseReg) (v : Nat) : State :=
  match b with
  | .win => s.setEng { s.eng with winBase := v % memSize s.par }
  | .inp => s.setEng { s.eng with inBase := v % memSize s.par }
  | .out => s.setEng { s.eng with outBase := v % memSize s.par }

/-- What a 32-bit read of a register returns (40_commands.md R126); of a wider base register, its low 32 bits
(log 2). OUT_LEN, TOKENS and ERR_POS are a free word while BUSY (10_state.md R35). -/
def State.regValue (s : State) (r : Reg) : Word :=
  match r with
  | .cmd => s.eng.cmdOp.setWidth 32
  | .status => statusWord s.eng
  | .winBase => BitVec.ofNat 32 (s.base .win)
  | .prefixLen => s.eng.prefixLen
  | .blockLen => s.eng.blockLen
  | .inBase => BitVec.ofNat 32 (s.base .inp)
  | .inLen => s.eng.inLen
  | .outBase => BitVec.ofNat 32 (s.base .out)
  | .outLen => if s.busy then Config.freeWord s.draws else s.eng.outLen
  | .tokens => if s.busy then Config.freeWord s.draws else s.eng.tokens
  | .errPos => if s.busy then Config.freeWord s.draws else s.eng.errPos
  | .param => paramWord s.par
  | .reserved => 0

/-- What a 32-bit write of `v` to a register does (40_commands.md R127): nothing while BUSY; else it sets a
read/write register, starts a command at CMD, and is ignored elsewhere. -/
def State.regWrite (s : State) (r : Reg) (v : Word) : State :=
  if s.busy then s
  else
    match r with
    | .cmd => s.startCommand v
    | .status => s
    | .winBase => s.setBase .win v.toNat
    | .prefixLen => s.setEng { s.eng with prefixLen := v }
    | .blockLen => s.setEng { s.eng with blockLen := v }
    | .inBase => s.setBase .inp v.toNat
    | .inLen => s.setEng { s.eng with inLen := v }
    | .outBase => s.setBase .out v.toNat
    | .outLen => s
    | .tokens => s
    | .errPos => s
    | .param => s
    | .reserved => s

/-- What the host learns from a read: the bytes. -/
def State.returned (s : State) (bs : List Byte) : State := s.setHost { s.host with rdata := bs }

/-- The host may touch its buffers again: it has read STATUS with DONE = 1 (20_memory.md R68 (b),
70_reset_and_hazards.md R298; log 33). -/
def State.released (s : State) : State :=
  s.setHost { s.host with guardRead := [], guardWrite := [] }

/-- A host read of a register (40_commands.md R126). No register changes; a read of STATUS that shows
DONE = 1 is the acquire of 20_memory.md R70. -/
def State.regRead (s : State) (r : Reg) : State :=
  let t := (s.returned (wordBytes (s.regValue r))).drew 1
  if r = .status ∧ s.eng.done = true then t.released else t

/-! ## Accesses of the host -/

/-- The offset of an access that is one aligned 32-bit word of the register file, none where it is any
other access to it (10_state.md R23). -/
def regOffset (p : Params) (addr n : Nat) : Option Nat :=
  if p.ifaceBase ≤ addr ∧ addr + n ≤ p.ifaceBase + 256 ∧ n = 4 ∧ (addr - p.ifaceBase) % 4 = 0 then
    some (addr - p.ifaceBase)
  else none

/-- Memory the host may access as memory (20_memory.md R65, 70_reset_and_hazards.md R299; log 25). -/
def plainMemory (p : Params) (r : Region) : Bool :=
  !(p.sideEffect.any fun q => meets r q) && !(p.notProvided.any fun q => meets r q)

/-- A host load of `n` bytes at an address (40_commands.md R126 for a register; 20_memory.md R68,
R69). -/
def hostLoad (addr n : Nat) (s : State) : Out :=
  let r : Region := ⟨addr, n⟩
  if memSize s.par < addr + n then .fault (.outsideMemory addr)
  else if meets r (registerFile s.par) then
    match regOffset s.par addr n with
    | some off => .next (s.regRead (regAt off))
    | none => .refused .registerAccess
  else if plainMemory s.par r = false then .refused .notMemory
  else if s.host.guardWrite.any (fun q => meets r q) then .refused .handsOff
  else .next (s.returned (s.mem.readRange addr n))

/-- The word of a four-byte string (20_memory.md R63). -/
def wordOf : List Byte → Word
  | [b0, b1, b2, b3] => le32 b0 b1 b2 b3
  | _ => 0

/-- A host store of bytes at an address (40_commands.md R127 for a register; 20_memory.md R69). -/
def hostStore (addr : Nat) (bs : List Byte) (s : State) : Out :=
  let r : Region := ⟨addr, bs.length⟩
  if memSize s.par < addr + bs.length then .fault (.outsideMemory addr)
  else if meets r (registerFile s.par) then
    match regOffset s.par addr bs.length with
    | some off => .next (s.regWrite (regAt off) (wordOf bs))
    | none => .refused .registerAccess
  else if plainMemory s.par r = false then .refused .notMemory
  else if (s.host.guardRead ++ s.host.guardWrite).any (fun q => meets r q) then .refused .handsOff
  else .next (s.write addr bs)

/-! ## Base registers wider than 32 bits

An access to the register file is one 32-bit word (10_state.md R23, 20_memory.md R64). Where ADDR_W is above 32,
R22 takes the base registers as ADDR_W-bit registers, whose upper bits no such access carries. DESIGN CHOICE: the
host then has a transfer of the whole register (log 2). -/

/-- A host read of a base register whole: its bytes, the least significant first. -/
def hostLoadBase (b : BaseReg) (s : State) : Out :=
  if s.par.addrW ≤ 32 then .refused .registerAccess
  else .next (s.returned (leBytes ((s.par.addrW + 7) / 8) (s.base b)))

/-- A host write of a base register whole: ignored while BUSY (10_state.md R35). -/
def hostStoreBase (b : BaseReg) (v : Nat) (s : State) : Out :=
  if s.par.addrW ≤ 32 then .refused .registerAccess
  else if s.busy then .next s
  else .next (s.setBase b v)

end Sys2Proof.Machine
end

