-- ==== Sys2Proof/Machine/Frame.lean ====
section
/-! DEFINITION. The frame layer the host runs (45_frame_container.md): the meanings of FRAME_HEADER,
BLK_COMPRESSED, BLK_UNCOMPRESSED, BLK_ENDMARK and RAW_FOOTER, which the host reads from a stream, and the
host's own work between them. The host drives the engine through loads and stores only. -/

namespace Sys2Proof.Machine

/-! ## Options and the header checksum -/

/-- `blockMaxCode` of a run (R230): BLOCK_CODE_DEFAULT where it is given none. -/
def FrameOpts.codeOf (o : FrameOpts) (par : Params) : BlockCode := o.code.getD par.blockCodeDefault

/-- BD = `blockMaxCode << 4` (R231). -/
def bdOf : BlockCode → Byte
  | .c4 => 0x40
  | .c5 => 0x50
  | .c6 => 0x60
  | .c7 => 0x70

/-- The block-max code `BD >> 4` of a legal BD (R239). -/
def codeOfBd (bd : Byte) : BlockCode :=
  if bd = 0x40 then .c4 else if bd = 0x50 then .c5 else if bd = 0x60 then .c6 else .c7

/-- `HCc(0x40, BD)` (R232): bits 15:8 of XXH32 of the two descriptor bytes, with seed 0. -/
def headerChecksum (par : Params) (bd : Byte) : Byte := (par.hash [0x40, bd] 0).extractLsb' 8 8

/-- The checksum byte a compress emits (R232). -/
def emittedHc (par : Params) (bd : Byte) : Byte :=
  match par.hcMode with
  | .source => 0xC0
  | .computed => headerChecksum par bd
  | .strictSource => 0xC0

/-- The check of BD and HC on decompress, in the order of R239: the error, none where both pass. -/
def headerError (par : Params) (bd hc : Byte) : Option HostErr :=
  if legalBd bd = false then some .format
  else
    match par.hcMode with
    | .source => if hc = 0xC0 ∨ hc = headerChecksum par bd then none else some .checksum
    | .computed => if hc = headerChecksum par bd then none else some .checksum
    | .strictSource =>
      if bd ≠ 0x40 then some .format else if hc = 0xC0 then none else some .checksum

/-! ## The run -/

/-- Set the frame-layer run. -/
def State.setFrame (s : State) (f : FrameRun) : State := s.setHost { s.host with frame := some f }

/-- End the run with a result. A success whose output cannot be written is ERR_DST (60_exceptions.md
R276; log 18). -/
def State.endFrame (s : State) (f : FrameRun) (r : HostResult) : State :=
  let r' := match r with
    | .success => if f.dstOk then .success else .failed .dst none
    | .failed e d => .failed e d
  s.setFrame { f with phase := .ended r', todo := [] }

/-- End the run with a host error (60_exceptions.md R276). -/
def State.failFrame (s : State) (f : FrameRun) (e : HostErr) : State := s.endFrame f (.failed e none)

/-- The exit code of a result (R247). -/
def exitCode : HostResult → Nat
  | .success => 0
  | .failed _ _ => 100

/-- The run has an end. -/
def FrameRun.over (f : FrameRun) : Bool :=
  match f.phase with
  | .ended _ => true
  | _ => false

/-- `prefix_b` (R234): the dictionary for block 0; then the last bytes, 65536 at most, of the previous
block where blocks are dependent, and nothing where they are not. -/
def blockHistory (f : FrameRun) : List Byte :=
  match f.prev with
  | none => f.dict
  | some b => if f.opts.dependent then b.drop (b.length - 65536) else []

/-! ## Driving the engine (30_encoding.md R98) -/

/-- The store of a word to the register at an offset. -/
def storeReg (par : Params) (off : Nat) (w : Word) : HostAct := .store (par.ifaceBase + off) (wordBytes w)

/-- `COMPRESS win, p, l, out` then `WAIT` (30_encoding.md R98). -/
def compressActs (par : Params) (win : Word) (p l : Nat) (out : Word) : List HostAct :=
  [storeReg par 0x08 win, storeReg par 0x0C (BitVec.ofNat 32 p),
    storeReg par 0x10 (BitVec.ofNat 32 l), storeReg par 0x1C out, storeReg par 0x00 1, .wait]

/-- `DECOMPRESS win, p, cap, in, n` then `WAIT` (30_encoding.md R98). DESIGN CHOICE: an `n` that IN_LEN cannot hold,
which only a raw stream of 2^32 + 2 bytes or more gives (R244), is written modulo 2^32 (log 36). -/
def decompressActs (par : Params) (win : Word) (p cap : Nat) (inp : Word) (n : Nat) : List HostAct :=
  [storeReg par 0x08 win, storeReg par 0x0C (BitVec.ofNat 32 p),
    storeReg par 0x10 (BitVec.ofNat 32 cap), storeReg par 0x14 inp,
    storeReg par 0x18 (BitVec.ofNat 32 n), storeReg par 0x00 2, .wait]

/-- Run COMPRESS_BLOCK on a block: the window `prefix_b ‖ block_b` is put in memory, then the command is
issued (R234, R235). -/
def issueCompress (par : Params) (f : FrameRun) (block : List Byte) : FrameRun :=
  { f with
    phase := .awaitCompress
    block := block
    todo := .store par.hostWindow.toNat (blockHistory f ++ block) ::
      compressActs par par.hostWindow (blockHistory f).length block.length par.hostOutput }

/-- Run DECOMPRESS_BLOCK on a payload: the payload and `prefix_b` are put in memory, then the command is
issued (R241, R244). DESIGN CHOICE: a raw stream too long for the payload buffer is stored all the same, and stops
as a host store does where it reaches the register file or the top of memory (log 36). -/
def issueDecompress (par : Params) (f : FrameRun) (payload : List Byte) (cap : Nat) : FrameRun :=
  { f with
    phase := .awaitDecompress
    todo := .store par.hostWindow.toNat (blockHistory f) :: .store par.hostPayload.toNat payload ::
      decompressActs par par.hostWindow (blockHistory f).length cap par.hostPayload payload.length }

/-! ## The end of a run -/

/-- The first offset at which two byte strings differ, the shorter length where one continues the other,
none where they are equal (R246). -/
def firstDiff : List Byte → List Byte → Option Nat
  | [], [] => none
  | [], _ :: _ => some 0
  | _ :: _, [] => some 0
  | a :: as, b :: bs => if a = b then (firstDiff as bs).map (· + 1) else some 0

/-- The phase a decode begins in (R239, R244). -/
def decodeStart (o : FrameOpts) : FramePhase := if o.raw then .readFooter else .readHeader

/-- The stream is complete (R236, R237): the run succeeds, or verify decodes what it produced (R246;
log 28). -/
def State.streamDone (s : State) (f : FrameRun) : State :=
  if f.opts.verify then
    s.setFrame { f with
      phase := decodeStart f.opts, src := f.out, out := [], prev := none, block := [],
      produced := some f.out }
  else s.endFrame f .success

/-- The decoded output is complete (R242, R244): the run succeeds, or verify compares it with the input
(R246). -/
def State.decodeDone (s : State) (f : FrameRun) : State :=
  match f.produced with
  | none => s.endFrame f .success
  | some y =>
    match firstDiff f.out f.input with
    | none => s.endFrame { f with out := y } .success
    | some d => s.endFrame { f with out := y } (.failed .dst (some d))

/-! ## The container words a host reads -/

/-- Run `k` on a frame-layer run that reads the stream in the given phase. -/
def withFrame (phase : FramePhase) (s : State) (k : FrameRun → State) : Out :=
  match s.host.frame with
  | some f => if f.phase = phase ∧ f.todo = [] then .next (k f) else .refused .outOfPosition
  | none => .refused .outOfPosition

/-- FRAME_HEADER (R239): BD and HC are checked, `blockMax` is taken, and block headers follow. -/
def execFrameHeader (bd hc : Byte) (s : State) : Out :=
  withFrame .readHeader s fun f =>
    match headerError s.par bd hc with
    | some e => s.failFrame f e
    | none => s.setFrame { f with phase := .readBlock, src := f.src.drop 7, blockMax := s.par.blockMax.of (codeOfBd bd) }

/-- The checks of a block's size against the frame's block maximum and against what is left of the
stream after the block header (R240). -/
def blockError (f : FrameRun) (size : Nat) : Option HostErr :=
  if f.blockMax < size then some .decompression
  else if (f.src.drop 4).length < size then some .src
  else none

/-- BLK_COMPRESSED (R240, R241): DECOMPRESS_BLOCK is issued for the payload with CAP = blockMax. -/
def execBlkCompressed (size : BitVec 31) (s : State) : Out :=
  withFrame .readBlock s fun f =>
    match blockError f size.toNat with
    | some e => s.failFrame f e
    | none =>
      s.setFrame (issueDecompress s.par { f with src := (f.src.drop 4).drop size.toNat }
        ((f.src.drop 4).take size.toNat) f.blockMax)

/-- BLK_UNCOMPRESSED (R240, R241): the bytes are the decoded block. Size 0 is rejected. -/
def execBlkUncompressed (size : BitVec 31) (s : State) : Out :=
  withFrame .readBlock s fun f =>
    if size = 0 then s.failFrame f .decompression
    else
      match blockError f size.toNat with
      | some e => s.failFrame f e
      | none =>
        let block := (f.src.drop 4).take size.toNat
        s.setFrame { f with src := (f.src.drop 4).drop size.toNat, out := f.out ++ block, prev := some block }

/-- BLK_ENDMARK (R242): the frame ends; what follows is not read. -/
def execBlkEndmark (s : State) : Out :=
  withFrame .readBlock s fun f => s.decodeDone { f with src := f.src.drop 4 }

/-- RAW_FOOTER (R244, R245): DECOMPRESS_BLOCK is issued for the stream before the footer, with
CAP = RAW_LIMIT. -/
def execRawFooter (s : State) : Out :=
  withFrame .readFooter s fun f =>
    s.setFrame (issueDecompress s.par { f with src := [] } (f.src.take (f.src.length - 2)) s.par.rawLimit)

/-- The host error of bytes that are no container word where one must stand (R239, R240, R245). -/
def containerError : Reject → HostErr
  | .shortFrameHeader => .src
  | .badMagic => .format
  | .badFlags => .format
  | .badDescriptor => .format
  | .shortBlockHeader => .src
  | .shortFooter => .format
  | .badFooter => .format
  | .shortCommand => .format
  | .truncatedToken => .format
  | .truncatedRun => .format
  | .truncatedOffset => .format
  | .truncatedLiterals => .format

/-- End the run where the stream holds no container word (R239, R240, R245). -/
def badContainer (r : Reject) (s : State) : Out :=
  match s.host.frame with
  | some f => .next (s.failFrame f (containerError r))
  | none => .refused .outOfPosition

/-! ## The host's own work -/

/-- The dictionary a run loads (R243): the last `DICT_LIMIT` bytes of the file. -/
def loadDict (par : Params) (l : List Byte) : List Byte := l.drop (l.length - par.dictLimit)

/-- Start a run (R230, R243). A raw compress of too long an input ends at once (R238). DESIGN CHOICE: where several
errors stand, a failed allocation, an unreadable dictionary and an unreadable input are reported in this order, and
all before RAW_TOOLARGE (R238) and before the errors of a frame header (R239) or a raw footer (R245) (log 18).
DESIGN CHOICE: a run started while an earlier command is still BUSY, which R248 forbids the
host, neither waits nor is refused: its register writes are ignored (10_state.md R35) and its WAIT ends with
the earlier command (log 35). -/
def startJob (j : Job) (s : State) : State :=
  let f : FrameRun := { phase := .emitHeader, opts := j.opts, dstOk := j.dstOk, blockMax := s.par.blockMax.of (j.opts.codeOf s.par) }
  if j.memoryOk = false then s.failFrame f .memory
  else
    match j.dict, j.src with
    | .unreadable, _ => s.failFrame f .dictionary
    | .absent, none => s.failFrame f .src
    | .bytes _, none => s.failFrame f .src
    | d, some x =>
      let dict := match d with
        | .bytes l => loadDict s.par l
        | _ => []
      let g := { f with dict := dict, src := x, input := x }
      if j.opts.decompress then s.setFrame { g with phase := decodeStart j.opts }
      else if j.opts.raw then
        if s.par.rawLimit < x.length then s.failFrame g .rawTooLarge
        else s.setFrame (issueCompress s.par { g with src := [] } x)
      else s.setFrame g

/-- The bytes of the frame header emitted (R231). -/
def emittedHeader (par : Params) (c : BlockCode) : List Byte :=
  encode (.frameHeader (bdOf c) (emittedHc par (bdOf c)))

/-- The next block is compressed, or the footer ends the frame (R233, R236). -/
def nextBlock (f : FrameRun) (s : State) : State :=
  if f.src = [] then s.streamDone { f with out := f.out ++ encode .blkEndmark }
  else s.setFrame (issueCompress s.par { f with src := f.src.drop f.blockMax } (f.src.take f.blockMax))

/-- A block is emitted (R235, R237): `emitted` is its header and bytes. -/
def blockEmitted (f : FrameRun) (emitted : List Byte) : FrameRun :=
  { f with phase := .nextBlock, out := f.out ++ emitted, prev := some f.block, block := [] }

/-- COMPRESS_BLOCK has ended (R235, R237, R238). DESIGN CHOICE: the host takes STATUS.CODE, OUT_LEN and the payload in
the one turn after its WAIT, as they then stand (70_reset_and_hazards.md R298; log 37). -/
def collectCompress (f : FrameRun) (s : State) : State :=
  match s.eng.code with
  | .ok =>
    let len := (s.regValue .outLen).toNat
    let payload := s.mem.readRange s.par.hostOutput.toNat len
    if f.opts.raw then s.streamDone { f with out := f.out ++ payload ++ encode .rawFooter, block := [] }
    else s.setFrame (blockEmitted f (encode (.blkCompressed (BitVec.ofNat 31 len)) ++ payload))
  | .incompressible =>
    if f.opts.raw then s.failFrame f .rawUncompressed
    else s.setFrame (blockEmitted f (encode (.blkUncompressed (BitVec.ofNat 31 f.block.length)) ++ f.block))
  | .compressionInternal => s.failFrame f .compression
  | .decompressionError => s.failFrame f .compression
  | .badCommand => s.failFrame f .compression

/-- DECOMPRESS_BLOCK has ended (R241, R244; log 19). DESIGN CHOICE: the host takes STATUS.CODE, OUT_LEN and the decoded
bytes in the one turn after its WAIT, as they then stand (70_reset_and_hazards.md R298; log 37). -/
def collectDecompress (f : FrameRun) (s : State) : State :=
  match s.eng.code with
  | .ok =>
    let block := s.mem.readRange (s.par.hostWindow.toNat + (blockHistory f).length) (s.regValue .outLen).toNat
    let g := { f with out := f.out ++ block, prev := some block }
    if f.opts.raw then s.decodeDone g else s.setFrame { g with phase := .readBlock }
  | .incompressible => s.failFrame f .decompression
  | .compressionInternal => s.failFrame f .decompression
  | .decompressionError => s.failFrame f .decompression
  | .badCommand => s.failFrame f .decompression

/-- The host's work in a phase that reads no container word. -/
def frameWork (f : FrameRun) (s : State) : Out :=
  match f.phase with
  | .emitHeader => .next (s.setFrame { f with phase := .nextBlock, out := f.out ++ emittedHeader s.par (f.opts.codeOf s.par) })
  | .nextBlock => .next (nextBlock f s)
  | .awaitCompress => .next (collectCompress f s)
  | .awaitDecompress => .next (collectDecompress f s)
  | .readHeader => .refused .outOfPosition
  | .readBlock => .refused .outOfPosition
  | .readFooter => .refused .outOfPosition
  | .ended _ => .next s

end Sys2Proof.Machine
end

