-- ==== Sys2Proof/Machine/Decoder.lean ====
section
/-! DEFINITION. The decode datapath of DECOMPRESS_BLOCK (44_block_decoder.md R211) as one function of the
payload, the history and the capacity (R213). -/

namespace Sys2Proof.Machine

/-- The match copy (R209): one byte at a time in increasing order, so a byte may be one the same copy
wrote. `win` is `W[0, op)`. -/
def copyMatch (win : List Byte) (off : Nat) : Nat → List Byte
  | 0 => win
  | len + 1 => copyMatch (win ++ [win.getD (win.length - off) 0]) off len

/-- How the datapath ends (R213): OK with the window bytes `W[0, op)`, or the failing detail and ERR_POS. -/
inductive DecResult where
  | ok (win : List Byte)
  | fail (detail : Detail) (pos : Nat)
  deriving DecidableEq, Repr

/-- What one pass of R211's loop does. -/
inductive SeqResult where
  | ended (r : DecResult)
  | more (rest win : List Byte)
  deriving DecidableEq, Repr

/-- The second half of a sequence (R205 to R209): `rest` is the payload left after the literals and is
not empty, `n` the payload length, `p` the length of the history. -/
def decodeMatch (n p cap : Nat) (mn : BitVec 4) (rest win : List Byte) : SeqResult :=
  match rest with
  | lo :: hi :: r =>
    let off := le16 lo hi
    if off = 0 ∨ win.length < off then .ended (.fail .badOffset (n - r.length))
    else
      match readMatchLen mn r with
      | none => .ended (.fail .truncatedRun n)
      | some (mlen, r') =>
        if cap < win.length - p + mlen then .ended (.fail .oversize (n - r'.length))
        else .more r' (copyMatch win off mlen)
  | _ => .ended (.fail .truncatedOffset (n - rest.length))

/-- One pass of the loop of R211 on the payload bytes left. -/
def decodeSeq (n p cap : Nat) (rest win : List Byte) : SeqResult :=
  match rest with
  | [] => .ended (.fail .truncatedToken n)
  | t :: r =>
    match readLitLen (tokenLn t) r with
    | none => .ended (.fail .truncatedRun n)
    | some (lit, r') =>
      if r'.length < lit then .ended (.fail .truncatedLiterals (n - r'.length))
      else if cap < win.length - p + lit then .ended (.fail .oversize (n - r'.length))
      else
        let win' := win ++ r'.take lit
        if r'.length = lit then
          if tokenMn t = 0 then .ended (.ok win') else .ended (.fail .badLastToken n)
        else decodeMatch n p cap (tokenMn t) (r'.drop lit) win'

/-- The loop of R211. Every sequence reads at least one byte (R210), so a payload of `n` bytes ends
within `n + 1` passes. -/
def decodeLoop (n p cap : Nat) : Nat → List Byte → List Byte → DecResult
  | 0, _, _ => .fail .truncatedToken n
  | fuel + 1, rest, win =>
    match decodeSeq n p cap rest win with
    | .ended r => r
    | .more rest' win' => decodeLoop n p cap fuel rest' win'

/-- `decodeBlock` (R211): `payload` is IN[0, n), `hist` is W[0, P). -/
def decodeBlock (payload hist : List Byte) (cap : Nat) : DecResult :=
  decodeLoop payload.length hist.length cap (payload.length + 1) payload hist

end Sys2Proof.Machine
end

