-- ==== Sys2Proof/Machine/Parser.lean ====
section
/-! DEFINITION. The parse stage of COMPRESS_BLOCK (42_optimal_parser.md): the least-cost parse over the
candidate lists, with the tie-break of R165. Candidate lists are in ascending order of length
(41_match_finder.md R150). -/

namespace Sys2Proof.Machine

/-- The cost of one sequence of a parse (R162). -/
def Cmd.cost : Cmd → Nat
  | .seq r _ k => 1 + r + extraRunBytes r + 2 + extraRunBytes (k - 4)
  | .last r => 1 + r + extraRunBytes r

/-- The cost of a parse (R163). -/
def parseCost (cmds : List Cmd) : Nat := (cmds.map Cmd.cost).sum

/-- Weigh one candidate of a match site `r` literals ahead (R164): `after` is the entries of the
positions after the site. It is taken if it costs less, or the same as the literal-only tail
(R165 (1)). A match that would run past the block is no option (R161 (b)). -/
def consider (r : Nat) (after : List Entry) (best : Entry) (c : Cand) : Entry :=
  match after[c.len - 1]? with
  | none => best
  | some e =>
    let cost := Cmd.cost (.seq r c.off c.len) + e.cost
    if cost < best.cost ∨ (cost = best.cost ∧ best.choice = .tail) then
      ⟨cost, .seq r c.off c.len⟩
    else best

/-- Weigh every match site from `r` literals ahead on (R164): sites in ascending order, candidates by
descending length. -/
def bestOf : Nat → List (List Cand) → List Entry → Entry → Entry
  | _, [], _, best => best
  | r, c :: cs, after, best => bestOf (r + 1) cs after.tail (c.reverse.foldl (consider r after) best)

/-- S and CHOICE for every position from the current one to L (R164). -/
def parseTable : List (List Cand) → List Entry
  | [] => [⟨Cmd.cost (.last 0), .tail⟩]
  | c :: cs =>
    let after := parseTable cs
    bestOf 0 (c :: cs) after ⟨Cmd.cost (.last (cs.length + 1)), .tail⟩ :: after

/-- Follow the choices (R166): the table starts at the current position. -/
def followChoices : Nat → List Entry → List Cmd
  | 0, _ => []
  | _ + 1, [] => []
  | fuel + 1, e :: es =>
    match e.choice with
    | .tail => [.last es.length]
    | .seq r o k => .seq r o k :: followChoices fuel ((e :: es).drop (r + k))

/-- `parse(C, L)` (R166). -/
def parse (cands : List (List Cand)) : List Cmd :=
  followChoices (cands.length + 1) (parseTable cands)

/-- The parse a compress command runs: the parameter's for this block, the least-cost one where it gives none
(R169; 93_implementation_defined.md section 4; log 15). -/
def parseBy (par : Params) (cands : List (List Cand)) : List Cmd :=
  (par.parses.lookup cands).getD (parse cands)

/-- `tokens(CMDS)` (R167). -/
def tokenCount (cmds : List Cmd) : Nat := cmds.length

/-- The stream is an admissible parse of the block from position `i` on (R161): every match is a candidate of
its site, and the last literals reach the end of the block. -/
def admits : List (List Cand) → List Cmd → Bool
  | cands, [.last r] => r == cands.length
  | cands, .seq r o k :: cmds =>
    (cands.getD r []).contains ⟨o, k⟩ && r + k ≤ cands.length && admits (cands.drop (r + k)) cmds
  | _, _ => false

/-- An admissible parse (R161). -/
abbrev Admissible (cands : List (List Cand)) (cmds : List Cmd) : Prop := admits cands cmds = true

end Sys2Proof.Machine
end

