-- ==== Sys2Proof/Machine/Encoder.lean ====
section
/-! DEFINITION. The emit stage of COMPRESS_BLOCK (43_block_encoder.md). The encoder emits instructions of
the payload's instruction set, and a payload is their encoding (`assemble`). -/

namespace Sys2Proof.Machine

/-- `emitRun` (30_encoding.md R83): `m // 255` bytes of 0xFF, then `m mod 255`. -/
def emitRun (m : Nat) : List Instr :=
  List.replicate (m / 255) .runFf ++ [.runEnd (BitVec.ofNat 8 (m % 255))]

/-- The run of a field of value `v`, present iff its nibble is 15 (R182, R185). -/
def emitRunOf (v : Nat) : List Instr := if 15 ≤ v then emitRun (v - 15) else []

/-- The elements of `SEQ(r, o, k)` with its literal bytes (R181 to R185). -/
def emitSeq (r o k : Nat) (lits : List Byte) : List Instr :=
  [.seq (nibble r) (nibble (k - 4))] ++ emitRunOf r ++
    [.literals lits, .offset16 (BitVec.ofNat 8 (o % 256)) (BitVec.ofNat 8 (o / 256))] ++ emitRunOf (k - 4)

/-- The elements of `LAST(r)` with its literal bytes (R181 to R183, R186). -/
def emitLast (r : Nat) (lits : List Byte) : List Instr :=
  [.last (nibble r)] ++ emitRunOf r ++ [.literals lits]

/-- The elements of one sequence, given the block bytes from its first literal on. -/
def emitCmd (c : Cmd) (blk : List Byte) : List Instr :=
  match c with
  | .seq r o k => emitSeq r o k (blk.take r)
  | .last r => emitLast r (blk.take r)

/-- The pseudo-form `MATCH o, k` (30_encoding.md R99): a sequence with no literals. -/
def emitMatch (o k : Nat) : List Instr := emitSeq 0 o k []

/-- The pseudo-form `END` (30_encoding.md R99): the empty last sequence. -/
def emitEnd : List Instr := emitLast 0 []

/-- How far a sequence moves `ip` (R183, R185). -/
def Cmd.span : Cmd → Nat
  | .seq r _ k => r + k
  | .last r => r

/-- The elements of a command stream, given the block bytes (R190). -/
def emitCmds : List Cmd → List Byte → List Instr
  | [], _ => []
  | c :: cs, blk => emitCmd c blk ++ emitCmds cs (blk.drop c.span)

/-- `check(CMDS, P, L)` (R188) from block position `i` on. -/
def checkCmds (par : Params) (p l : Nat) : Nat → List Cmd → Bool
  | i, [.last r] => i + r == l
  | i, .seq r o k :: cs =>
    par.minMatch ≤ k && 1 ≤ o && o ≤ par.maxOffset && o ≤ p + (i + r) &&
      i + r + k + par.lastLiterals ≤ l && checkCmds par p l (i + r + k) cs
  | _, _ => false

/-- What the stage returns (R187, R188, R190). -/
inductive EncResult where
  | internal
  | incompressible
  | payload (bytes : List Byte)
  deriving DecidableEq, Repr

/-- The incompressibility rule (R187). -/
def encResult (l : Nat) (payload : List Byte) : EncResult :=
  if l < payload.length then .incompressible else .payload payload

/-- `encode(Wd, P, L, CMDS)` (R190) on the block bytes `Wd[P, P+L)`. -/
def encodeBlock (par : Params) (p : Nat) (blk : List Byte) (cmds : List Cmd) : EncResult :=
  if checkCmds par p blk.length 0 cmds then encResult blk.length (assemble (emitCmds cmds blk))
  else .internal

end Sys2Proof.Machine
end

