-- ==== Sys2Proof/Machine/MatchFinder.lean ====
section
/-! DEFINITION. The match-finder pipeline of COMPRESS_BLOCK (41_match_finder.md): the suffix array and
the walks over it (R140 to R146), the length, tail, Pareto and order rules (R147 to R150), and the
closed form of the candidate lists (R151), which `exec` uses. A suffix of the window is a list of bytes. -/

namespace Sys2Proof.Machine

/-! ## Suffix array and LCP -/

/-- Lexicographic order on byte strings, a proper initial part before every extension of it (R140). -/
def lexLt : List Byte → List Byte → Bool
  | [], [] => false
  | [], _ :: _ => true
  | _ :: _, [] => false
  | a :: as, b :: bs => a.toNat < b.toNat || (a == b && lexLt as bs)

/-- `lcp` of two suffixes (R141). -/
def lcp : List Byte → List Byte → Nat
  | a :: as, b :: bs => if a = b then lcp as bs + 1 else 0
  | _, _ => 0

/-- Insert a position into an ordered list of positions, by its suffix. -/
def insertSuffix (wd : List Byte) (i : Nat) : List Nat → List Nat
  | [] => [i]
  | j :: js => if lexLt (wd.drop i) (wd.drop j) then i :: j :: js else j :: insertSuffix wd i js

/-- The suffix array (R140). The construction is external to the spec: this one orders the positions by
insertion. -/
def suffixArray (wd : List Byte) : List Nat :=
  (List.range wd.length).foldr (insertSuffix wd) []

/-- `LCP[0..N]` with its sentinels (R142), which are one and the same for an empty window. -/
def lcpArray (wd : List Byte) (sa : List Nat) : List Nat :=
  if sa = [] then [0] else 0 :: (sa.zip sa.tail).map (fun (i, j) => lcp (wd.drop i) (wd.drop j)) ++ [0]

/-- `RANK`, the inverse of SA (R143). -/
def rankArray (sa : List Nat) : List Nat := (List.range sa.length).map fun p => sa.idxOf p

/-! ## Neighbourhood walk -/

/-- One walk from position `p` (R144, R145) over the neighbours in the order it meets them: each with
the LCP entry between it and the one before. `cur` is none for infinity. -/
def walkFrom (par : Params) (p : Nat) : Option Nat → List (Nat × Nat) → List Cand
  | _, [] => []
  | cur, (l, q) :: rest =>
    let c := match cur with
      | none => l
      | some x => min x l
    if c < par.minMatch then []
    else if p < q then walkFrom par p (some c) rest
    else if par.maxOffset < p - q then walkFrom par p (some c) rest
    else ⟨p - q, c⟩ :: walkFrom par p (some c) rest

/-- The upward walk from position `p` (R144): towards smaller ranks. -/
def upward (par : Params) (sa lcps rank : List Nat) (p : Nat) : List Cand :=
  let s := rank.getD p 0
  walkFrom par p none ((lcps.tail.zip sa).take s).reverse

/-- The downward walk from position `p` (R145): towards larger ranks. -/
def downward (par : Params) (sa lcps rank : List Nat) (p : Nat) : List Cand :=
  let s := rank.getD p 0
  walkFrom par p none ((lcps.zip sa).drop (s + 1))

/-! ## Length, tail rule, Pareto filter, cap -/

/-- The length an entry gets (R147, R148), where `left` is `P + L - p`, the bytes the block has from the
site on. A bound below zero leaves a length of 0, which is below MIN_MATCH and is dropped. -/
def cutLen (par : Params) (left lc : Nat) : Nat :=
  min (min (min (min lc par.matchLenCap) left) par.maxLenDr) (left - par.lastLiterals)

/-- Cut every entry and drop those left too short (R147, R148). -/
def cutEntries (par : Params) (left : Nat) (raw : List Cand) : List Cand :=
  (raw.map fun e => ⟨e.off, cutLen par left e.len⟩).filter fun e => par.minMatch ≤ e.len

/-- The Pareto filter over entries in ascending offset order (R149). -/
def pareto : Nat → List Cand → List Cand
  | _, [] => []
  | best, e :: es => if best < e.len then e :: pareto e.len es else pareto best es

/-- The cap (R150): the longest `NCAND` entries, which are the last. -/
def capList (n : Option Nat) (es : List Cand) : List Cand :=
  match n with
  | none => es
  | some k => es.drop (es.length - k)

/-- Rules R147 to R150 on a raw list in ascending offset order. -/
def candidatesOf (par : Params) (left : Nat) (raw : List Cand) : List Cand :=
  capList par.nCand (pareto 0 (cutEntries par left raw))

/-! ## The stage in closed form -/

/-- The raw list of a site in closed form (R151), in ascending offset order: `cur` is the suffix at the
site, `earlier` the suffixes at the earlier positions, the nearest first, the first of them at
offset `o`. -/
def rawClosed (par : Params) (cur : List Byte) : Nat → List (List Byte) → List Cand
  | _, [] => []
  | o, t :: ts =>
    if par.maxOffset < o then []
    else if par.minMatch ≤ lcp t cur then ⟨o, lcp t cur⟩ :: rawClosed par cur (o + 1) ts
    else rawClosed par cur (o + 1) ts

/-- The lists of all positions from the current one on: `skip` positions still belong to the history
before the block and have no list (R146), `earlier` is the suffixes passed, the nearest first. -/
def candLists (par : Params) : Nat → List (List Byte) → List Byte → List (List Cand)
  | _, _, [] => []
  | 0, earlier, b :: bs =>
    candidatesOf par (bs.length + 1) (rawClosed par (b :: bs) 1 earlier)
      :: candLists par 0 ((b :: bs) :: earlier) bs
  | skip + 1, earlier, b :: bs => candLists par skip ((b :: bs) :: earlier) bs

/-- `matchCandidates(Wd, P, L)` (R154) in the closed form of R151 (log 14): `C[0..L)`. -/
def matchCandidates (par : Params) (wd : List Byte) (p : Nat) : List (List Cand) :=
  candLists par p [] wd

/-! ## The stage over the suffix array -/

/-- Insert an entry by its offset. -/
def insertByOffset (e : Cand) : List Cand → List Cand
  | [] => [e]
  | x :: xs => if e.off < x.off then e :: x :: xs else x :: insertByOffset e xs

/-- Entries in ascending offset order (R149). -/
def sortByOffset (es : List Cand) : List Cand := es.foldr insertByOffset []

/-- `matchCandidates(Wd, P, L)` as R154 writes it, by walks over the suffix array. -/
def matchCandidatesByWalk (par : Params) (wd : List Byte) (p : Nat) : List (List Cand) :=
  let sa := suffixArray wd
  let lcps := lcpArray wd sa
  let rank := rankArray sa
  (List.range (wd.length - p)).map fun i =>
    candidatesOf par (wd.length - (p + i))
      (sortByOffset (upward par sa lcps rank (p + i) ++ downward par sa lcps rank (p + i)))

end Sys2Proof.Machine
end

