-- ==== Sys2Proof/Machine/Command.lean ====
section
/-! DEFINITION. The three host commands (40_commands.md R121 to R123): what the engine does when it runs
one, as one step (R129), or cut into the stages of a compress command and the elements of a
decompress command (log 6). -/

namespace Sys2Proof.Machine

/-! ## COMPRESS_BLOCK -/

/-- How a compress command ends, given what the emit stage returned (40_commands.md R121): the memory
of 20_memory.md R62, then the completion step. TOKENS was written before the encoder ran. -/
def finishCompress (ld : Desc) (tokens : Nat) (res : EncResult) (s : State) : State :=
  match res with
  | .internal =>
    (s.scramble ld.compressOut).raise .compressionInternal .none 0 (some (BitVec.ofNat 32 tokens))
  | .incompressible =>
    (s.scramble ld.compressOut).raise .incompressible .none 0 (some (BitVec.ofNat 32 tokens))
  | .payload bytes => (s.write ld.out bytes).finish bytes.length tokens

/-- The three stages on a window as one function (40_commands.md R121): TOKENS and the result. -/
def compressWindow (par : Params) (ld : Desc) (wd : List Byte) : Nat × EncResult :=
  let cmds := parseBy par (matchCandidates par wd ld.P)
  (tokenCount cmds, encodeBlock par ld.P (wd.drop ld.P) cmds)

/-- The hidden state the match-finder leaves (10_state.md R42). -/
def matchScratch (par : Params) (wd : List Byte) (p : Nat) : MatchScratch where
  sa := suffixArray wd
  lcp := lcpArray wd (suffixArray wd)
  rank := rankArray (suffixArray wd)
  cands := matchCandidates par wd p

/-- Set the stage of the running command. -/
def State.setStage (s : State) (ld : Desc) (st : Stage) : State :=
  s.setEng { s.eng with phase := .busy ld st }

/-- The checks and the window read every compress command begins with (40_commands.md R121, R124;
93_implementation_defined.md section 3), then `k` with the window. -/
def withWindow (ld : Desc) (s : State) (k : List Byte → State) : Out :=
  match checkCompress s.par ld with
  | some d => .next (s.badCommand d)
  | none =>
    match bufferRefusal s.par ld.compressWindow ld.compressOut with
    | some r => .refused r
    | none => .next (k (s.mem.readRange ld.win (ld.P + ld.L)))

/-- The engine's run of COMPRESS_BLOCK (40_commands.md R121): whole, or its match-finder stage only. -/
def runCompress (ld : Desc) (s : State) : Out :=
  withWindow ld s fun wd =>
    match s.par.grain with
    | .command => let r := compressWindow s.par ld wd; finishCompress ld r.1 r.2 s
    | .element => s.setStage ld (.found (matchScratch s.par wd ld.P))

/-- COMPRESS_BLOCK (40_commands.md R121). -/
def execCompressBlock (ignored : BitVec 28) (s : State) : Out :=
  runCommand (ignored ++ 1#4) runCompress s

/-- The parse stage (42_optimal_parser.md R166), after the match-finder. TOKENS is written
(40_commands.md R121). -/
def stageParse (ld : Desc) (m : MatchScratch) (s : State) : State :=
  let cmds := parseBy s.par m.cands
  (s.setEng { s.eng with tokens := BitVec.ofNat 32 (tokenCount cmds) }).setStage ld
    (.parsed ⟨parseTable m.cands, cmds⟩)

/-- The check before anything is emitted (43_block_encoder.md R188), after the parse stage. -/
def stageCheck (ld : Desc) (p : ParseScratch) (s : State) : State :=
  if checkCmds s.par ld.P ld.L 0 p.cmds then s.setStage ld (.emitting ⟨p.cmds, ld.P, []⟩)
  else finishCompress ld (tokenCount p.cmds) .internal s

/-- One sequence of the emit stage (43_block_encoder.md R190), or the command's end when none is left.
TOKENS holds what the parse stage wrote. -/
def stageEmit (ld : Desc) (e : EmitScratch) (s : State) : State :=
  match e.todo with
  | [] => finishCompress ld s.eng.tokens.toNat (encResult ld.L e.payload) s
  | c :: cs =>
    s.setStage ld (.emitting ⟨cs, e.ip + c.span,
      e.payload ++ assemble (emitCmd c (s.mem.readRange (ld.win + e.ip) (ld.P + ld.L - e.ip)))⟩)

/-! ## DECOMPRESS_BLOCK -/

/-- How a decompress command ends OK (44_block_decoder.md R204): `win` is W[0, op). The decoded bytes are
stored and the rest of the capacity is unspecified (20_memory.md R62; log 8). -/
def finishDecode (ld : Desc) (win : List Byte) (s : State) : State :=
  let decoded := win.drop ld.P
  (((s.write (ld.win + ld.P) decoded).scramble
      ⟨ld.win + ld.P + decoded.length, ld.cap - decoded.length⟩)).finish decoded.length 0

/-- `fail(detail)` with `ip` at the failing check (44_block_decoder.md R200, R212): the window past the
history is unspecified (20_memory.md R62). TOKENS is 0 (10_state.md R33; log 9). -/
def failDecode (ld : Desc) (detail : Detail) (ip : Nat) (s : State) : State :=
  (s.scramble ld.decompressOut).raise .decompressionError detail ip (some 0)

/-- End a decompress command with the datapath's result. -/
def endDecode (ld : Desc) (r : DecResult) (s : State) : State :=
  match r with
  | .ok win => finishDecode ld win s
  | .fail d pos => failDecode ld d pos s

/-- The checks every decompress command begins with (40_commands.md R122, R125), then `k` with the
payload and the history. -/
def withPayload (ld : Desc) (s : State) (k : List Byte → List Byte → State) : Out :=
  match checkDecompress s.par ld with
  | some d => .next (s.badCommand d)
  | none =>
    match bufferRefusal s.par ld.payload ld.decompressWindow with
    | some r => .refused r
    | none => .next (k (s.mem.readRange ld.inp ld.n) (s.mem.readRange ld.win ld.P))

/-- The engine's run of DECOMPRESS_BLOCK (40_commands.md R122): whole, or up to the first element. -/
def runDecompress (ld : Desc) (s : State) : Out :=
  withPayload ld s fun payload hist =>
    match s.par.grain with
    | .command => endDecode ld (decodeBlock payload hist ld.cap) s
    | .element => s.setStage ld (.decoding ⟨0, .token, hist⟩)

/-- DECOMPRESS_BLOCK (40_commands.md R122). -/
def execDecompressBlock (ignored : BitVec 28) (s : State) : Out :=
  runCommand (ignored ++ 2#4) runDecompress s

/-! ## RESERVED_CMD -/

/-- RESERVED_CMD (40_commands.md R123): the command ends BAD_COMMAND / RESERVED_OP and reads and writes
no memory. -/
def execReservedCmd (op : BitVec 4) (ignored : BitVec 28) (s : State) : Out :=
  runCommand (ignored ++ op) (fun _ t => .next (t.badCommand .reservedOp)) s

end Sys2Proof.Machine
end

