-- ==== Sys2Proof/Machine/Payload.lean ====
section
/-! DEFINITION. The elements of a payload as the decode datapath reads them (44_block_decoder.md R201 to
R209): SEQ, LAST, RUN_FF, RUN_END, LITERALS, OFFSET16. Each meaning needs the datapath to be at a place
where such an element stands. -/

namespace Sys2Proof.Machine

/-- Run `k` on the decode datapath of the running command. -/
def withDecoder (s : State) (k : Desc → DecScratch → Out) : Out :=
  match s.eng.phase with
  | .busy ld (.decoding d) => k ld d
  | _ => .refused .outOfPosition

/-- Advance the datapath. -/
def State.setDec (s : State) (ld : Desc) (d : DecScratch) : State := s.setStage ld (.decoding d)

/-- The place after a token (44_block_decoder.md R201 to R203): a literal run iff LN = 15. -/
def afterToken (ln mn : BitVec 4) : DecPos := if ln = 15 then .litRun mn 0 else .literals mn ln.toNat

/-- Read a token (44_block_decoder.md R201). -/
def readToken (ln mn : BitVec 4) (s : State) : Out :=
  withDecoder s fun ld d =>
    match d.at_ with
    | .token => .next (s.setDec ld ⟨d.ip + 1, afterToken ln mn, d.win⟩)
    | _ => .refused .outOfPosition

/-- SEQ (44_block_decoder.md R201, R210). -/
def execSeq (ln mn : BitVec 4) (s : State) : Out := readToken ln mn s

/-- LAST (44_block_decoder.md R201, R204): its match nibble is 0. -/
def execLast (ln : BitVec 4) (s : State) : Out := readToken ln 0 s

/-- RUN_FF (44_block_decoder.md R202): adds 255 and the run goes on. -/
def execRunFf (s : State) : Out :=
  withDecoder s fun ld d =>
    match d.at_ with
    | .litRun mn sum => .next (s.setDec ld ⟨d.ip + 1, .litRun mn (sum + 255), d.win⟩)
    | .matchRun off sum => .next (s.setDec ld ⟨d.ip + 1, .matchRun off (sum + 255), d.win⟩)
    | _ => .refused .outOfPosition

/-- The match once its length is known, `ip` just past the sequence (44_block_decoder.md R207, R209):
the capacity check, then the copy. -/
def matchOrFail (ld : Desc) (ip off mlen : Nat) (win : List Byte) (s : State) : State :=
  if ld.cap < win.length - ld.P + mlen then failDecode ld .oversize ip s
  else s.setDec ld ⟨ip, .token, copyMatch win off mlen⟩

/-- RUN_END (44_block_decoder.md R202, R203, R207): adds `e` and ends the run. -/
def execRunEnd (e : Byte) (s : State) : Out :=
  withDecoder s fun ld d =>
    match d.at_ with
    | .litRun mn sum => .next (s.setDec ld ⟨d.ip + 1, .literals mn (15 + (sum + e.toNat)), d.win⟩)
    | .matchRun off sum => .next (matchOrFail ld (d.ip + 1) off (19 + (sum + e.toNat)) d.win s)
    | _ => .refused .outOfPosition

/-- After the literals, `ip` just past them (44_block_decoder.md R204): at the payload's end the command
ends, else an offset follows. -/
def afterLiterals (ld : Desc) (ip : Nat) (mn : BitVec 4) (win : List Byte) (s : State) : State :=
  if ip = ld.n then
    if mn = 0 then finishDecode ld win s else failDecode ld .badLastToken ip s
  else s.setDec ld ⟨ip, .offset mn, win⟩

/-- LITERALS (44_block_decoder.md R203, R204): the capacity check, then the copy. -/
def execLiterals (bytes : List Byte) (s : State) : Out :=
  withDecoder s fun ld d =>
    match d.at_ with
    | .literals mn lit =>
      if bytes.length = lit then
        if ld.cap < d.win.length - ld.P + lit then .next (failDecode ld .oversize d.ip s)
        else .next (afterLiterals ld (d.ip + lit) mn (d.win ++ bytes) s)
      else .refused .outOfPosition
    | _ => .refused .outOfPosition

/-- After an offset that passed its check (44_block_decoder.md R207): a match run iff MN = 15. -/
def afterOffset (ld : Desc) (ip off : Nat) (mn : BitVec 4) (win : List Byte) (s : State) : State :=
  if mn = 15 then s.setDec ld ⟨ip, .matchRun off 0, win⟩
  else matchOrFail ld ip off (mn.toNat + 4) win s

/-- OFFSET16 (44_block_decoder.md R205, R206). -/
def execOffset16 (lo hi : Byte) (s : State) : Out :=
  withDecoder s fun ld d =>
    match d.at_ with
    | .offset mn =>
      if le16 lo hi = 0 ∨ d.op < le16 lo hi then .next (failDecode ld .badOffset (d.ip + 2) s)
      else .next (afterOffset ld (d.ip + 2) (le16 lo hi) mn d.win s)
    | _ => .refused .outOfPosition

/-- What the datapath does where the payload ends inside an element (44_block_decoder.md R201 to R203,
R205): the error's name by the place, ERR_POS = ip. -/
def truncated (s : State) : Out :=
  withDecoder s fun ld d =>
    match d.at_ with
    | .token => .next (failDecode ld .truncatedToken d.ip s)
    | .litRun _ _ => .next (failDecode ld .truncatedRun d.ip s)
    | .literals _ _ => .next (failDecode ld .truncatedLiterals d.ip s)
    | .offset _ => .next (failDecode ld .truncatedOffset d.ip s)
    | .matchRun _ _ => .next (failDecode ld .truncatedRun d.ip s)

end Sys2Proof.Machine
end

