-- ==== Sys2Proof/Machine/Fetch.lean ====
section
/-! DEFINITION. What the agent whose turn it is does next: the instruction it reads, with the place and
the bytes it is read from, or a piece of work that is no instruction. And how an instruction is placed
where the next step reads it. -/

namespace Sys2Proof.Machine

/-- What an agent does next. -/
inductive Next where
  /-- it reads an instruction at a place, from these bytes -/
  | unit (pos : Pos) (bytes : List Byte)
  /-- it does work that is no instruction, with this outcome -/
  | work (o : Out)

/-- What the engine does next (10_state.md R21, 44_block_decoder.md R200): the command word it accepted,
the payload bytes left, or a stage of a compress command. An IDLE engine does nothing (60_exceptions.md
R283). -/
def engineNext (s : State) : Next :=
  match s.eng.phase with
  | .idle => .work (.next s)
  | .busy ld st =>
    match st with
    | .pending w => .unit .command (wordBytes w)
    | .found m => .work (.next (stageParse ld m s))
    | .parsed p => .work (.next (stageCheck ld p s))
    | .emitting e => .work (.next (stageEmit ld e s))
    | .decoding d => .unit d.at_.pos (s.mem.readRange (ld.inp + d.ip) (ld.n - d.ip))

/-- Take the access that is made from its queue: the run's own, while a run is on. -/
def State.popAct (s : State) : State :=
  match s.host.frame with
  | some f =>
    if f.over then s.setHost { s.host with acts := s.host.acts.tail }
    else s.setFrame { f with todo := f.todo.tail }
  | none => s.setHost { s.host with acts := s.host.acts.tail }

/-- Make an access (30_encoding.md R98, 40_commands.md R126, R127). A WAIT reads STATUS and stays in the
queue until it has read DONE = 1 (log 22). -/
def perform (a : HostAct) (s : State) : Out :=
  match a with
  | .load addr n => hostLoad addr n s.popAct
  | .store addr bs => hostStore addr bs s.popAct
  | .loadBase b => hostLoadBase b s.popAct
  | .storeBase b v => hostStoreBase b v s.popAct
  | .wait => .next ((if s.eng.done then s.popAct else s).regRead .status)
  | .frame j => .next (startJob j s.popAct)

/-- What the host does next: the accesses a running frame layer has issued, the container word it reads or
its own work; else the next access of the host's program; else nothing. -/
def hostNext (s : State) : Next :=
  match s.host.frame with
  | some f =>
    if f.over then
      match s.host.acts with
      | a :: _ => .work (perform a s)
      | [] => .work (.next s)
    else
      match f.todo with
      | a :: _ => .work (perform a s)
      | [] =>
        match f.phase with
        | .readHeader => .unit .frameHeader f.src
        | .readBlock => .unit .blockHeader f.src
        | .readFooter => .unit .rawFooter (f.src.drop (f.src.length - 2))
        | _ => .work (frameWork f s)
  | none =>
    match s.host.acts with
    | a :: _ => .work (perform a s)
    | [] => .work (.next s)

/-- What an agent does next. -/
def agentNext (a : Agent) (s : State) : Next :=
  match a with
  | .engine => engineNext s
  | .host => hostNext s

/-- What the machine does where the bytes at a place are no instruction: the datapath's truncation errors
(44_block_decoder.md R212), or the host's errors (45_frame_container.md R239, R240, R245). -/
def rejectUnit (r : Reject) (s : State) : Out :=
  match r with
  | .truncatedToken => truncated s
  | .truncatedRun => truncated s
  | .truncatedOffset => truncated s
  | .truncatedLiterals => truncated s
  | .shortBlockHeader => badContainer r s
  | .shortFrameHeader => badContainer r s
  | .badMagic => badContainer r s
  | .badFlags => badContainer r s
  | .badDescriptor => badContainer r s
  | .shortFooter => badContainer r s
  | .badFooter => badContainer r s
  | .shortCommand => .refused .outOfPosition

/-- The agent whose turn it is where no input says so: a BUSY engine, else the host
(70_reset_and_hazards.md R300; log 5). -/
def State.defaultAgent (s : State) : Agent := if s.busy then .engine else .host

/-! ## Placing an instruction -/

/-- The datapath place at which an element of a payload is read on its own. -/
def placeDec : Pos → DecPos
  | .token => .token
  | .run => .litRun 0 0
  | .offset => .offset 0
  | .literals n => .literals 0 n
  | _ => .token

/-- Put payload bytes where the decode datapath reads next: in memory at IN_BASE, with a decompress
command running that has no history. -/
def State.placePayload (s : State) (pos : Pos) (bytes : List Byte) : State :=
  let ld := { latch s.eng with prefixLen := 0, inLen := BitVec.ofNat 32 bytes.length }
  ((s.write ld.inp bytes).setEng
    { s.eng with
      phase := .busy ld (.decoding ⟨0, placeDec pos, []⟩)
      cmdOp := 2
      done := false
      code := .ok
      detail := .none }).setInputs [.turn .engine]

/-- Put container bytes where the host reads next: a decompress run of the frame layer. -/
def State.placeStream (s : State) (phase : FramePhase) (bytes : List Byte) : State :=
  (s.setFrame
    { phase := phase, opts := { decompress := true }, src := bytes, input := bytes,
      blockMax := s.par.blockMax.of s.par.blockCodeDefault }).setInputs [.turn .host]

/-- Put the bytes of an instruction where the next step reads it (log 20). -/
def State.place (s : State) (pos : Pos) (bytes : List Byte) : State :=
  match pos with
  | .command =>
    ((s.setEng { s.eng with phase := .idle }).startCommand (wordOf bytes)).setInputs [.turn .engine]
  | .token => s.placePayload pos bytes
  | .run => s.placePayload pos bytes
  | .offset => s.placePayload pos bytes
  | .literals _ => s.placePayload pos bytes
  | .blockHeader => s.placeStream .readBlock bytes
  | .frameHeader => s.placeStream .readHeader bytes
  | .rawFooter => s.placeStream .readFooter bytes

end Sys2Proof.Machine
end

