-- ==== Sys2Proof/Machine/Dispatch.lean ====
section
/-! DEFINITION. One arm per row of the opcode table. -/

namespace Sys2Proof.Machine

def exec (i : Instr) (s : State) : Host.Outcome State Fault Refusal :=
  match i with
  | .compressBlock ignored => Sys2Proof.Machine.execCompressBlock ignored s
  | .decompressBlock ignored => Sys2Proof.Machine.execDecompressBlock ignored s
  | .reservedCmd op ignored => Sys2Proof.Machine.execReservedCmd op ignored s
  | .seq ln mn => Sys2Proof.Machine.execSeq ln mn s
  | .last ln => Sys2Proof.Machine.execLast ln s
  | .runFf => Sys2Proof.Machine.execRunFf s
  | .runEnd e => Sys2Proof.Machine.execRunEnd e s
  | .offset16 lo hi => Sys2Proof.Machine.execOffset16 lo hi s
  | .literals bytes => Sys2Proof.Machine.execLiterals bytes s
  | .blkCompressed size => Sys2Proof.Machine.execBlkCompressed size s
  | .blkUncompressed size => Sys2Proof.Machine.execBlkUncompressed size s
  | .blkEndmark => Sys2Proof.Machine.execBlkEndmark s
  | .frameHeader bd hc => Sys2Proof.Machine.execFrameHeader bd hc s
  | .rawFooter => Sys2Proof.Machine.execRawFooter s

end Sys2Proof.Machine
end

