-- ==== Sys2Proof/Machine/Step.lean ====
section
/-! DEFINITION. One step of the machine. -/

namespace Sys2Proof.Machine

/-- Run what an agent does next: the instruction read, the error where none stands there, or the work. -/
def runNext (n : Next) (s : State) : Host.Outcome State Fault Refusal :=
  match n with
  | .work o => o
  | .unit pos bytes =>
    match decode pos bytes with
    | .ok (i, _) => exec i s
    | .error r => rejectUnit r s

/-- One turn of an agent. -/
def agentStep (a : Agent) (s : State) : Host.Outcome State Fault Refusal := runNext (agentNext a s) s

/-- One step: the next input, or, when there is none, the turn of the agent that moves by default. -/
def step (s : State) : Host.Outcome State Fault Refusal :=
  match s.inputs with
  | .reset :: es => .next (s.setInputs es).applyReset
  | .turn a :: es => agentStep a (s.setInputs es)
  | [] => agentStep s.defaultAgent s

/-- `s` with the instruction of a word of the opcode table where the next step reads it. -/
def State.withFetchWord (s : State) (nbits w : Nat) : State :=
  s.place (tablePos nbits w) (tableBytes nbits w)

end Sys2Proof.Machine
end

