-- ==== Sys2Proof/Safety.lean ====
section
/-! DEFINITION. What counts as a legal state and a safe run, and the words the statements are written in. -/

namespace Sys2Proof

/-- The parameter values the spec allows: the values the source fixes, the register file inside memory, the
hashes of 45_frame_container.md R232, parses that 42_optimal_parser.md R161 admits (R169), and any value of the
other OPEN ones. `LAST_LITERALS` is left free because the spec's vectors also use 0 (log 32). -/
abbrev Params.Legal (p : Params) : Prop :=
  p.minMatch = 4 ∧ p.maxOffset = 65535 ∧ p.matchLenCap = 65535 ∧ p.lastLiterals ≤ 255 ∧
  p.blockMax = {} ∧ p.blockCodeDefault = .c7 ∧ p.blockLenLimit = 4194304 ∧ p.prefixLimit = 65536 ∧ p.dictLimit = 65535 ∧ p.rawLimit = 65535 ∧
  p.ifaceBase % 4 = 0 ∧ p.ifaceBase + 256 ≤ 2 ^ p.addrW ∧
  (∀ e ∈ Config.knownHashes, p.xxh32.lookup e.1 = some e.2) ∧
  ∀ e ∈ p.parses, Machine.Admissible e.1 e.2

end Sys2Proof

namespace Sys2Proof.Machine

/-! ## The invariant -/

/-- Memory is in its canonical form and lists only addresses memory has (20_memory.md R60). -/
def State.MemOk (s : State) : Prop := s.mem.wf ∧ s.mem.inRange s.par

/-- The base addresses a descriptor holds are ADDR_W bits wide (10_state.md R22). -/
def Desc.AddrOk (p : Params) (ld : Desc) : Prop :=
  ld.winBase < memSize p ∧ ld.inBase < memSize p ∧ ld.outBase < memSize p

/-- The base registers, and the latched ones of a running command, are ADDR_W bits wide. -/
def State.AddrOk (s : State) : Prop :=
  (latch s.eng).AddrOk s.par ∧ ∀ ld st, s.eng.phase = .busy ld st → ld.AddrOk s.par

/-- STATUS and the result registers are legal together: the detail is one the code may stand with
(60_exceptions.md R271); CODE and DETAIL read 0 and DONE is 0 while BUSY (10_state.md R25); without DONE no
code stands; ERR_POS is 0 but after a DECOMPRESSION_ERROR (R34); a length of an OK ending is at most
BLOCK_LEN_LIMIT (40_commands.md R124, R125). -/
def State.StatusOk (s : State) : Prop :=
  s.eng.code.allows s.eng.detail = true ∧
  (s.busy = true → s.eng.done = false) ∧
  (s.eng.done = false → s.eng.code = .ok) ∧
  (s.busy = false → s.eng.code ≠ .decompressionError → s.eng.errPos = 0) ∧
  (s.busy = false → s.eng.code = .ok → s.eng.outLen.toNat ≤ s.par.blockLenLimit)

/-- A stage of a running command is legal: CMD shows the OP of the command that runs; a command past
its first step passed its descriptor checks; the decoder's cursors stay in the payload and in the window
(44_block_decoder.md R200). -/
def Stage.Ok (par : Params) (op : BitVec 4) (ld : Desc) : Stage → Prop
  | .pending w => op = wordOp w
  | .found _ => op = 1 ∧ checkCompress par ld = none
  | .parsed _ => op = 1 ∧ checkCompress par ld = none
  | .emitting _ => op = 1 ∧ checkCompress par ld = none
  | .decoding d =>
    op = 2 ∧ checkDecompress par ld = none ∧ d.ip ≤ ld.n ∧ ld.P ≤ d.op ∧ d.op ≤ ld.P + ld.cap

/-- The running command, if there is one, is at a legal stage. -/
def State.PhaseOk (s : State) : Prop :=
  match s.eng.phase with
  | .idle => True
  | .busy ld st => st.Ok s.par s.eng.cmdOp ld

/-- While BUSY, the host's hands are off the buffers of the running command (20_memory.md R69). -/
def State.Guarded (s : State) : Prop :=
  match s.eng.phase with
  | .idle => True
  | .busy ld _ =>
    (∀ r ∈ readSet s.par s.eng.cmdOp ld, r ∈ s.host.guardRead) ∧
    (∀ r ∈ writeSet s.par s.eng.cmdOp ld, r ∈ s.host.guardWrite)

/-- The states a machine may be in. -/
def State.Inv (s : State) : Prop := s.MemOk ∧ s.StatusOk ∧ s.PhaseOk ∧ s.Guarded ∧ s.AddrOk

/-! ## Safe runs -/

/-- `t` comes after some number of steps from `s`, none of which stopped. -/
inductive Steps : State → State → Prop where
  | refl (s : State) : Steps s s
  | tail {s t u : State} : Steps s t → step t = .next u → Steps s u

/-- Why a model may refuse a running command: the host gave it bad buffers (93_implementation_defined.md
section 3). -/
def Refusal.ofBuffers : Refusal → Bool
  | .buffersOverlap | .bufferOverRegisters | .bufferOverSideEffect | .bufferNotProvided => true
  | _ => false

/-- `k` steps, stopping at the first that stops. -/
def run : Nat → State → Out
  | 0, s => .next s
  | k + 1, s =>
    match step s with
    | .next t => run k t
    | .fault f => .fault f
    | .refused r => .refused r

/-- A run from `s` ends the running command, or is refused for the buffers the host gave it. -/
def State.EndsOrRefused (s : State) : Prop :=
  ∃ k,
    (∃ t : State, run k s = .next t ∧ t.eng.phase = .idle ∧ t.eng.done = true) ∨
    (∃ r, run k s = .refused r ∧ r.ofBuffers = true)

/-! ## Words for statements -/

/-- The command word `w` runs in the state `u` with the latched descriptor `ld`, when its instruction is
executed in `s`: either the engine is IDLE and `u` is the state the CMD write leaves (40_commands.md R120), or
the engine has accepted `w` and not yet run it. -/
def State.Runs (s : State) (w : Word) (ld : Desc) (u : State) : Prop :=
  (s.eng.phase = .idle ∧ ld = latch s.eng ∧ u = s.startCommand w) ∨
  (s.eng.phase = .busy ld (.pending w) ∧ u = s)

/-- The decode datapath reads at place `p` with cursor `ip` and window bytes `win`. -/
def State.Decodes (s : State) (ld : Desc) (ip : Nat) (p : DecPos) (win : List Byte) : Prop :=
  s.eng.phase = .busy ld (.decoding ⟨ip, p, win⟩)

/-- The host's frame-layer run is in phase `p`, with no access left to make. -/
def State.Reads (s : State) (f : FrameRun) (p : FramePhase) : Prop :=
  s.host.frame = some f ∧ f.phase = p ∧ f.todo = []

/-- Every byte of memory reads as before. -/
def SameMem (s t : State) : Prop := ∀ a, t.mem.read a = s.mem.read a

/-- Every byte of memory outside the ranges reads as before. -/
def SameMemOutside (rs : List Region) (s t : State) : Prop :=
  ∀ a, (∀ r ∈ rs, holds r a = false) → t.mem.read a = s.mem.read a

/-- Every byte of the range is an unspecified value (20_memory.md R62): the free bytes drawn from the
`k`-th on. -/
def Unspecified (t : State) (r : Region) (k : Nat) : Prop :=
  ∀ i, i < r.len → t.mem.read (r.base + i) = Config.freeByte (k + i)

/-- The six descriptor registers are as before. -/
def SameDescriptor (s t : State) : Prop := latch t.eng = latch s.eng

/-- Everything that is not the engine, memory or the draws is as before. -/
def SameOutside (s t : State) : Prop := t.par = s.par ∧ t.inputs = s.inputs ∧ t.host = s.host

/-- `s` with the decode datapath at another place, and nothing else changed. -/
def State.withDec (s : State) (ld : Desc) (ip : Nat) (p : DecPos) (win : List Byte) : State :=
  { s with eng := { s.eng with phase := .busy ld (.decoding ⟨ip, p, win⟩) } }

/-- `t` is `s` after `fail(detail)` at `ip` (44_block_decoder.md R200, R212; 40_commands.md R128; 20_memory.md
R62): OUT_LEN is left open. -/
def Failed (s : State) (ld : Desc) (detail : Detail) (ip : Nat) (t : State) : Prop :=
  t.eng =
    { s.eng with
      phase := .idle, done := true, code := .decompressionError, detail := detail,
      errPos := BitVec.ofNat 32 ip, tokens := 0, outLen := t.eng.outLen } ∧
  SameMemOutside [ld.decompressOut] s t ∧ Unspecified t ld.decompressOut s.draws ∧ SameOutside s t

/-- `t` is `s` after the decode datapath ended OK with the window bytes `win` (44_block_decoder.md R204;
40_commands.md R122, R128; 20_memory.md R62). -/
def Decoded (s : State) (ld : Desc) (win : List Byte) (t : State) : Prop :=
  t.eng =
    { s.eng with
      phase := .idle, done := true, code := .ok, detail := .none, errPos := 0, tokens := 0,
      outLen := BitVec.ofNat 32 (win.length - ld.P) } ∧
  t.mem.readRange (ld.win + ld.P) (win.length - ld.P) = win.drop ld.P ∧
  Unspecified t ⟨ld.win + win.length, ld.P + ld.cap - win.length⟩ s.draws ∧
  SameMemOutside [ld.decompressOut] s t ∧ SameOutside s t

/-- `s` with the frame-layer run replaced, and nothing else changed. -/
def State.withRun (s : State) (f : FrameRun) : State := { s with host := { s.host with frame := some f } }

/-- `s` with the frame-layer run at an end, and nothing else changed. -/
def State.runEnded (s : State) (f : FrameRun) (r : HostResult) : State :=
  s.withRun { f with phase := .ended r, todo := [] }

/-- The same machine with the engine's runs cut as `g` says (log 6). -/
def State.withGrain (s : State) (g : Grain) : State := { s with par := { s.par with grain := g } }

/-- A cut entry of the match site `p` of a window (41_match_finder.md R151, R147, R148): an earlier position in reach
with a common prefix of MIN_MATCH bytes or more, the length cut to the caps and to what leaves LAST_LITERALS bytes
of the block, and still MIN_MATCH or more. -/
def IsEntry (par : Params) (wd : List Byte) (p : Nat) (e : Cand) : Prop :=
  ∃ q, q < p ∧ p - q ≤ par.maxOffset ∧ par.minMatch ≤ lcp (wd.drop q) (wd.drop p) ∧ e.off = p - q ∧
    e.len = min (lcp (wd.drop q) (wd.drop p)) (min par.matchLenCap (min (wd.length - p)
      (min par.maxLenDr (wd.length - p - par.lastLiterals)))) ∧
    par.minMatch ≤ e.len

/-- A cut entry that the Pareto filter keeps (41_match_finder.md R149): longer than every entry with a smaller
offset. -/
def IsKept (par : Params) (wd : List Byte) (p : Nat) (e : Cand) : Prop :=
  IsEntry par wd p e ∧ ∀ x, IsEntry par wd p x → x.off < e.off → x.len < e.len

/-- The five checks of 43_block_encoder.md R188 on a command stream for a prefix of `p` and a block of `l` bytes. -/
structure ChecksPass (par : Params) (p l : Nat) (cmds : List Cmd) : Prop where
  oneLast : ∃ init r, cmds = init ++ [.last r] ∧ ∀ c ∈ init, ∃ r o k, c = .seq r o k
  lengths : ∀ r o k, .seq r o k ∈ cmds → par.minMatch ≤ k
  offsets : ∀ pre r o k post, cmds = pre ++ .seq r o k :: post →
    1 ≤ o ∧ o ≤ par.maxOffset ∧ o ≤ p + ((pre.map Cmd.span).sum + r)
  tail : ∀ pre r o k post, cmds = pre ++ .seq r o k :: post →
    (pre.map Cmd.span).sum + r + k + par.lastLiterals ≤ l
  conserved : (cmds.map Cmd.span).sum = l

/-- The next access of the host's queue is `act`, and `t` is `s` with it taken from the queue: the frame layer's
while a run is on, else the host program's (30_encoding.md R98; log 20). -/
def State.Queued (s : State) (act : HostAct) (t : State) : Prop :=
  (∃ rest, (s.host.frame = none ∨ ∃ f, s.host.frame = some f ∧ f.over = true) ∧ s.host.acts = act :: rest ∧
    t = { s with host := { s.host with acts := rest } }) ∨
  ∃ f rest, s.host.frame = some f ∧ f.over = false ∧ f.todo = act :: rest ∧ t = s.withRun { f with todo := rest }

/-- Lists of candidates as the match-finder leaves them (41_match_finder.md R152 (f)): offsets and
lengths strictly rise, and no match is empty. -/
def SortedCands (cands : List (List Cand)) : Prop :=
  ∀ c ∈ cands, c.Pairwise (fun a b => a.off < b.off ∧ a.len < b.len) ∧ ∀ e ∈ c, 1 ≤ e.len

/-- `S[i]` for the lists from position `i` on (42_optimal_parser.md R164). -/
def leastCost (cands : List (List Cand)) : Nat :=
  match parseTable cands with
  | [] => 0
  | e :: _ => e.cost

/-- The cost of the option "`r` literals, then the match `c`" (42_optimal_parser.md R164). -/
def optionCost (cands : List (List Cand)) (r : Nat) (c : Cand) : Nat :=
  Cmd.cost (.seq r c.off c.len) + leastCost (cands.drop (r + c.len))

/-- The match `c` is an option `r` literals ahead (42_optimal_parser.md R161, R164). -/
def IsOption (cands : List (List Cand)) (r : Nat) (c : Cand) : Prop :=
  (∃ l, cands[r]? = some l ∧ c ∈ l) ∧ r + c.len ≤ cands.length

end Sys2Proof.Machine
end

