-- ==== Sys2Proof/Certificates/Slice0/Obligations.lean ====
section
/-! DEFINITION. The statements for the provers. -/

open Sys2Proof Sys2Proof.Machine

/-! ## Encoding -/

/-- Decoding the bytes of a well-formed instruction, with bytes after it that fit it, gives the instruction
and those bytes (30_encoding.md R81 to R94). The bytes after matter for SEQ and LAST alone, which are told
apart by them (R88). -/
def Obligations.DecodeEncodeRoundTrip : Prop :=
  ∀ (i : Instr) (rest : List Byte), i.wellFormed = true → i.fits rest = true →
    decode i.pos (encode i ++ rest) = .ok (i, rest)

/-- What the decoder accepts is the encoding of the well-formed instruction it answers, at its place
(30_encoding.md R81 to R94). -/
def Obligations.EncodeDecodeRoundTrip : Prop :=
  ∀ (p : Pos) (bs rest : List Byte) (i : Instr), decode p bs = .ok (i, rest) →
    i.wellFormed = true ∧ i.fits rest = true ∧ i.pos = p ∧ encode i ++ rest = bs

/-- The command word (30_encoding.md R94): OP selects the command and bits 31:4 have no effect; two words with
the same OP do the same to an IDLE engine. -/
def Obligations.CommandWordSelectsCommand : Prop :=
  ∀ w v : Word,
    (w.extractLsb' 0 4 = 1 → ∃ g, decodeCommand w = .compressBlock g) ∧
    (w.extractLsb' 0 4 = 2 → ∃ g, decodeCommand w = .decompressBlock g) ∧
    (w.extractLsb' 0 4 ≠ 1 → w.extractLsb' 0 4 ≠ 2 →
      ∃ g, decodeCommand w = .reservedCmd (w.extractLsb' 0 4) g) ∧
    (w.extractLsb' 0 4 = v.extractLsb' 0 4 →
      ∀ s : State, s.eng.phase = .idle → exec (decodeCommand w) s = exec (decodeCommand v) s)

/-- A few words written out from the encodings of 30_encoding.md decode to what they stand for. -/
def Obligations.SpecWordsDecode : Prop :=
  decode .command [0x01, 0, 0, 0] = .ok (.compressBlock 0, []) ∧
  decode .command [0xF2, 0xFF, 0xFF, 0xFF] = .ok (.decompressBlock 0xFFFFFFF, []) ∧
  decode .command [0x0F, 0, 0, 0] = .ok (.reservedCmd 15 0, []) ∧
  decode .token [0x13, 0x61, 0x01, 0x00, 0x00] = .ok (.seq 1 3, [0x61, 0x01, 0x00, 0x00]) ∧
  decode .token [0x20, 0x61, 0x62] = .ok (.last 2, [0x61, 0x62]) ∧
  decode .run [0xFF, 0x14] = .ok (.runFf, [0x14]) ∧
  decode .run [0x14] = .ok (.runEnd 0x14, []) ∧
  decode .offset [0x34, 0x12, 0x50] = .ok (.offset16 0x34 0x12, [0x50]) ∧
  decode (.literals 2) [0x61, 0x62, 0x63] = .ok (.literals [0x61, 0x62], [0x63]) ∧
  decode .blockHeader [0x0B, 0, 0, 0] = .ok (.blkCompressed 11, []) ∧
  decode .blockHeader [0x03, 0, 0, 0x80] = .ok (.blkUncompressed 3, []) ∧
  decode .blockHeader [0, 0, 0, 0] = .ok (.blkEndmark, []) ∧
  decode .frameHeader [0x04, 0x22, 0x4D, 0x18, 0x40, 0x70, 0xC0] = .ok (.frameHeader 0x70 0xC0, []) ∧
  decode .rawFooter [0, 0] = .ok (.rawFooter, [])

/-- A run byte string (30_encoding.md R83): its value on reading, the bytes emitted for a value, that reading
gives the value back, the nibble 15 before it, and the count of run bytes. -/
def Obligations.RunEncoding : Prop :=
  (∀ (c : Nat) (e : Byte) (rest : List Byte), e ≠ 0xFF →
    readRun (List.replicate c 0xFF ++ e :: rest) = some (255 * c + e.toNat, rest)) ∧
  (∀ m : Nat, assemble (emitRun m) = List.replicate (m / 255) 0xFF ++ [BitVec.ofNat 8 (m % 255)]) ∧
  (∀ (m : Nat) (rest : List Byte), readRun (assemble (emitRun m) ++ rest) = some (m, rest)) ∧
  (∀ (v : Nat) (blk : List Byte), 15 ≤ v →
    assemble (emitCmd (.last v) blk) = [0xF0] ++ assemble (emitRun (v - 15)) ++ blk.take v) ∧
  (∀ o v : Nat, 15 ≤ v →
    assemble (emitCmd (.seq 0 o (v + 4)) []) =
      [0x0F, BitVec.ofNat 8 (o % 256), BitVec.ofNat 8 (o / 256)] ++ assemble (emitRun (v - 15))) ∧
  (∀ v : Nat, 15 ≤ v → (assemble (emitRun (v - 15))).length = extraRunBytes v) ∧
  (∀ v : Nat, extraRunBytes v = if v < 15 then 0 else 1 + (v - 15) / 255)

/-! ## Steps -/

/-- A turn runs the instruction decoded where its agent reads: the engine the command word it accepted or
the payload bytes at IN + ip, the host the stream; or the host makes the next access of its queue, where a WAIT
reads STATUS and stays in the queue until it has read DONE = 1 (70_reset_and_hazards.md R300 for turns, log 5;
30_encoding.md R98, log 20, log 22). `u` is the state with the turn taken from the inputs; nothing else is added
around `exec`. -/
def Obligations.StepRunsDecodedInstruction : Prop :=
  ∀ (s u : State) (a : Agent),
    ((∃ es, s.inputs = .turn a :: es ∧ u = { s with inputs := es }) ∨
      (s.inputs = [] ∧ a = (if s.busy then .engine else .host) ∧ u = s)) →
    (∀ ld w, a = .engine → s.eng.phase = .busy ld (.pending w) → step s = exec (decodeCommand w) u) ∧
    (∀ ld d i rest, a = .engine → s.eng.phase = .busy ld (.decoding d) →
      decode d.at_.pos (s.mem.readRange (ld.inp + d.ip) (ld.n - d.ip)) = .ok (i, rest) → step s = exec i u) ∧
    (∀ f i rest, a = .host → s.Reads f .readHeader → decode .frameHeader f.src = .ok (i, rest) →
      step s = exec i u) ∧
    (∀ f i rest, a = .host → s.Reads f .readBlock → decode .blockHeader f.src = .ok (i, rest) →
      step s = exec i u) ∧
    (∀ f i rest, a = .host → s.Reads f .readFooter →
      decode .rawFooter (f.src.drop (f.src.length - 2)) = .ok (i, rest) → step s = exec i u) ∧
    (∀ act v, a = .host → u.Queued act v →
      (∀ addr n, act = .load addr n → step s = hostLoad addr n v) ∧
      (∀ addr bs, act = .store addr bs → step s = hostStore addr bs v) ∧
      (∀ b, act = .loadBase b → step s = hostLoadBase b v) ∧
      (∀ b x, act = .storeBase b x → step s = hostStoreBase b x v) ∧
      (∀ j, act = .frame j → step s = .next (startJob j v)) ∧
      (act = .wait → s.par.Legal →
        (s.eng.done = true → step s = hostLoad (s.par.ifaceBase + 0x04) 4 v) ∧
        (s.eng.done = false → step s = hostLoad (s.par.ifaceBase + 0x04) 4 u)))

/-- Reset (70_reset_and_hazards.md R290, R293; 10_state.md R45): the phase is IDLE, every register reads 0 but
PARAM, memory is as before unless a command was cut, and the parameters are the same. -/
def Obligations.ResetSetsEveryRegister : Prop :=
  ∀ (s : State) (es : List Event), s.inputs = .reset :: es →
    ∃ t, step s = .next t ∧ t.eng.phase = .idle ∧ t.eng = State.reset.eng ∧ statusWord t.eng = 0 ∧
      (∀ off, off < 256 → off ≠ 0x2C → t.regValue (regAt off) = 0) ∧
      t.regValue (regAt 0x2C) = paramWord s.par ∧ (s.busy = false → t.mem = s.mem) ∧
      t.par = s.par ∧ t.inputs = es ∧ t.host.acts = s.host.acts ∧ t.host.frame = s.host.frame

/-- Reset while BUSY (70_reset_and_hazards.md R291): no completion step, every byte of the write set of 20_memory.md
R61 unspecified, whatever the descriptor checks say (its addresses past the top of memory left out, log 26), every
other byte unchanged. -/
def Obligations.ResetCutsRunningCommand : Prop :=
  ∀ (s : State) (es : List Event) (ld : Desc) (st : Stage),
    s.inputs = .reset :: es → s.eng.phase = .busy ld st →
    ∃ t, step s = .next t ∧ statusWord t.eng = 0 ∧ t.eng.phase = .idle ∧
      SameMemOutside (writeSet s.par s.eng.cmdOp ld) s t ∧
      ∀ r ∈ writeSet s.par s.eng.cmdOp ld, Unspecified t r s.draws

/-! ## The register file -/

/-- A write of `v` to CMD (40_commands.md R120, 10_state.md R36): on an IDLE engine it latches the descriptor
and starts the command, which a later engine step runs and ends; while BUSY it is ignored. -/
def Obligations.CmdWriteStartsCommand : Prop :=
  ∀ (s : State) (v : Word), s.par.Legal →
    (v.extractLsb' 0 4 = 1 → ∃ g, decodeCommand v = .compressBlock g) ∧
    (v.extractLsb' 0 4 = 2 → ∃ g, decodeCommand v = .decompressBlock g) ∧
    (v.extractLsb' 0 4 ≠ 1 → v.extractLsb' 0 4 ≠ 2 →
      ∃ g, decodeCommand v = .reservedCmd (v.extractLsb' 0 4) g) ∧
    (s.eng.phase = .idle →
      ∃ t, hostStore s.par.ifaceBase (wordBytes v) s = .next t ∧
        t.eng =
          { s.eng with
            phase := .busy
              ⟨s.eng.winBase, s.eng.prefixLen, s.eng.blockLen, s.eng.inBase, s.eng.inLen, s.eng.outBase⟩
              (.pending v)
            cmdOp := v.extractLsb' 0 4, done := false, code := .ok, detail := .none } ∧
        t.regValue .cmd = (v.extractLsb' 0 4).setWidth 32 ∧ statusWord t.eng = 1 ∧ t.mem = s.mem ∧
        t.par = s.par ∧ t.inputs = s.inputs ∧ t.host.acts = s.host.acts ∧ t.host.frame = s.host.frame ∧
        agentStep .engine t = exec (decodeCommand v) t ∧
        (s.par.grain = .command → ∀ t', agentStep .engine t = .next t' →
          t'.eng.phase = .idle ∧ t'.eng.done = true)) ∧
    (s.busy = true → hostStore s.par.ifaceBase (wordBytes v) s = .next s)

/-- A 32-bit host write of a register (40_commands.md R127): each read/write register takes the value, whatever it
is, a base register as many of its bits as it is wide (10_state.md R22; log 2 where ADDR_W is not 32), CMD starts a
command, every other offset ignores it, and while BUSY every offset does. -/
def Obligations.RegisterWrite : Prop :=
  ∀ (s : State) (off : Nat) (v : Word), s.par.Legal → off < 256 → off % 4 = 0 →
    (s.busy = true → hostStore (s.par.ifaceBase + off) (wordBytes v) s = .next s) ∧
    (s.busy = false → hostStore (s.par.ifaceBase + off) (wordBytes v) s = .next (
      if off = 0x00 then s.startCommand v
      else if off = 0x08 then { s with eng := { s.eng with winBase := v.toNat % 2 ^ s.par.addrW } }
      else if off = 0x0C then { s with eng := { s.eng with prefixLen := v } }
      else if off = 0x10 then { s with eng := { s.eng with blockLen := v } }
      else if off = 0x14 then { s with eng := { s.eng with inBase := v.toNat % 2 ^ s.par.addrW } }
      else if off = 0x18 then { s with eng := { s.eng with inLen := v } }
      else if off = 0x1C then { s with eng := { s.eng with outBase := v.toNat % 2 ^ s.par.addrW } }
      else s))

/-- A 32-bit host read of a register (40_commands.md R126, 10_state.md R22): the value at each offset, a free word for
OUT_LEN, TOKENS and ERR_POS while BUSY, 0 at a reserved offset, and no state of the machine changed. A base
register is read as 32 bits (log 2 where ADDR_W is not 32). -/
def Obligations.RegisterRead : Prop :=
  ∀ (s : State) (off : Nat), s.par.Legal → off < 256 → off % 4 = 0 →
    ∃ t, hostLoad (s.par.ifaceBase + off) 4 s = .next t ∧ t.eng = s.eng ∧ t.mem = s.mem ∧ t.par = s.par ∧
      t.inputs = s.inputs ∧ t.host.acts = s.host.acts ∧ t.host.frame = s.host.frame ∧
      t.host.rdata = wordBytes (
        if off = 0x00 then s.eng.cmdOp.setWidth 32
        else if off = 0x04 then statusWord s.eng
        else if off = 0x08 then BitVec.ofNat 32 s.eng.winBase
        else if off = 0x0C then s.eng.prefixLen
        else if off = 0x10 then s.eng.blockLen
        else if off = 0x14 then BitVec.ofNat 32 s.eng.inBase
        else if off = 0x18 then s.eng.inLen
        else if off = 0x1C then BitVec.ofNat 32 s.eng.outBase
        else if off = 0x20 then if s.busy then Config.freeWord s.draws else s.eng.outLen
        else if off = 0x24 then if s.busy then Config.freeWord s.draws else s.eng.tokens
        else if off = 0x28 then if s.busy then Config.freeWord s.draws else s.eng.errPos
        else if off = 0x2C then
          BitVec.ofNat 32 (s.par.minMatch % 256 + 256 * (s.par.lastLiterals % 256))
        else 0)

/-- Register accesses (10_state.md R23, 20_memory.md R64): an aligned 32-bit access is made, a read changes no
register, a write to a read-only register is ignored, and any other access to the register file is refused. A base
register wider than 32 bits (10_state.md R22) is read or set whole by a transfer of its own, which is the model's
choice (log 2) and is refused where the registers are no wider. -/
def Obligations.RegisterAccessWidth : Prop :=
  (∀ (s : State) (addr n : Nat) (bs : List Byte), s.par.Legal → addr + n ≤ 2 ^ s.par.addrW → bs.length = n →
    meets ⟨addr, n⟩ (registerFile s.par) = true →
    (n = 4 → addr % 4 = 0 →
      (∃ t, hostLoad addr n s = .next t ∧ t.eng = s.eng) ∧ (∃ t, hostStore addr bs s = .next t) ∧
      (addr - s.par.ifaceBase ∈ [0x04, 0x20, 0x24, 0x28, 0x2C] → hostStore addr bs s = .next s)) ∧
    (¬ (n = 4 ∧ addr % 4 = 0) →
      hostLoad addr n s = .refused .registerAccess ∧ hostStore addr bs s = .refused .registerAccess)) ∧
  (∀ (s : State) (b : BaseReg) (v : Nat),
    (32 < s.par.addrW →
      hostLoadBase b s = .next (s.returned (leBytes ((s.par.addrW + 7) / 8) (s.base b))) ∧
      (s.busy = true → hostStoreBase b v s = .next s) ∧
      (s.busy = false → hostStoreBase b v s = .next { s with eng := match b with
        | .win => { s.eng with winBase := v % 2 ^ s.par.addrW }
        | .inp => { s.eng with inBase := v % 2 ^ s.par.addrW }
        | .out => { s.eng with outBase := v % 2 ^ s.par.addrW } })) ∧
    (s.par.addrW ≤ 32 →
      hostLoadBase b s = .refused .registerAccess ∧ hostStoreBase b v s = .refused .registerAccess))

/-- STATUS (10_state.md R25): its fields, what a start and an end set, and that CODE and DETAIL read 0 while
BUSY and DETAIL reads 0 with every CODE but two; at offset 0x04, where a write is ignored. The numbers of CODE and
DETAIL are the tables of 60_exceptions.md R270 and R271, and DETAIL is one of its CODE's. -/
def Obligations.StatusWordLayout : Prop :=
  (∀ e : Engine,
    (statusWord e).getLsbD 0 = e.busy ∧ (statusWord e).getLsbD 1 = e.done ∧
    (statusWord e).extractLsb' 2 6 = 0 ∧ (statusWord e).extractLsb' 8 8 = e.code.num ∧
    (statusWord e).extractLsb' 16 8 = e.detail.num ∧ (statusWord e).extractLsb' 24 8 = 0) ∧
  ([StatusCode.ok, .incompressible, .compressionInternal, .decompressionError, .badCommand].map StatusCode.num =
    [0, 1, 2, 3, 4]) ∧
  ([Detail.none, .truncatedToken, .truncatedRun, .truncatedLiterals, .truncatedOffset, .badOffset, .badLastToken,
    .oversize].map Detail.num = [0, 1, 2, 3, 4, 5, 6, 7]) ∧
  ([Detail.reservedOp, .prefixTooLong, .lengthTooLong, .bufferWraps].map Detail.num = [1, 2, 3, 4]) ∧
  (∀ s : State, s.Inv → s.eng.code = .decompressionError →
    s.eng.detail ∈ [Detail.truncatedToken, .truncatedRun, .truncatedLiterals, .truncatedOffset, .badOffset,
      .badLastToken, .oversize]) ∧
  (∀ s : State, s.Inv → s.eng.code = .badCommand →
    s.eng.detail ∈ [Detail.reservedOp, .prefixTooLong, .lengthTooLong, .bufferWraps]) ∧
  (∀ s : State, s.Inv → s.busy = true → s.eng.code.num = 0 ∧ s.eng.detail.num = 0) ∧
  (∀ s : State, s.Inv → s.eng.code.num ≠ 3 → s.eng.code.num ≠ 4 → s.eng.detail.num = 0) ∧
  (∀ (s : State) (v : Word), statusWord (s.startCommand v).eng = 1) ∧
  (∀ s : State, s.regValue (regAt 0x04) = statusWord s.eng) ∧
  (∀ (s : State) (v : Word), s.par.Legal → hostStore (s.par.ifaceBase + 0x04) (wordBytes v) s = .next s) ∧
  (∀ (s : State) (x : Ending),
    statusWord (s.endCommand x).eng = 0#8 ++ x.detail.num ++ x.code.num ++ 2#8)

/-! ## The commands -/

/-- RESERVED_CMD (40_commands.md R123): it ends BAD_COMMAND / RESERVED_OP with ERR_POS 0, STATUS
0x00010402, and no memory changed. OUT_LEN and TOKENS are left open. -/
def Obligations.ReservedCommandEnds : Prop :=
  ∀ (s u : State) (ld : Desc) (op : BitVec 4) (ignored : BitVec 28),
    op ≠ 1 → op ≠ 2 → s.Runs (ignored ++ op) ld u →
    ∃ t, exec (.reservedCmd op ignored) s = .next t ∧
      t.eng =
        { u.eng with
          phase := .idle, done := true, code := .badCommand, detail := .reservedOp, errPos := 0,
          outLen := t.eng.outLen, tokens := t.eng.tokens } ∧
      statusWord t.eng = 0x00010402 ∧ t.mem = s.mem ∧ SameOutside u t

/-- `check_compress` (40_commands.md R124): the first failing check gives the DETAIL of a BAD_COMMAND ending,
whatever memory holds and wherever the buffers lie, and no byte of memory is changed. -/
def Obligations.CompressBadDescriptor : Prop :=
  ∀ (s u : State) (ld : Desc) (ignored : BitVec 28), s.par.Legal → s.Runs (ignored ++ 1#4) ld u →
    (65536 < ld.P ∨ 4194304 < ld.L ∨ 2 ^ s.par.addrW < ld.win + ld.P + ld.L ∨
      2 ^ s.par.addrW < ld.out + ld.L) →
    ∃ t, exec (.compressBlock ignored) s = .next t ∧
      t.eng =
        { u.eng with
          phase := .idle, done := true, code := .badCommand
          detail :=
            if 65536 < ld.P then .prefixTooLong else if 4194304 < ld.L then .lengthTooLong else .bufferWraps
          errPos := 0, outLen := t.eng.outLen, tokens := t.eng.tokens } ∧
      t.mem = s.mem ∧ SameOutside u t

/-- `check_decompress` (40_commands.md R125). -/
def Obligations.DecompressBadDescriptor : Prop :=
  ∀ (s u : State) (ld : Desc) (ignored : BitVec 28), s.par.Legal → s.Runs (ignored ++ 2#4) ld u →
    (65536 < ld.P ∨ 4194304 < ld.cap ∨ 4194304 < ld.n ∨ 2 ^ s.par.addrW < ld.inp + ld.n ∨
      2 ^ s.par.addrW < ld.win + ld.P + ld.cap) →
    ∃ t, exec (.decompressBlock ignored) s = .next t ∧
      t.eng =
        { u.eng with
          phase := .idle, done := true, code := .badCommand
          detail :=
            if 65536 < ld.P then .prefixTooLong
            else if 4194304 < ld.cap ∨ 4194304 < ld.n then .lengthTooLong
            else .bufferWraps
          errPos := 0, outLen := t.eng.outLen, tokens := t.eng.tokens } ∧
      t.mem = s.mem ∧ SameOutside u t

/-- COMPRESS_BLOCK (40_commands.md R121), run as one step (R129), on a good descriptor and buffers: TOKENS is
the token count of the parse (the parameter's for this block, else R164's: 42_optimal_parser.md R169, log 15), and
the result of the encoder is the ending. -/
def Obligations.CompressCompletes : Prop :=
  ∀ (s u : State) (ld : Desc) (ignored : BitVec 28) (wd : List Byte) (cmds : List Cmd) (res : EncResult),
    s.Runs (ignored ++ 1#4) ld u → s.par.grain = .command → checkCompress s.par ld = none →
    bufferRefusal s.par ld.compressWindow ld.compressOut = none →
    wd = s.mem.readRange ld.win (ld.P + ld.L) → cmds = parseBy s.par (matchCandidates s.par wd ld.P) →
    res = encodeBlock s.par ld.P (wd.drop ld.P) cmds →
    ∃ t, exec (.compressBlock ignored) s = .next t ∧ SameOutside u t ∧
      t.eng =
        { u.eng with
          phase := .idle, done := true
          code := match res with
            | .payload _ => .ok
            | .incompressible => .incompressible
            | .internal => .compressionInternal
          detail := .none, errPos := 0, tokens := BitVec.ofNat 32 cmds.length, outLen := t.eng.outLen } ∧
      match res with
      | .payload bytes =>
        t.eng.outLen = BitVec.ofNat 32 bytes.length ∧ t.mem = s.mem.writeRange ld.out bytes
      | .incompressible => SameMemOutside [ld.compressOut] s t ∧ Unspecified t ld.compressOut s.draws
      | .internal => SameMemOutside [ld.compressOut] s t ∧ Unspecified t ld.compressOut s.draws

/-- DECOMPRESS_BLOCK (40_commands.md R122), run as one step (R129), on a good descriptor and buffers: the result
of the decode datapath is the ending. -/
def Obligations.DecompressCompletes : Prop :=
  ∀ (s u : State) (ld : Desc) (ignored : BitVec 28) (payload hist : List Byte),
    s.Runs (ignored ++ 2#4) ld u → s.par.grain = .command → checkDecompress s.par ld = none →
    bufferRefusal s.par ld.payload ld.decompressWindow = none →
    payload = s.mem.readRange ld.inp ld.n → hist = s.mem.readRange ld.win ld.P →
    ∃ t, exec (.decompressBlock ignored) s = .next t ∧
      match decodeBlock payload hist ld.cap with
      | .ok win => Decoded u ld win t
      | .fail detail pos => Failed u ld detail pos t

/-- A command whose buffers overlap, lie over the register file or over memory with side effects, or run into
memory the host did not provide, is refused by name (20_memory.md R65, R74; 70_reset_and_hazards.md R299; the
order is log 10, the last two are parameters, log 25). -/
def Obligations.BadBuffersRefused : Prop :=
  ∀ (s u : State) (ld : Desc) (ignored : BitVec 28) (a b : Region) (i : Instr),
    ((i = .compressBlock ignored ∧ s.Runs (ignored ++ 1#4) ld u ∧ checkCompress s.par ld = none ∧
        a = ld.compressWindow ∧ b = ld.compressOut) ∨
      (i = .decompressBlock ignored ∧ s.Runs (ignored ++ 2#4) ld u ∧ checkDecompress s.par ld = none ∧
        a = ld.payload ∧ b = ld.decompressWindow)) →
    (meets a b = true → exec i s = .refused .buffersOverlap) ∧
    (meets a b = false →
      (meets a (registerFile s.par) = true ∨ meets b (registerFile s.par) = true →
        exec i s = .refused .bufferOverRegisters) ∧
      (meets a (registerFile s.par) = false → meets b (registerFile s.par) = false →
        ((∃ r ∈ s.par.sideEffect, meets a r = true ∨ meets b r = true) →
          exec i s = .refused .bufferOverSideEffect) ∧
        ((∀ r ∈ s.par.sideEffect, meets a r = false ∧ meets b r = false) →
          ((∃ r ∈ s.par.notProvided, meets a r = true ∨ meets b r = true) →
            exec i s = .refused .bufferNotProvided) ∧
          ((∀ r ∈ s.par.notProvided, meets a r = false ∧ meets b r = false) → ∃ t, exec i s = .next t))))

/-- The contents of memory when a command ends (20_memory.md R62, R61): what each ending leaves in the written
range, and that no other byte, the prefix's among them, is written. The commands run as one step (R129). -/
def Obligations.WrittenRangeAtEnd : Prop :=
  ∀ (s u t : State) (w : Word) (ld : Desc),
    s.Runs w ld u → s.par.grain = .command → exec (decodeCommand w) s = .next t →
    SameMemOutside (writeSet s.par (wordOp w) ld) s t ∧
    (t.eng.code = .badCommand → t.mem = s.mem) ∧
    (∀ a, ld.win ≤ a → a < ld.win + ld.P → t.mem.read a = s.mem.read a) ∧
    (∀ wd, wordOp w = 1 → checkCompress s.par ld = none → wd = s.mem.readRange ld.win (ld.P + ld.L) →
      (t.eng.code = .ok →
        ∃ payload,
          encodeBlock s.par ld.P (wd.drop ld.P) (parseBy s.par (matchCandidates s.par wd ld.P)) = .payload payload ∧
          t.eng.outLen = BitVec.ofNat 32 payload.length ∧
          t.mem.readRange ld.out payload.length = payload ∧
          ∀ a, ld.out + payload.length ≤ a → t.mem.read a = s.mem.read a) ∧
      (t.eng.code ≠ .ok → Unspecified t ld.compressOut s.draws)) ∧
    (∀ payload hist, wordOp w = 2 → checkDecompress s.par ld = none →
      payload = s.mem.readRange ld.inp ld.n → hist = s.mem.readRange ld.win ld.P →
      (t.eng.code = .ok →
        ∃ out, decodeBlock payload hist ld.cap = .ok (hist ++ out) ∧
          t.eng.outLen = BitVec.ofNat 32 out.length ∧
          t.mem.readRange (ld.win + ld.P) out.length = out ∧
          Unspecified t ⟨ld.win + ld.P + out.length, ld.cap - out.length⟩ s.draws) ∧
      (t.eng.code ≠ .ok → Unspecified t ld.decompressOut s.draws))

/-- Determinism (70_reset_and_hazards.md R302): two machines that run the same command word with the same latched
descriptor and whose memories agree on the read set end it with the same status, the same specified registers
and the same specified bytes, whatever else differs, the descriptor registers among them (10_state.md R36). -/
def Obligations.ResultIsAFunctionOfTheReadSet : Prop :=
  ∀ (s₁ s₂ t₁ t₂ : State) (w : Word) (ld : Desc),
    s₁.par = s₂.par → s₁.par.grain = .command →
    s₁.eng.phase = .busy ld (.pending w) → s₂.eng.phase = .busy ld (.pending w) →
    (∀ r ∈ readSet s₁.par (wordOp w) ld, ∀ a, holds r a = true → s₁.mem.read a = s₂.mem.read a) →
    exec (decodeCommand w) s₁ = .next t₁ → exec (decodeCommand w) s₂ = .next t₂ →
    t₁.eng.code = t₂.eng.code ∧ t₁.eng.detail = t₂.eng.detail ∧ t₁.eng.errPos = t₂.eng.errPos ∧
    (t₁.eng.code = .ok → t₁.eng.outLen = t₂.eng.outLen) ∧
    (t₁.eng.code ≠ .badCommand → t₁.eng.tokens = t₂.eng.tokens) ∧
    (t₁.eng.code = .ok → ∀ k, k < t₁.eng.outLen.toNat →
      t₁.mem.read ((if wordOp w = 1 then ld.out else ld.win + ld.P) + k) =
        t₂.mem.read ((if wordOp w = 1 then ld.out else ld.win + ld.P) + k))

/-- A command leaves the descriptor registers, PARAM and everything outside the engine and memory alone, and CMD
holds its OP (40_commands.md R120, R128). -/
def Obligations.CommandFrame : Prop :=
  ∀ (s u t : State) (w : Word) (ld : Desc), s.Runs w ld u → exec (decodeCommand w) s = .next t →
    SameDescriptor s t ∧ (s.eng.phase = .idle → t.eng.cmdOp = wordOp w) ∧ (u = s → t.eng.cmdOp = s.eng.cmdOp) ∧
    SameOutside u t ∧ t.host.acts = s.host.acts ∧ t.host.rdata = s.host.rdata ∧ t.host.frame = s.host.frame ∧
    (t.busy = true → t.mem = s.mem ∧ t.eng.tokens = s.eng.tokens ∧ t.eng.outLen = s.eng.outLen ∧
      t.eng.errPos = s.eng.errPos)

/-! ## The elements of a payload -/

/-- The token (44_block_decoder.md R201): TRUNCATED_TOKEN where the payload has ended, else its byte is read, its
nibbles are taken and a literal run follows iff LN = 15. SEQ and LAST complete at the start of a sequence. The
ending has TOKENS = 0 (10_state.md R33, 40_commands.md R122; log 9) and the memory of 20_memory.md R62; one step
for each element is the model's cut (log 6). -/
def Obligations.TokenRead : Prop :=
  ∀ (s : State) (ld : Desc) (ip : Nat) (win : List Byte), s.Decodes ld ip .token win →
    (∀ ln mn, exec (.seq ln mn) s =
      .next (s.withDec ld (ip + 1) (if ln = 15 then .litRun mn 0 else .literals mn ln.toNat) win)) ∧
    (∀ ln, exec (.last ln) s =
      .next (s.withDec ld (ip + 1) (if ln = 15 then .litRun 0 0 else .literals 0 ln.toNat) win)) ∧
    (ip = ld.n → ∃ t, agentStep .engine s = .next t ∧ Failed s ld .truncatedToken ip t) ∧
    (∀ b bs, s.mem.readRange (ld.inp + ip) (ld.n - ip) = b :: bs →
      agentStep .engine s = .next (s.withDec ld (ip + 1)
        (if b.extractLsb' 4 4 = 15 then .litRun (b.extractLsb' 0 4) 0
          else .literals (b.extractLsb' 0 4) (b.extractLsb' 4 4).toNat) win))

/-- `readRun()` (44_block_decoder.md R202): TRUNCATED_RUN where the payload has ended, a byte 0xFF adds 255 and
the run goes on, any other byte adds itself and ends it; so on a byte string. RUN_FF completes in a literal
run and in a match run, RUN_END in a literal run (in a match run: `MatchRunEnd`). The ending has TOKENS = 0
(10_state.md R33, 40_commands.md R122; log 9); one step for each element is the model's cut (log 6). -/
def Obligations.RunRead : Prop :=
  (∀ (s : State) (ld : Desc) (ip sum : Nat) (win : List Byte) (mn : BitVec 4),
    s.Decodes ld ip (.litRun mn sum) win →
    exec .runFf s = .next (s.withDec ld (ip + 1) (.litRun mn (sum + 255)) win) ∧
    (∀ e, exec (.runEnd e) s = .next (s.withDec ld (ip + 1) (.literals mn (15 + (sum + e.toNat))) win)) ∧
    (ip = ld.n → ∃ t, agentStep .engine s = .next t ∧ Failed s ld .truncatedRun ip t) ∧
    (∀ b bs, s.mem.readRange (ld.inp + ip) (ld.n - ip) = b :: bs →
      agentStep .engine s = exec (if b = 0xFF then .runFf else .runEnd b) s)) ∧
  (∀ (s : State) (ld : Desc) (ip off sum : Nat) (win : List Byte),
    s.Decodes ld ip (.matchRun off sum) win →
    exec .runFf s = .next (s.withDec ld (ip + 1) (.matchRun off (sum + 255)) win) ∧
    (ip = ld.n → ∃ t, agentStep .engine s = .next t ∧ Failed s ld .truncatedRun ip t) ∧
    (∀ b bs, s.mem.readRange (ld.inp + ip) (ld.n - ip) = b :: bs →
      agentStep .engine s = exec (if b = 0xFF then .runFf else .runEnd b) s)) ∧
  (∀ (bs r : List Byte) (v : Nat),
    readRun bs = some (v, r) ↔
      ∃ (c : Nat) (e : Byte), bs = List.replicate c 0xFF ++ e :: r ∧ e ≠ 0xFF ∧ v = 255 * c + e.toNat) ∧
  (∀ bs : List Byte, readRun bs = none ↔ ∀ b ∈ bs, b = 0xFF)

/-- The literals and the end of block (44_block_decoder.md R203, R204): TRUNCATED_LITERALS, then OVERSIZE, then
the copy; at the payload's end BAD_LAST_TOKEN or OK, else an offset follows. LITERALS completes where its bytes
are as many as the literal length. An error's ending has TOKENS = 0 (10_state.md R33, 40_commands.md R122; log 9);
one step for each element is the model's cut (log 6), and the bytes decoded so far are hidden until the completion
step (log 27). -/
def Obligations.LiteralsCopied : Prop :=
  ∀ (s : State) (ld : Desc) (ip lit : Nat) (win : List Byte) (mn : BitVec 4),
    s.Decodes ld ip (.literals mn lit) win → ld.P ≤ win.length →
    (∀ bytes : List Byte, bytes.length = lit →
      (ld.cap < win.length - ld.P + lit →
        ∃ t, exec (.literals bytes) s = .next t ∧ Failed s ld .oversize ip t) ∧
      (win.length - ld.P + lit ≤ ld.cap → ip + lit = ld.n → mn ≠ 0 →
        ∃ t, exec (.literals bytes) s = .next t ∧ Failed s ld .badLastToken ld.n t) ∧
      (win.length - ld.P + lit ≤ ld.cap → ip + lit = ld.n → mn = 0 →
        ∃ t, exec (.literals bytes) s = .next t ∧ Decoded s ld (win ++ bytes) t) ∧
      (win.length - ld.P + lit ≤ ld.cap → ip + lit ≠ ld.n →
        exec (.literals bytes) s = .next (s.withDec ld (ip + lit) (.offset mn) (win ++ bytes)))) ∧
    (∀ bs, bs = s.mem.readRange (ld.inp + ip) (ld.n - ip) →
      (bs.length < lit → ∃ t, agentStep .engine s = .next t ∧ Failed s ld .truncatedLiterals ip t) ∧
      (lit ≤ bs.length → agentStep .engine s = exec (.literals (bs.take lit)) s))

/-- The offset, its check and the match length of a nibble below 15 (44_block_decoder.md R205, R206, R207, R209):
TRUNCATED_OFFSET, then BAD_OFFSET, then OVERSIZE, then the copy. OFFSET16 completes before an offset. An error's
ending has TOKENS = 0 (10_state.md R33, 40_commands.md R122; log 9); one step for each element is the model's cut
(log 6), and the bytes decoded so far are hidden until the completion step (log 27). -/
def Obligations.OffsetRead : Prop :=
  ∀ (s : State) (ld : Desc) (ip : Nat) (win : List Byte) (mn : BitVec 4), s.Decodes ld ip (.offset mn) win →
    (∀ (lo hi : Byte) (off : Nat), off = lo.toNat + 256 * hi.toNat →
      (off = 0 ∨ win.length < off →
        ∃ t, exec (.offset16 lo hi) s = .next t ∧ Failed s ld .badOffset (ip + 2) t) ∧
      (off ≠ 0 → off ≤ win.length → mn = 15 →
        exec (.offset16 lo hi) s = .next (s.withDec ld (ip + 2) (.matchRun off 0) win)) ∧
      (off ≠ 0 → off ≤ win.length → mn ≠ 15 → ld.cap < win.length - ld.P + (mn.toNat + 4) →
        ∃ t, exec (.offset16 lo hi) s = .next t ∧ Failed s ld .oversize (ip + 2) t) ∧
      (off ≠ 0 → off ≤ win.length → mn ≠ 15 → win.length - ld.P + (mn.toNat + 4) ≤ ld.cap →
        exec (.offset16 lo hi) s =
          .next (s.withDec ld (ip + 2) .token (copyMatch win off (mn.toNat + 4))))) ∧
    (∀ bs, bs = s.mem.readRange (ld.inp + ip) (ld.n - ip) →
      (bs.length < 2 → ∃ t, agentStep .engine s = .next t ∧ Failed s ld .truncatedOffset ip t) ∧
      (∀ lo hi r, bs = lo :: hi :: r → agentStep .engine s = exec (.offset16 lo hi) s))

/-- The match length that a match run gives (44_block_decoder.md R207, R209): 19 and the run's value, OVERSIZE
where it passes the capacity, else the copy and the next sequence. RUN_END completes in a match run. The ending
has TOKENS = 0 (10_state.md R33, 40_commands.md R122; log 9); one step for each element is the model's cut (log 6),
and the bytes decoded so far are hidden until the completion step (log 27). -/
def Obligations.MatchRunEnd : Prop :=
  ∀ (s : State) (ld : Desc) (ip off sum : Nat) (win : List Byte) (e : Byte),
    s.Decodes ld ip (.matchRun off sum) win →
    (ld.cap < win.length - ld.P + (19 + (sum + e.toNat)) →
      ∃ t, exec (.runEnd e) s = .next t ∧ Failed s ld .oversize (ip + 1) t) ∧
    (win.length - ld.P + (19 + (sum + e.toNat)) ≤ ld.cap →
      exec (.runEnd e) s =
        .next (s.withDec ld (ip + 1) .token (copyMatch win off (19 + (sum + e.toNat)))))

/-- The match copy (44_block_decoder.md R209): byte `op + t` is byte `op - off + t`, which the same copy may have
written, and the bytes before stay. -/
def Obligations.MatchCopy : Prop :=
  ∀ (win : List Byte) (off len : Nat), 1 ≤ off → off ≤ win.length →
    (copyMatch win off len).length = win.length + len ∧
    (copyMatch win off len).take win.length = win ∧
    ∀ t, t < len → (copyMatch win off len)[win.length + t]? = (copyMatch win off len)[win.length - off + t]?

/-- A payload element leaves every register but the result registers of an ending alone, and every byte of memory
outside the decoder's output range (20_memory.md R61, 40_commands.md R128). While the command goes on it leaves all
of memory and every register: one step for each element is the model's cut (log 6), and the bytes decoded so far
are hidden until the completion step (log 27), where 44_block_decoder.md R203 and R209 write W at the element. -/
def Obligations.PayloadElementFrame : Prop :=
  ∀ (i : Instr) (s t : State) (ld : Desc) (d : DecScratch),
    (match i with
      | .seq _ _ | .last _ | .runFf | .runEnd _ | .offset16 _ _ | .literals _ => True
      | _ => False) →
    s.eng.phase = .busy ld (.decoding d) → ld.P ≤ d.op → exec i s = .next t →
    SameDescriptor s t ∧ t.eng.cmdOp = s.eng.cmdOp ∧ SameOutside s t ∧
    SameMemOutside [ld.decompressOut] s t ∧
    (t.busy = true → t.mem = s.mem ∧ t.draws = s.draws ∧ t.eng = { s.eng with phase := t.eng.phase })

/-- Refinement: where the model runs a decompress command element by element, it ends the command in the very
state the whole command run as one step gives (40_commands.md R129, 44_block_decoder.md R211). -/
def Obligations.DecodeElementsRefineCommand : Prop :=
  ∀ (s t : State) (ld : Desc) (w : Word),
    s.eng.phase = .busy ld (.pending w) → wordOp w = 2 → s.inputs = [] → s.par.grain = .element →
    step (s.withGrain .command) = .next t → ∃ k, run k s = .next (t.withGrain .element)

/-- Refinement: where the model runs a compress command stage by stage and sequence by sequence, it ends the
command in the very state the whole command run as one step gives (40_commands.md R121, R129). -/
def Obligations.CompressStagesRefineCommand : Prop :=
  ∀ (s t : State) (ld : Desc) (w : Word), s.par.Legal →
    s.eng.phase = .busy ld (.pending w) → wordOp w = 1 → s.inputs = [] → s.par.grain = .element →
    step (s.withGrain .command) = .next t → ∃ k, run k s = .next (t.withGrain .element)

/-! ## The match-finder -/

/-- The suffix array, the LCP array and the rank (41_match_finder.md R140, R141, R142, R143): a permutation of the
positions that orders the suffixes as lists of unsigned bytes, a shorter one before its extensions; the
longest common prefixes of neighbours between two zeros; and the inverse permutation. -/
def Obligations.SuffixArrayContract : Prop :=
  (∀ wd : List Byte,
    (suffixArray wd).Perm (List.range wd.length) ∧
    (suffixArray wd).Pairwise
      (fun i j => List.Lex (fun x y : Byte => x.toNat < y.toNat) (wd.drop i) (wd.drop j)) ∧
    (lcpArray wd (suffixArray wd)).length = wd.length + 1 ∧
    (lcpArray wd (suffixArray wd))[0]? = some 0 ∧ (lcpArray wd (suffixArray wd))[wd.length]? = some 0 ∧
    (∀ i x y : Nat, 1 ≤ i → (suffixArray wd)[i - 1]? = some x → (suffixArray wd)[i]? = some y →
      (lcpArray wd (suffixArray wd))[i]? = some (lcp (wd.drop x) (wd.drop y))) ∧
    (∀ i x : Nat, (suffixArray wd)[i]? = some x → (rankArray (suffixArray wd))[x]? = some i)) ∧
  (∀ (wd : List Byte) (x y n : Nat), x ≤ wd.length → y ≤ wd.length →
    (n ≤ lcp (wd.drop x) (wd.drop y) ↔
      x + n ≤ wd.length ∧ y + n ≤ wd.length ∧ (wd.drop x).take n = (wd.drop y).take n))

/-- The raw list of a position in closed form (41_match_finder.md R151): the two walks over the suffix array
meet exactly the earlier positions in reach with a common prefix of MIN_MATCH bytes or more. -/
def Obligations.RawListClosedForm : Prop :=
  ∀ (par : Params) (wd : List Byte) (p : Nat) (e : Cand), par.Legal → p < wd.length →
    (e ∈ upward par (suffixArray wd) (lcpArray wd (suffixArray wd)) (rankArray (suffixArray wd)) p ++
        downward par (suffixArray wd) (lcpArray wd (suffixArray wd)) (rankArray (suffixArray wd)) p ↔
      ∃ q, q < p ∧ p - q ≤ par.maxOffset ∧ par.minMatch ≤ lcp (wd.drop q) (wd.drop p) ∧
        e = ⟨p - q, lcp (wd.drop q) (wd.drop p)⟩)

/-- The match-finder the commands use is the stage that walks the suffix array (41_match_finder.md R151, R154). -/
def Obligations.MatchFinderClosedForm : Prop :=
  ∀ (par : Params) (wd : List Byte) (p : Nat), par.Legal →
    matchCandidatesByWalk par wd p = matchCandidates par wd p

/-- The Pareto filter (41_match_finder.md R149): an entry is kept iff its length is greater than that of every
entry with a smaller offset; the order is kept. -/
def Obligations.ParetoFilter : Prop :=
  ∀ es : List Cand, es.Pairwise (fun a b => a.off < b.off) →
    (pareto 0 es).Sublist es ∧
    ∀ e, e ∈ pareto 0 es ↔ e ∈ es ∧ 0 < e.len ∧ ∀ x ∈ es, x.off < e.off → x.len < e.len

/-- The candidate lists exactly (41_match_finder.md R147 to R151), and their invariants (R152, (a) to (f)). There is
one list for each block position, and the list at `i` is what the Pareto filter keeps of the cut entries of that
site, in ascending order of offset and of length, or of these the last NCAND. -/
def Obligations.CandidateInvariants : Prop :=
  ∀ (par : Params) (wd : List Byte) (p : Nat), par.Legal → p ≤ wd.length →
    (matchCandidates par wd p).length = wd.length - p ∧
    ∀ (i : Nat) (c : List Cand), (matchCandidates par wd p)[i]? = some c →
      (∃ kept : List Cand, kept.Pairwise (fun a b => a.off < b.off ∧ a.len < b.len) ∧
        (∀ e, e ∈ kept ↔ IsKept par wd (p + i) e) ∧
        c = match par.nCand with
          | none => kept
          | some k => kept.drop (kept.length - k)) ∧
      c.Pairwise (fun a b => a.off < b.off ∧ a.len < b.len) ∧
      ∀ e ∈ c,
        1 ≤ e.off ∧ e.off ≤ par.maxOffset ∧ e.off ≤ p + i ∧
        par.minMatch ≤ e.len ∧ e.len ≤ min par.matchLenCap par.maxLenDr ∧
        i + e.len + par.lastLiterals ≤ wd.length - p ∧
        ∀ t, t < e.len → wd[p + i - e.off + t]? = wd[p + i + t]?

/-- Positions without candidates (41_match_finder.md R153). -/
def Obligations.PositionsWithoutCandidates : Prop :=
  ∀ (par : Params) (wd : List Byte) (p i : Nat) (c : List Cand), par.Legal → p ≤ wd.length →
    (matchCandidates par wd p)[i]? = some c →
    (wd.length - p < i + par.minMatch + par.lastLiterals → c = []) ∧
    (p = 0 → i = 0 → c = []) ∧
    (par.lastLiterals = 5 → p = 0 → wd.length < 10 → c = []) ∧
    (par.lastLiterals = 5 → wd.length - p < 9 → c = [])

/-! ## The parse -/

/-- `S` and `CHOICE` (42_optimal_parser.md R164, R165): the entry of a position is the least of the literal-only
tail and of every option, and among the least ones the first in the order of the tie-break: a match before the
tail, then fewer literals, then the longer match, then the smaller offset. -/
def Obligations.ParseTableLeastAndFirst : Prop :=
  ∀ cands : List (List Cand), SortedCands cands →
    ∃ e es, parseTable cands = e :: es ∧ (cands ≠ [] → es = parseTable cands.tail) ∧ (cands = [] → es = []) ∧
      e.cost ≤ Cmd.cost (.last cands.length) ∧
      (∀ r c, IsOption cands r c → e.cost ≤ optionCost cands r c) ∧
      match e.choice with
      | .tail =>
        e.cost = Cmd.cost (.last cands.length) ∧ ∀ r c, IsOption cands r c → e.cost < optionCost cands r c
      | .seq r o k =>
        IsOption cands r ⟨o, k⟩ ∧ e.cost = optionCost cands r ⟨o, k⟩ ∧
        ∀ r' c, IsOption cands r' c → optionCost cands r' c = e.cost →
          r < r' ∨ (r = r' ∧ (c.len < k ∨ (c.len = k ∧ o ≤ c.off)))

/-- The parse is admissible (42_optimal_parser.md R161), costs `S[0]`, and no admissible parse costs less
(R164). -/
def Obligations.ParseIsOptimal : Prop :=
  ∀ cands : List (List Cand), SortedCands cands →
    Admissible cands (parse cands) ∧ parseCost (parse cands) = leastCost cands ∧
    ∀ cmds, Admissible cands cmds → leastCost cands ≤ parseCost cmds

/-- The properties of every parse the engine makes (42_optimal_parser.md R168 (a) to (d)), the least-cost one or
the parameter's (R169; log 15), and that the encoder's check (43_block_encoder.md R188) never fails on it; with the
default parameter it costs no more than any admissible parse (R168 (e)). -/
def Obligations.EngineParsePassesCheck : Prop :=
  ∀ (par : Params) (wd : List Byte) (p : Nat) (cmds : List Cmd), par.Legal → p ≤ wd.length →
    cmds = parseBy par (matchCandidates par wd p) →
    Admissible (matchCandidates par wd p) cmds ∧
    (cmds.map Cmd.span).sum = wd.length - p ∧
    (∃ (init : List Cmd) (r : Nat), cmds = init ++ [.last r] ∧ (∀ c ∈ init, ∃ r o k, c = .seq r o k) ∧
      (init ≠ [] → par.lastLiterals ≤ r)) ∧
    checkCmds par p (wd.length - p) 0 cmds = true ∧
    encodeBlock par p (wd.drop p) cmds ≠ .internal ∧
    (par.parses = [] → parseCost cmds = leastCost (matchCandidates par wd p) ∧
      ∀ other, Admissible (matchCandidates par wd p) other → parseCost cmds ≤ parseCost other)

/-! ## The encoder -/

/-- The bytes of one sequence (43_block_encoder.md R181 to R186): token, literal run bytes, literals, and for a
sequence that is not the last, offset and match run bytes. -/
def Obligations.SequenceBytes : Prop :=
  ∀ (r o k : Nat) (blk : List Byte),
    assemble (emitCmd (.seq r o k) blk) =
      [BitVec.ofNat 8 (16 * min r 15 + min (k - 4) 15)] ++
      (if 15 ≤ r then List.replicate ((r - 15) / 255) 0xFF ++ [BitVec.ofNat 8 ((r - 15) % 255)] else []) ++
      blk.take r ++ [BitVec.ofNat 8 (o % 256), BitVec.ofNat 8 (o / 256)] ++
      (if 15 ≤ k - 4 then
        List.replicate ((k - 19) / 255) 0xFF ++ [BitVec.ofNat 8 ((k - 19) % 255)] else []) ∧
    assemble (emitCmd (.last r) blk) =
      [BitVec.ofNat 8 (16 * min r 15)] ++
      (if 15 ≤ r then List.replicate ((r - 15) / 255) 0xFF ++ [BitVec.ofNat 8 ((r - 15) % 255)] else []) ++
      blk.take r

/-- The cost of a parse is the length of the payload emitted for it (42_optimal_parser.md R163, 30_encoding.md
R86). -/
def Obligations.PayloadLengthIsCost : Prop :=
  ∀ (cmds : List Cmd) (blk : List Byte), (cmds.map Cmd.span).sum ≤ blk.length →
    (assemble (emitCmds cmds blk)).length = parseCost cmds ∧
    parseCost cmds =
      (cmds.map fun c => match c with
        | .seq r _ k => seqLen r k
        | .last r => lastLen r).sum

/-- What the encoder returns (43_block_encoder.md R187, R188, R190): INTERNAL iff one of the five checks fails, else
INCOMPRESSIBLE iff the payload is longer than the block, else the payload, one of the block's length among them; the
payload is the bytes of the sequences in order (of one: `SequenceBytes`). And the size bound (R189): a payload
returned is no longer than the block, the literal-only parse is admissible for every block and longer than it, and a
block without candidates is INCOMPRESSIBLE. -/
def Obligations.EncoderSizeBound : Prop :=
  ∀ (par : Params) (p : Nat) (blk bytes : List Byte) (cmds : List Cmd),
    (encodeBlock par p blk cmds = .internal ↔ ¬ ChecksPass par p blk.length cmds) ∧
    (encodeBlock par p blk cmds = .incompressible ↔
      ChecksPass par p blk.length cmds ∧ blk.length < (assemble (emitCmds cmds blk)).length) ∧
    (encodeBlock par p blk cmds = .payload bytes ↔
      ChecksPass par p blk.length cmds ∧ (assemble (emitCmds cmds blk)).length ≤ blk.length ∧
        bytes = assemble (emitCmds cmds blk)) ∧
    assemble (emitCmds [] blk) = [] ∧
    (∀ c cs, assemble (emitCmds (c :: cs) blk) =
      assemble (emitCmd c blk) ++ assemble (emitCmds cs (blk.drop (match c with
        | .seq r _ k => r + k
        | .last r => r)))) ∧
    (encodeBlock par p blk cmds = .payload bytes → bytes.length ≤ blk.length) ∧
    parseCost [.last blk.length] = lastLen blk.length ∧ blk.length < lastLen blk.length ∧
    (∀ cands : List (List Cand), cands.length = blk.length → Admissible cands [.last blk.length]) ∧
    encodeBlock par p blk [.last blk.length] = .incompressible ∧
    (∀ cs, Admissible (List.replicate blk.length []) cs → encodeBlock par p blk cs = .incompressible) ∧
    encodeBlock par p blk (parse (List.replicate blk.length [])) = .incompressible

/-- Round trip (44_block_decoder.md R215): every admissible parse of a block over its own candidates, the
engine's among them, is emitted as a payload that decodes to the block, with the same prefix and any capacity
the block fits in. -/
def Obligations.BlockRoundTrip : Prop :=
  ∀ (par : Params) (wd : List Byte) (p cap : Nat) (cmds : List Cmd), par.Legal → p ≤ wd.length →
    wd.length - p ≤ cap → Admissible (matchCandidates par wd p) cmds →
    decodeBlock (assemble (emitCmds cmds (wd.drop p))) (wd.take p) cap = .ok wd

/-! ## The frame layer -/

/-- The frame header (45_frame_container.md R239, R232): the checks in order, then `blockMax`. FRAME_HEADER
completes where its BD and HC pass. The bytes 0xC0, 0x77, 0x96 and 0xDF are the table of R232, which a legal
parameter XXH32 gives (log 16). -/
def Obligations.FrameHeaderRead : Prop :=
  ∀ (s : State) (f : FrameRun), s.par.Legal → s.Reads f .readHeader →
    (f.src.length < 7 → agentStep .host s = .next (s.runEnded f (.failed .src none))) ∧
    (∀ m0 m1 m2 m3 flg bd hc rest, f.src = m0 :: m1 :: m2 :: m3 :: flg :: bd :: hc :: rest →
      (¬ (m0 = 0x04 ∧ m1 = 0x22 ∧ m2 = 0x4D ∧ m3 = 0x18) →
        agentStep .host s = .next (s.runEnded f (.failed .format none))) ∧
      (m0 = 0x04 → m1 = 0x22 → m2 = 0x4D → m3 = 0x18 →
        (flg ≠ 0x40 → agentStep .host s = .next (s.runEnded f (.failed .format none))) ∧
        (flg = 0x40 → bd ∉ [0x40, 0x50, 0x60, 0x70] →
          agentStep .host s = .next (s.runEnded f (.failed .format none))) ∧
        (flg = 0x40 → bd ∈ [0x40, 0x50, 0x60, 0x70] →
          agentStep .host s = exec (.frameHeader bd hc) s))) ∧
    (∀ (code : BlockCode) (hc : Byte) (accepted : Bool),
      accepted = (match s.par.hcMode with
        | .source => hc == 0xC0 || hc == (match code with | .c4 => 0xC0 | .c5 => 0x77 | .c6 => 0x96 | .c7 => 0xDF)
        | .computed => hc == (match code with | .c4 => 0xC0 | .c5 => 0x77 | .c6 => 0x96 | .c7 => 0xDF)
        | .strictSource => code == .c4 && hc == 0xC0) →
      (accepted = true →
        exec (.frameHeader (bdOf code) hc) s =
          .next (s.withRun { f with
            phase := .readBlock, src := f.src.drop 7
            blockMax := match code with | .c4 => 65536 | .c5 => 262144 | .c6 => 1048576 | .c7 => 4194304 })) ∧
      (accepted = false →
        exec (.frameHeader (bdOf code) hc) s = .next (s.runEnded f (.failed
          (if s.par.hcMode = .strictSource ∧ code ≠ .c4 then .format else .checksum) none))))

/-- The block header (45_frame_container.md R240): the checks in order. -/
def Obligations.BlockHeaderRead : Prop :=
  ∀ (s : State) (f : FrameRun), s.Reads f .readBlock →
    (f.src.length < 4 → agentStep .host s = .next (s.runEnded f (.failed .src none))) ∧
    (∀ b0 b1 b2 b3 rest (h size : Nat), f.src = b0 :: b1 :: b2 :: b3 :: rest →
      h = b0.toNat + 2 ^ 8 * b1.toNat + 2 ^ 16 * b2.toNat + 2 ^ 24 * b3.toNat → size = h % 2 ^ 31 →
      (h = 0 → agentStep .host s = exec .blkEndmark s) ∧
      (h = 0x80000000 → agentStep .host s = .next (s.runEnded f (.failed .decompression none))) ∧
      (size ≠ 0 → f.blockMax < size →
        agentStep .host s = .next (s.runEnded f (.failed .decompression none))) ∧
      (size ≠ 0 → size ≤ f.blockMax → rest.length < size →
        agentStep .host s = .next (s.runEnded f (.failed .src none))) ∧
      (size ≠ 0 → h < 2 ^ 31 → agentStep .host s = exec (.blkCompressed (BitVec.ofNat 31 size)) s) ∧
      (size ≠ 0 → 2 ^ 31 ≤ h → agentStep .host s = exec (.blkUncompressed (BitVec.ofNat 31 size)) s))

/-- The blocks and the end of a frame (45_frame_container.md R241, R242, R234). BLK_COMPRESSED completes by
issuing DECOMPRESS_BLOCK for its payload with the prefix and CAP = blockMax, at the host's buffers (log 17);
BLK_UNCOMPRESSED by appending its bytes; BLK_ENDMARK by ending the run, where the run does not verify. When the
DECOMPRESS_BLOCK has ended: OK appends W[P, P + OUT_LEN), makes it the previous block and the next block header is
read; DECOMPRESSION_ERROR ends the run ERR_DECOMPRESSION; all in one turn of the host, the model's cut (log 37). -/
def Obligations.BlockRead : Prop :=
  ∀ (s : State) (f : FrameRun) (hist : List Byte), s.Reads f .readBlock →
    hist = (match f.prev with
      | none => f.dict
      | some b => if f.opts.dependent then b.drop (b.length - 65536) else []) →
    (∀ size : BitVec 31, size ≠ 0 → size.toNat ≤ f.blockMax → size.toNat + 4 ≤ f.src.length →
      exec (.blkCompressed size) s = .next (s.withRun { f with
        phase := .awaitDecompress
        src := f.src.drop (4 + size.toNat)
        todo :=
          [.store s.par.hostWindow.toNat hist,
            .store s.par.hostPayload.toNat ((f.src.drop 4).take size.toNat),
            .store (s.par.ifaceBase + 0x08) (wordBytes s.par.hostWindow),
            .store (s.par.ifaceBase + 0x0C) (wordBytes (BitVec.ofNat 32 hist.length)),
            .store (s.par.ifaceBase + 0x10) (wordBytes (BitVec.ofNat 32 f.blockMax)),
            .store (s.par.ifaceBase + 0x14) (wordBytes s.par.hostPayload),
            .store (s.par.ifaceBase + 0x18) (wordBytes (BitVec.ofNat 32 size.toNat)),
            .store (s.par.ifaceBase + 0x00) (wordBytes 2), .wait] })) ∧
    (∀ size : BitVec 31, size ≠ 0 → size.toNat ≤ f.blockMax → size.toNat + 4 ≤ f.src.length →
      exec (.blkUncompressed size) s = .next (s.withRun { f with
        src := f.src.drop (4 + size.toNat)
        out := f.out ++ (f.src.drop 4).take size.toNat
        prev := some ((f.src.drop 4).take size.toNat) })) ∧
    (exec (.blkUncompressed 0) s = .next (s.runEnded f (.failed .decompression none))) ∧
    (f.produced = none →
      exec .blkEndmark s = .next (s.runEnded { f with src := f.src.drop 4 }
        (if f.dstOk then .success else .failed .dst none))) ∧
    (∀ (t : State) (g : FrameRun) (block : List Byte), t.Reads g .awaitDecompress → t.busy = false →
      g.opts.raw = false → g.prev = f.prev → g.dict = f.dict → g.opts.dependent = f.opts.dependent →
      block = t.mem.readRange (t.par.hostWindow.toNat + hist.length) t.eng.outLen.toNat →
      (t.eng.code = .ok →
        agentStep .host t =
          .next (t.withRun { g with phase := .readBlock, out := g.out ++ block, prev := some block })) ∧
      (t.eng.code = .decompressionError →
        agentStep .host t = .next (t.runEnded g (.failed .decompression none))))

/-- The footer of a raw stream (45_frame_container.md R244, R245): ERR_FORMAT where it is not `00 00`; else
RAW_FOOTER completes by issuing DECOMPRESS_BLOCK for the bytes before it with the dictionary as prefix (of a
run that has decoded no block) and CAP = RAW_LIMIT, at the host's buffers (log 17), however long they are (log 36).
When it has ended: OK emits W[P, P + OUT_LEN) and ends the run, where the run does not verify; DECOMPRESSION_ERROR
ends it ERR_DECOMPRESSION; all in one turn of the host, the model's cut (log 37). -/
def Obligations.RawFooterRead : Prop :=
  ∀ (s : State) (f : FrameRun), s.par.Legal → s.Reads f .readFooter → f.prev = none →
    (f.src.length < 2 ∨ f.src.drop (f.src.length - 2) ≠ [0, 0] →
      agentStep .host s = .next (s.runEnded f (.failed .format none))) ∧
    (∀ y, f.src = y ++ [0, 0] →
      agentStep .host s = exec .rawFooter s ∧
      exec .rawFooter s = .next (s.withRun { f with
        phase := .awaitDecompress
        src := []
        todo :=
          [.store s.par.hostWindow.toNat f.dict, .store s.par.hostPayload.toNat y,
            .store (s.par.ifaceBase + 0x08) (wordBytes s.par.hostWindow),
            .store (s.par.ifaceBase + 0x0C) (wordBytes (BitVec.ofNat 32 f.dict.length)),
            .store (s.par.ifaceBase + 0x10) (wordBytes 65535),
            .store (s.par.ifaceBase + 0x14) (wordBytes s.par.hostPayload),
            .store (s.par.ifaceBase + 0x18) (wordBytes (BitVec.ofNat 32 y.length)),
            .store (s.par.ifaceBase + 0x00) (wordBytes 2), .wait] })) ∧
    (∀ (t : State) (g : FrameRun) (block : List Byte), t.Reads g .awaitDecompress → t.busy = false →
      g.opts.raw = true → g.prev = none → g.dict = f.dict →
      block = t.mem.readRange (t.par.hostWindow.toNat + f.dict.length) t.eng.outLen.toNat →
      (t.eng.code = .ok → g.produced = none →
        agentStep .host t = .next (t.runEnded { g with out := g.out ++ block, prev := some block }
          (if g.dstOk then .success else .failed .dst none))) ∧
      (t.eng.code = .decompressionError →
        agentStep .host t = .next (t.runEnded g (.failed .decompression none))))

/-- A container word touches the frame-layer run alone: no register, no byte of memory, no access of the host's
program (45_frame_container.md: "The engine itself never reads or writes a frame header, block header or
footer"). -/
def Obligations.ContainerWordFrame : Prop :=
  ∀ (i : Instr) (s t : State),
    (match i with
      | .blkCompressed _ | .blkUncompressed _ | .blkEndmark | .frameHeader _ _ | .rawFooter => True
      | _ => False) →
    exec i s = .next t → ∃ f, t = s.withRun f

/-- The header emitted and the split into blocks (45_frame_container.md R231, R232, R233, R234, R236): the 7 header
bytes; then each block's window, its prefix and its COMPRESS_BLOCK, at the host's buffers (log 17); after the last block the end mark (where the run
verifies: `VerifyFindsFirstDifference`). -/
def Obligations.FrameEmission : Prop :=
  ∀ (s : State) (f : FrameRun) (hist : List Byte), s.par.Legal →
    hist = (match f.prev with
      | none => f.dict
      | some b => if f.opts.dependent then b.drop (b.length - 65536) else []) →
    (s.Reads f .emitHeader → agentStep .host s = .next (s.withRun { f with
      phase := .nextBlock
      out := f.out ++ [0x04, 0x22, 0x4D, 0x18, 0x40,
        (match f.opts.code.getD .c7 with | .c4 => 0x40 | .c5 => 0x50 | .c6 => 0x60 | .c7 => 0x70),
        (if s.par.hcMode = .computed then
          match f.opts.code.getD .c7 with | .c4 => 0xC0 | .c5 => 0x77 | .c6 => 0x96 | .c7 => 0xDF
        else 0xC0)] })) ∧
    (s.Reads f .nextBlock → f.src ≠ [] → agentStep .host s = .next (s.withRun { f with
      phase := .awaitCompress
      src := f.src.drop f.blockMax
      block := f.src.take f.blockMax
      todo :=
        [.store s.par.hostWindow.toNat (hist ++ f.src.take f.blockMax),
          .store (s.par.ifaceBase + 0x08) (wordBytes s.par.hostWindow),
          .store (s.par.ifaceBase + 0x0C) (wordBytes (BitVec.ofNat 32 hist.length)),
          .store (s.par.ifaceBase + 0x10) (wordBytes (BitVec.ofNat 32 (f.src.take f.blockMax).length)),
          .store (s.par.ifaceBase + 0x1C) (wordBytes s.par.hostOutput),
          .store (s.par.ifaceBase + 0x00) (wordBytes 1), .wait] })) ∧
    (s.Reads f .nextBlock → f.src = [] → f.opts.verify = false → agentStep .host s = .next
      (s.runEnded { f with out := f.out ++ [0, 0, 0, 0] } (if f.dstOk then .success else .failed .dst none)))

/-- The block emitted (45_frame_container.md R235), by STATUS.CODE after a COMPRESS_BLOCK, in one turn of the host,
the model's cut (log 37), from the host's buffer (log 17). -/
def Obligations.BlockEmission : Prop :=
  ∀ (s : State) (f : FrameRun), s.Reads f .awaitCompress → s.busy = false → f.opts.raw = false →
    f.block.length < 2 ^ 31 →
    (∀ payload : List Byte, s.eng.code = .ok → s.eng.outLen.toNat < 2 ^ 31 →
      payload = s.mem.readRange s.par.hostOutput.toNat s.eng.outLen.toNat →
      agentStep .host s = .next (s.withRun { f with
        phase := .nextBlock, block := [], prev := some f.block,
        out := f.out ++ (wordBytes s.eng.outLen ++ payload) })) ∧
    (s.eng.code = .incompressible →
      agentStep .host s = .next (s.withRun { f with
        phase := .nextBlock, block := [], prev := some f.block,
        out := f.out ++ (wordBytes (BitVec.ofNat 32 f.block.length ||| 0x80000000) ++ f.block) })) ∧
    (s.eng.code = .compressionInternal ∨ s.eng.code = .badCommand →
      agentStep .host s = .next (s.runEnded f (.failed .compression none)))

/-- The start of a run and raw mode (45_frame_container.md R230, R237, R238, R239, R243, R244): no dictionary is an
empty one, else its last DICT_LIMIT bytes are loaded, and an unreadable one is ERR_DICTIONARY; an unreadable input
is ERR_SRC; a decompress run reads the frame header, in raw mode the footer; a raw input above RAW_LIMIT is
RAW_TOOLARGE with nothing compressed, else it is one block with the dictionary as its prefix, at the host's buffers
(log 17); a raw block that is INCOMPRESSIBLE is RAW_UNCOMPRESSED, else its payload and `00 00` are the stream, collected in
one turn of the host (log 37). The order of the I/O failures, among themselves and before RAW_TOOLARGE, is the
model's (log 18). -/
def Obligations.RunStartAndRawMode : Prop :=
  (∀ (s : State) (j : Job), s.par.Legal →
    (j.memoryOk = false → ∃ f, startJob j s = s.runEnded f (.failed .memory none)) ∧
    (j.memoryOk = true → j.dict = .unreadable → ∃ f, startJob j s = s.runEnded f (.failed .dictionary none)) ∧
    (j.memoryOk = true → j.dict ≠ .unreadable → j.src = none →
      ∃ f, startJob j s = s.runEnded f (.failed .src none)) ∧
    (∀ d x blockMax, j.memoryOk = true → (j.dict = .absent ∧ d = [] ∨ j.dict = .bytes d) → j.src = some x →
      blockMax = (match j.opts.code.getD .c7 with | .c4 => 65536 | .c5 => 262144 | .c6 => 1048576 | .c7 => 4194304) →
      (j.opts.decompress = true → startJob j s = s.withRun
        { phase := if j.opts.raw then .readFooter else .readHeader, opts := j.opts,
          dict := d.drop (d.length - 65535), src := x, input := x, blockMax := blockMax,
          dstOk := j.dstOk }) ∧
      (j.opts.decompress = false → j.opts.raw = false → startJob j s = s.withRun
        { phase := .emitHeader, opts := j.opts, dict := d.drop (d.length - 65535), src := x, input := x,
          blockMax := blockMax, dstOk := j.dstOk }) ∧
      (j.opts.decompress = false → j.opts.raw = true → 65535 < x.length →
        ∃ f, startJob j s = s.runEnded f (.failed .rawTooLarge none) ∧ f.out = []) ∧
      (j.opts.decompress = false → j.opts.raw = true → x.length ≤ 65535 →
        ∃ f, startJob j s = s.withRun f ∧ f.phase = .awaitCompress ∧ f.block = x ∧ f.src = [] ∧ f.out = [] ∧
          f.opts = j.opts ∧
          f.todo =
            [.store s.par.hostWindow.toNat (d.drop (d.length - 65535) ++ x),
              .store (s.par.ifaceBase + 0x08) (wordBytes s.par.hostWindow),
              .store (s.par.ifaceBase + 0x0C) (wordBytes (BitVec.ofNat 32 (min d.length 65535))),
              .store (s.par.ifaceBase + 0x10) (wordBytes (BitVec.ofNat 32 x.length)),
              .store (s.par.ifaceBase + 0x1C) (wordBytes s.par.hostOutput),
              .store (s.par.ifaceBase + 0x00) (wordBytes 1), .wait]))) ∧
  (∀ (s : State) (f : FrameRun) (payload : List Byte), s.Reads f .awaitCompress → s.busy = false →
    f.opts.raw = true → payload = s.mem.readRange s.par.hostOutput.toNat s.eng.outLen.toNat →
    (s.eng.code = .incompressible →
      agentStep .host s = .next (s.runEnded f (.failed .rawUncompressed none))) ∧
    (s.eng.code = .ok → f.opts.verify = false →
      agentStep .host s = .next (s.runEnded { f with out := f.out ++ payload ++ [0, 0], block := [] }
        (if f.dstOk then .success else .failed .dst none))))

/-- Verify (45_frame_container.md R246; log 28, and log 17, log 37 for the results a turn collects): a run that verifies decodes the stream it produced, framed or raw;
when that decode is done, equal streams end in success and a difference ends ERR_DST with the first differing
offset. That offset is nowhere iff the streams are equal; else it is the first at which they differ, the shorter
length where one continues the other. -/
def Obligations.VerifyFindsFirstDifference : Prop :=
  (∀ x y : List Byte,
    (firstDiff x y = none ↔ x = y) ∧
    ∀ d, firstDiff x y = some d ↔ x ≠ y ∧ x.take d = y.take d ∧ d ≤ x.length ∧ d ≤ y.length ∧ x[d]? ≠ y[d]?) ∧
  (∀ (s : State) (f : FrameRun), s.Reads f .nextBlock → f.src = [] → f.opts.verify = true → f.opts.raw = false →
    agentStep .host s = .next (s.withRun { f with
      phase := .readHeader, src := f.out ++ [0, 0, 0, 0], out := [], prev := none, block := [],
      produced := some (f.out ++ [0, 0, 0, 0]) })) ∧
  (∀ (s : State) (f : FrameRun) (stream : List Byte), s.Reads f .awaitCompress → s.busy = false →
    s.eng.code = .ok → f.opts.verify = true → f.opts.raw = true →
    stream = f.out ++ s.mem.readRange s.par.hostOutput.toNat s.eng.outLen.toNat ++ [0, 0] →
    agentStep .host s = .next (s.withRun { f with
      phase := .readFooter, src := stream, out := [], prev := none, block := [], produced := some stream })) ∧
  (∀ (s : State) (f : FrameRun) (stream : List Byte), s.Reads f .readBlock → f.produced = some stream →
    (f.out = f.input → exec .blkEndmark s =
      .next (s.runEnded { f with src := f.src.drop 4, out := stream }
        (if f.dstOk then .success else .failed .dst none))) ∧
    (∀ d, firstDiff f.out f.input = some d → exec .blkEndmark s =
      .next (s.runEnded { f with src := f.src.drop 4, out := stream } (.failed .dst (some d))))) ∧
  (∀ (s : State) (f : FrameRun) (stream block : List Byte), s.Reads f .awaitDecompress → s.busy = false →
    s.eng.code = .ok → f.opts.raw = true → f.prev = none → f.produced = some stream →
    block = s.mem.readRange (s.par.hostWindow.toNat + f.dict.length) s.eng.outLen.toNat →
    (f.out ++ block = f.input → agentStep .host s =
      .next (s.runEnded { f with out := stream, prev := some block }
        (if f.dstOk then .success else .failed .dst none))) ∧
    (∀ d, firstDiff (f.out ++ block) f.input = some d → agentStep .host s =
      .next (s.runEnded { f with out := stream, prev := some block } (.failed .dst (some d)))))

/-! ## The whole machine -/

/-- Hands off while BUSY (20_memory.md R69; Guarded is part of the invariant), and every other host access to plain
memory made. A host write to a byte of a running command's read or write set, or a host read of a byte of its write
set, is refused (log 26 for a range that passes the top of memory). Off the ranges the host keeps its hands off,
outside the register file, devices and memory not provided (log 25), a load returns the bytes and a store writes them
and nothing else (R68). Those ranges are added by a CMD write, its command's sets alone, and kept until a read of
STATUS with DONE = 1 empties them (R70, 70_reset_and_hazards.md R296; log 33). -/
def Obligations.HandsOffWhileBusy : Prop :=
  (∀ (s : State) (ld : Desc) (st : Stage) (addr : Nat) (bs : List Byte) (r : Region), s.Guarded →
    s.eng.phase = .busy ld st → addr + bs.length ≤ 2 ^ s.par.addrW →
    meets ⟨addr, bs.length⟩ (registerFile s.par) = false → meets ⟨addr, bs.length⟩ r = true →
    (r ∈ readSet s.par s.eng.cmdOp ld ++ writeSet s.par s.eng.cmdOp ld →
      ∃ ρ, hostStore addr bs s = .refused ρ) ∧
    (r ∈ writeSet s.par s.eng.cmdOp ld → ∃ ρ, hostLoad addr bs.length s = .refused ρ)) ∧
  (∀ (s : State) (addr n : Nat) (bs : List Byte), addr + n ≤ 2 ^ s.par.addrW → bs.length = n →
    meets ⟨addr, n⟩ (registerFile s.par) = false →
    (∀ r ∈ s.par.sideEffect ++ s.par.notProvided, meets ⟨addr, n⟩ r = false) →
    ((∀ r ∈ s.host.guardWrite, meets ⟨addr, n⟩ r = false) →
      hostLoad addr n s = .next { s with host := { s.host with rdata := s.mem.readRange addr n } }) ∧
    ((∀ r ∈ s.host.guardRead ++ s.host.guardWrite, meets ⟨addr, n⟩ r = false) →
      ∃ t, hostStore addr bs s = .next t ∧ t.mem.readRange addr n = bs ∧
        (∀ a, a < addr ∨ addr + n ≤ a → t.mem.read a = s.mem.read a) ∧
        t.eng = s.eng ∧ t.draws = s.draws ∧ SameOutside s t)) ∧
  (∀ s : State, s.par.Legal →
    (∃ t, hostLoad (s.par.ifaceBase + 0x04) 4 s = .next t ∧ t.host.rdata = wordBytes (statusWord s.eng) ∧
      (s.eng.done = true → t.host.guardRead = [] ∧ t.host.guardWrite = []) ∧
      (s.eng.done = false → t.host.guardRead = s.host.guardRead ∧ t.host.guardWrite = s.host.guardWrite)) ∧
    (∀ v : Word, s.busy = false →
      ∃ t, hostStore s.par.ifaceBase (wordBytes v) s = .next t ∧
        t.host.guardRead = s.host.guardRead ++ readSet s.par (v.extractLsb' 0 4) (latch s.eng) ∧
        t.host.guardWrite = s.host.guardWrite ++ writeSet s.par (v.extractLsb' 0 4) (latch s.eng)))

/-- What a host turn leaves of a running command (20_memory.md R68 (c), R72; 10_state.md R35): the engine and
every byte of the command's read and write sets. -/
def Obligations.HostTurnLeavesRunningCommand : Prop :=
  ∀ (s t : State) (ld : Desc) (st : Stage), s.Inv → s.eng.phase = .busy ld st →
    agentStep .host s = .next t →
    t.eng = s.eng ∧
    ∀ r ∈ readSet s.par s.eng.cmdOp ld ++ writeSet s.par s.eng.cmdOp ld,
      ∀ a, holds r a = true → t.mem.read a = s.mem.read a

/-- Every step keeps the invariant: canonical memory, legal STATUS, a legal stage, the hands-off record, and base
addresses of ADDR_W bits. -/
def Obligations.StepKeepsInvariant : Prop :=
  ∀ s t : State, s.Inv → step s = .next t → t.Inv

/-- The invariant holds at reset. -/
def Obligations.ResetHasInvariant : Prop := State.reset.Inv

/-- The parameters are fixed (10_state.md R44, 70_reset_and_hazards.md R293). -/
def Obligations.StepKeepsParameters : Prop :=
  ∀ s t : State, step s = .next t → t.par = s.par

/-- BUSY is set by a command start alone, which latches the registers of that moment, and left only by the
completion step, which sets DONE, or by reset; no step cancels a command, and an IDLE engine does nothing
(10_state.md R21, R39; 60_exceptions.md R283, R284). -/
def Obligations.BusyOnlyFromStartToCompletion : Prop :=
  (∀ s : State, s.eng.phase = .idle → agentStep .engine s = .next s) ∧
  ∀ s t : State, step s = .next t →
    (s.busy = false → t.busy = true →
      ∃ w, t.eng = { s.eng with
        phase := .busy (latch s.eng) (.pending w), cmdOp := wordOp w, done := false, code := .ok,
        detail := .none }) ∧
    (s.busy = true → t.busy = false → t.eng.done = true ∨ ∃ es, s.inputs = .reset :: es) ∧
    (∀ ld ld' st st', s.eng.phase = .busy ld st → t.eng.phase = .busy ld' st' → ld' = ld)

/-- Every started command ends (70_reset_and_hazards.md R300, 10_state.md R21): left its turns, a BUSY engine
reaches IDLE with DONE = 1 in finitely many steps, or the model refuses the buffers the host gave. -/
def Obligations.EveryStartedCommandEnds : Prop :=
  ∀ s : State, s.Inv → s.busy = true → s.inputs = [] → s.EndsOrRefused
end

