-- ==== Sys2Proof/Laws/Decode.lean ====
section
/-! SUPPORT. The laws of words and their fields, of the run bytes, and of the decoder. -/

namespace Sys2Proof

/-! ## Words and bytes -/

theorem le32_wordBytes (w : Word) :
    le32 (w.extractLsb' 0 8) (w.extractLsb' 8 8) (w.extractLsb' 16 8) (w.extractLsb' 24 8) = w := by
  unfold le32
  apply BitVec.eq_of_getLsbD_eq
  intro i hi
  simp only [BitVec.getLsbD_append, BitVec.getLsbD_extractLsb']
  by_cases h1 : i < 8
  · simp [h1]
  · by_cases h2 : i - 8 < 8
    · have : 8 + (i - 8) = i := by omega
      simp [h1, h2, this]
    · by_cases h3 : i - 8 - 8 < 8
      · have : 16 + (i - 8 - 8) = i := by omega
        simp [h1, h2, h3, this]
      · have : 24 + (i - 8 - 8 - 8) = i := by omega
        have h4 : i - 8 - 8 - 8 < 8 := by omega
        simp [h1, h2, h3, h4, this]

theorem wordBytes_le32 (a b c d : Byte) : wordBytes (le32 a b c d) = [a, b, c, d] := by
  unfold wordBytes le32
  simp only [List.cons.injEq, and_true]
  refine ⟨?_, ?_, ?_, ?_⟩ <;> apply BitVec.eq_of_getLsbD_eq <;> intro i hi <;>
    simp only [BitVec.getLsbD_extractLsb', BitVec.getLsbD_append, hi, decide_true, Bool.true_and]
  · simp [hi]
  · have h1 : ¬ 8 + i < 8 := by omega
    simp [h1, hi]
  · have h1 : ¬ 16 + i < 8 := by omega
    have h2 : ¬ 16 + i - 8 < 8 := by omega
    have h3 : 16 + i - 8 - 8 = i := by omega
    simp [h1, h2, h3, hi]
  · have h1 : ¬ 24 + i < 8 := by omega
    have h2 : ¬ 24 + i - 8 < 8 := by omega
    have h3 : ¬ 24 + i - 8 - 8 < 8 := by omega
    have h4 : 24 + i - 8 - 8 - 8 = i := by omega
    simp [h1, h2, h3, h4, hi]

theorem le32_toNat (a b c d : Byte) :
    (le32 a b c d).toNat = a.toNat + 2 ^ 8 * b.toNat + 2 ^ 16 * c.toNat + 2 ^ 24 * d.toNat := by
  unfold le32
  have ha := a.isLt
  have hb := b.isLt
  have hc := c.isLt
  rw [BitVec.toNat_append, BitVec.toNat_append, BitVec.toNat_append,
    ← Nat.shiftLeft_add_eq_or_of_lt (by omega), ← Nat.shiftLeft_add_eq_or_of_lt (by omega),
    ← Nat.shiftLeft_add_eq_or_of_lt (by omega)]
  simp only [Nat.shiftLeft_eq]
  omega

theorem wordBytes_length (w : Word) : (wordBytes w).length = 4 := rfl

/-- A command word is its bits 31:4 and its OP (30_encoding.md R94). -/
theorem word_split (w : Word) : w.extractLsb' 4 28 ++ w.extractLsb' 0 4 = w := by
  apply BitVec.eq_of_getLsbD_eq
  intro i hi
  simp only [BitVec.getLsbD_append, BitVec.getLsbD_extractLsb']
  by_cases h1 : i < 4
  · simp [h1]
  · have : 4 + (i - 4) = i := by omega
    have h3 : i - 4 < 28 := by omega
    simp [h1, h3, this]

theorem low_append {n k : Nat} (x : BitVec n) (y : BitVec k) : (x ++ y).extractLsb' 0 k = y := by
  apply BitVec.eq_of_getLsbD_eq
  intro i hi
  rw [BitVec.getLsbD_extractLsb', BitVec.getLsbD_append]
  simp [hi]

theorem high_append {n k : Nat} (x : BitVec n) (y : BitVec k) : (x ++ y).extractLsb' k n = x := by
  apply BitVec.eq_of_getLsbD_eq
  intro i hi
  have : ¬ k + i < k := by omega
  rw [BitVec.getLsbD_extractLsb', BitVec.getLsbD_append]
  simp [hi, this]

theorem wordOp_append (g : BitVec 28) (op : BitVec 4) : Machine.wordOp (g ++ op) = op := low_append g op

/-- A token is its two nibbles (30_encoding.md R81). -/
theorem tokenLn_append (ln mn : BitVec 4) : tokenLn (ln ++ mn) = ln := high_append ln mn

theorem tokenMn_append (ln mn : BitVec 4) : tokenMn (ln ++ mn) = mn := low_append ln mn

theorem token_split (t : Byte) : tokenLn t ++ tokenMn t = t := by
  apply BitVec.eq_of_getLsbD_eq
  intro i hi
  unfold tokenLn tokenMn
  simp only [BitVec.getLsbD_append, BitVec.getLsbD_extractLsb']
  by_cases h1 : i < 4
  · simp [h1]
  · have : 4 + (i - 4) = i := by omega
    have h3 : i - 4 < 4 := by omega
    simp [h1, h3, this]

/-- A block header word is its bit 31 and its size (30_encoding.md R90). -/
theorem header_split (h : Word) : h.extractLsb' 31 1 ++ h.extractLsb' 0 31 = h := by
  apply BitVec.eq_of_getLsbD_eq
  intro i hi
  simp only [BitVec.getLsbD_append, BitVec.getLsbD_extractLsb']
  by_cases h1 : i < 31
  · simp [h1]
  · have : i = 31 := by omega
    subst this
    simp

/-! ## Runs (30_encoding.md R83) -/

theorem readRun_replicate (c : Nat) (e : Byte) (rest : List Byte) (he : e ≠ 0xFF) :
    readRun (List.replicate c 0xFF ++ e :: rest) = some (255 * c + e.toNat, rest) := by
  induction c with
  | zero =>
    rw [List.replicate_zero, List.nil_append, readRun, if_neg he]
    simp
  | succ c ih =>
    rw [List.replicate_succ, List.cons_append, readRun, if_pos rfl, ih]
    simp only [Option.map_some, Option.some.injEq, Prod.mk.injEq, and_true]
    omega

theorem readRun_length {bs r : List Byte} {v : Nat} (h : readRun bs = some (v, r)) : r.length < bs.length := by
  induction bs generalizing v r with
  | nil => simp [readRun] at h
  | cons b bs ih =>
    unfold readRun at h
    split at h
    · rw [Option.map_eq_some_iff] at h
      obtain ⟨⟨v', r'⟩, h', hx⟩ := h
      have hr : r' = r := by simpa using congrArg Prod.snd hx
      have := ih h'
      subst hr
      simp only [List.length_cons]
      omega
    · simp only [Option.some.injEq, Prod.mk.injEq] at h
      rw [← h.2]
      simp

/-! ## The decoder -/

theorem decode_command (w : Word) (rest : List Byte) :
    decode .command (wordBytes w ++ rest) = .ok (decodeCommand w, rest) := by
  simp [wordBytes, decode, le32_wordBytes]

theorem decode_blockHeader (w : Word) (rest : List Byte) :
    decode .blockHeader (wordBytes w ++ rest) = .ok (decodeBlockHeader w, rest) := by
  simp [wordBytes, decode, le32_wordBytes]

theorem decodeCommand_append (g : BitVec 28) (op : BitVec 4) :
    decodeCommand (g ++ op) =
      if op = 1 then .compressBlock g else if op = 2 then .decompressBlock g else .reservedCmd op g := by
  unfold decodeCommand
  rw [low_append, high_append]

theorem decodeBlockHeader_append (b : BitVec 1) (size : BitVec 31) :
    decodeBlockHeader (b ++ size) =
      if b = 0 then if size = 0 then .blkEndmark else .blkCompressed size else .blkUncompressed size := by
  unfold decodeBlockHeader
  rw [low_append, high_append]
  have hz : b ++ size = (0 : Word) ↔ b = 0 ∧ size = 0 := by
    constructor
    · intro h
      constructor
      · rw [← high_append b size, h]; rfl
      · rw [← low_append b size, h]; rfl
    · rintro ⟨rfl, rfl⟩; rfl
  by_cases hb : b = 0
  · by_cases hs : size = 0
    · rw [if_pos (hz.2 ⟨hb, hs⟩), if_pos hb, if_pos hs]
    · rw [if_neg (fun h => hs (hz.1 h).2), if_pos hb, if_pos hb, if_neg hs]
  · rw [if_neg (fun h => hb (hz.1 h).1), if_neg hb, if_neg hb]

end Sys2Proof
end

