-- ==== Sys2Proof/Laws/Decoder.lean ====
section
/-! SUPPORT. What the decode datapath can do: the match copy appends, and a payload that decodes gives the
history with at most CAP bytes after it. -/

namespace Sys2Proof.Machine

@[simp] theorem copyMatch_length (win : List Byte) (off len : Nat) :
    (copyMatch win off len).length = win.length + len := by
  induction len generalizing win with
  | zero => rfl
  | succ len ih =>
    rw [copyMatch, ih, List.length_append, List.length_singleton]
    omega

/-- The copy only appends. -/
theorem copyMatch_eq_append (win : List Byte) (off len : Nat) :
    ∃ out, copyMatch win off len = win ++ out ∧ out.length = len := by
  induction len generalizing win with
  | zero => exact ⟨[], by simp [copyMatch], rfl⟩
  | succ len ih =>
    obtain ⟨out, h, hl⟩ := ih (win ++ [win.getD (win.length - off) 0])
    exact ⟨win.getD (win.length - off) 0 :: out, by rw [copyMatch, h]; simp, by simp [hl]⟩

/-- What a pass of R211's loop may answer, from `rest` and `win`: it decodes past neither the capacity nor the
payload, and it reads something. -/
def SeqResult.Good (n p cap : Nat) (rest win : List Byte) : SeqResult → Prop
  | .ended (.ok win') => ∃ out, win' = win ++ out ∧ win'.length ≤ p + cap
  | .ended (.fail _ pos) => pos ≤ n
  | .more rest' win' => rest'.length < rest.length ∧ ∃ out, win' = win ++ out ∧ win'.length ≤ p + cap

/-- What one pass of R211's loop can do. -/
theorem decodeSeq_good {n p cap : Nat} {rest win : List Byte} (hp : p ≤ win.length)
    (hn : rest.length ≤ n) : (decodeSeq n p cap rest win).Good n p cap rest win := by
  unfold decodeSeq
  match rest, hn with
  | [], _ => exact Nat.le_refl _
  | t :: r, hn =>
    simp only [List.length_cons] at hn
    dsimp only
    cases hl : readLitLen (tokenLn t) r with
    | none => exact Nat.le_refl _
    | some x =>
      obtain ⟨lit, r'⟩ := x
      have hr' : r'.length ≤ r.length := by
        unfold readLitLen at hl
        split at hl
        · rw [Option.map_eq_some_iff] at hl
          obtain ⟨⟨v, q⟩, hq, hx⟩ := hl
          have := readRun_length hq
          simp only [Prod.mk.injEq] at hx
          rw [← hx.2]
          omega
        · simp only [Option.some.injEq, Prod.mk.injEq] at hl
          rw [hl.2]
      dsimp only
      split
      · exact Nat.sub_le _ _
      · rename_i h1
        split
        · exact Nat.sub_le _ _
        · rename_i h2
          have hw : (win ++ r'.take lit).length = win.length + lit := by
            rw [List.length_append, List.length_take]
            omega
          split
          · split
            · exact ⟨_, rfl, by rw [hw]; omega⟩
            · exact Nat.le_refl _
          · rename_i h3
            unfold decodeMatch
            match hd : r'.drop lit with
            | [] => exact Nat.sub_le _ _
            | [_] => exact Nat.sub_le _ _
            | lo :: hi :: q =>
              have hq := congrArg List.length hd
              simp only [List.length_drop, List.length_cons] at hq
              dsimp only
              split
              · exact Nat.sub_le _ _
              · cases hm : readMatchLen (tokenMn t) q with
                | none => exact Nat.le_refl _
                | some y =>
                  obtain ⟨mlen, q'⟩ := y
                  have hq' : q'.length ≤ q.length := by
                    unfold readMatchLen at hm
                    split at hm
                    · rw [Option.map_eq_some_iff] at hm
                      obtain ⟨⟨v, z⟩, hz, hx⟩ := hm
                      have := readRun_length hz
                      simp only [Prod.mk.injEq] at hx
                      rw [← hx.2]
                      omega
                    · simp only [Option.some.injEq, Prod.mk.injEq] at hm
                      rw [hm.2]
                  dsimp only
                  split
                  · exact Nat.sub_le _ _
                  · rename_i h4
                    obtain ⟨out, ho, hol⟩ := copyMatch_eq_append (win ++ r'.take lit) (le16 lo hi) mlen
                    refine ⟨by simp only [List.length_cons]; omega, r'.take lit ++ out, ?_, ?_⟩
                    · rw [ho, List.append_assoc]
                    · rw [copyMatch_length]
                      omega

theorem decodeLoop_cases {n p cap fuel : Nat} {rest win : List Byte} (hp : p ≤ win.length)
    (hn : rest.length ≤ n) :
    match decodeLoop n p cap fuel rest win with
    | .ok win' => ∃ out, win' = win ++ out ∧ win'.length ≤ p + cap
    | .fail _ pos => pos ≤ n := by
  induction fuel generalizing rest win with
  | zero => exact Nat.le_refl _
  | succ fuel ih =>
    have hs := decodeSeq_good (n := n) (cap := cap) hp hn
    unfold decodeLoop
    cases hd : decodeSeq n p cap rest win with
    | ended r =>
      rw [hd] at hs
      cases r <;> exact hs
    | more rest' win' =>
      rw [hd] at hs
      obtain ⟨h1, out, rfl, h3⟩ := hs
      have := ih (rest := rest') (win := win ++ out) (by rw [List.length_append]; omega) (by omega)
      dsimp only
      cases hx : decodeLoop n p cap fuel rest' (win ++ out) with
      | ok win'' =>
        rw [hx] at this
        obtain ⟨out', rfl, h4⟩ := this
        exact ⟨out ++ out', by rw [List.append_assoc], h4⟩
      | fail d pos =>
        rw [hx] at this
        exact this

/-- A payload that decodes gives the history and at most CAP bytes after it; one that does not fails at an
offset of the payload (44_block_decoder.md R204, R212). -/
theorem decodeBlock_cases (payload hist : List Byte) (cap : Nat) :
    match decodeBlock payload hist cap with
    | .ok win => ∃ out, win = hist ++ out ∧ out.length ≤ cap
    | .fail _ pos => pos ≤ payload.length := by
  have := decodeLoop_cases (n := payload.length) (cap := cap) (fuel := payload.length + 1) (rest := payload)
    (Nat.le_refl hist.length) (Nat.le_refl _)
  unfold decodeBlock
  cases hd : decodeLoop payload.length hist.length cap (payload.length + 1) payload hist with
  | ok win =>
    rw [hd] at this
    obtain ⟨out, rfl, h⟩ := this
    exact ⟨out, rfl, by rw [List.length_append] at h; omega⟩
  | fail d pos =>
    rw [hd] at this
    exact this

end Sys2Proof.Machine
end

