-- ==== Sys2Proof/Laws/Memory.lean ====
section
/-! SUPPORT. The laws of memory: reads after writes, that every memory operation keeps the canonical form, and
that equal memories are equal data. -/

namespace Sys2Proof.Machine.Memory

/-! ## Lists of entries -/

section Entries

variable {α : Type}

/-- Addresses strictly rise. -/
abbrev Rising (l : List (Nat × α)) : Prop := l.Pairwise fun a b => a.1 < b.1

theorem find_append (l m : List (Nat × α)) (a : Nat) : find (l ++ m) a = (find l a).or (find m a) := by
  induction l with
  | nil => rfl
  | cons c l ih =>
    obtain ⟨x, b⟩ := c
    simp only [List.cons_append, find]
    split
    · rfl
    · exact ih

theorem find_filter (l : List (Nat × α)) (f : Nat → Bool) (a : Nat) :
    find (l.filter fun c => f c.1) a = if f a then find l a else none := by
  induction l with
  | nil => simp [find]
  | cons c l ih =>
    obtain ⟨x, b⟩ := c
    by_cases hx : f x
    · simp only [List.filter_cons, hx, if_true, find, ih]
      split
      · rename_i h
        simp [← h, hx]
      · rfl
    · rw [List.filter_cons, if_neg hx, ih, find]
      by_cases hxa : x = a
      · subst hxa
        rw [if_neg hx, if_neg hx]
      · rw [if_neg hxa]

theorem find_eq_none {l : List (Nat × α)} {a : Nat} (h : ∀ c ∈ l, c.1 ≠ a) : find l a = none := by
  induction l with
  | nil => rfl
  | cons c l ih =>
    obtain ⟨x, b⟩ := c
    rw [find, if_neg (h _ List.mem_cons_self), ih fun d hd => h d (List.mem_cons_of_mem _ hd)]

/-- What an address finds after a splice: the new entry inside the range, the entry before outside it. -/
theorem find_splice {l new : List (Nat × α)} {base n : Nat}
    (hn : ∀ c ∈ new, base ≤ c.1 ∧ c.1 < base + n) (a : Nat) :
    find (splice l base n new) a = if base ≤ a ∧ a < base + n then find new a else find l a := by
  unfold splice
  rw [find_append, find_append, find_filter l (fun x => decide (x < base)),
    find_filter l (fun x => decide (base + n ≤ x))]
  by_cases hin : base ≤ a ∧ a < base + n
  · rw [if_pos hin, if_neg (by simp only [decide_eq_true_eq]; omega),
      if_neg (by simp only [decide_eq_true_eq]; omega)]
    simp
  · have hnew : find new a = none := find_eq_none fun c hc e => hin (e ▸ hn c hc)
    rw [if_neg hin, hnew]
    by_cases h1 : a < base
    · rw [if_pos (by simpa using h1), if_neg (by simp only [decide_eq_true_eq]; omega)]
      simp
    · rw [if_neg (by simpa using h1), if_pos (by simp only [decide_eq_true_eq]; omega)]
      rfl

theorem splice_rising {l new : List (Nat × α)} {base n : Nat} (hl : Rising l) (hr : Rising new)
    (hn : ∀ c ∈ new, base ≤ c.1 ∧ c.1 < base + n) : Rising (splice l base n new) := by
  unfold splice Rising
  refine List.pairwise_append.2 ⟨List.pairwise_append.2 ⟨hl.filter _, hr, ?_⟩, hl.filter _, ?_⟩
  · intro c hc d hd
    have hc' := (List.mem_filter.1 hc).2
    have := hn d hd
    simp only [decide_eq_true_eq] at hc'
    omega
  · intro c hc d hd
    have hd' := (List.mem_filter.1 hd).2
    simp only [decide_eq_true_eq] at hd'
    rcases List.mem_append.1 hc with hc | hc
    · have hc' := (List.mem_filter.1 hc).2
      simp only [decide_eq_true_eq] at hc'
      omega
    · have := hn c hc
      omega

/-- An entry after a splice is a new one, or an old one outside the range. -/
theorem mem_splice {l new : List (Nat × α)} {base n : Nat} {c : Nat × α} (h : c ∈ splice l base n new) :
    c ∈ new ∨ (c ∈ l ∧ ¬ (base ≤ c.1 ∧ c.1 < base + n)) := by
  unfold splice at h
  rcases List.mem_append.1 h with h | h
  · rcases List.mem_append.1 h with h | h
    · have := List.mem_filter.1 h
      simp only [decide_eq_true_eq] at this
      exact .inr ⟨this.1, by omega⟩
    · exact .inl h
  · have := List.mem_filter.1 h
    simp only [decide_eq_true_eq] at this
    exact .inr ⟨this.1, by omega⟩

/-- Two lists with rising addresses that find the same everywhere are one. -/
theorem rising_ext {l m : List (Nat × α)} (hl : Rising l) (hm : Rising m) (h : ∀ a, find l a = find m a) :
    l = m := by
  have absent : ∀ {k : List (Nat × α)} {x : Nat}, (∀ c ∈ k, x < c.1) → find k x = none :=
    fun hk => find_eq_none fun c hc e => Nat.lt_irrefl _ (e ▸ hk c hc)
  induction l generalizing m with
  | nil =>
    match m with
    | [] => rfl
    | (y, b) :: _ => simpa [find] using h y
  | cons c l ih =>
    obtain ⟨x, a⟩ := c
    match m with
    | [] => simpa [find] using h x
    | (y, b) :: m =>
      have hlx := List.pairwise_cons.1 hl
      have hmy := List.pairwise_cons.1 hm
      have hxy : x = y := by
        rcases Nat.lt_trichotomy x y with hlt | he | hlt
        · have := h x
          rw [find, if_pos rfl, find, if_neg (Nat.ne_of_gt hlt),
            absent fun c hc => Nat.lt_trans hlt (hmy.1 c hc)] at this
          cases this
        · exact he
        · have := h y
          rw [find, if_neg (Nat.ne_of_gt hlt), absent fun c hc => Nat.lt_trans hlt (hlx.1 c hc), find,
            if_pos rfl] at this
          cases this
      subst hxy
      have hab := h x
      rw [find, if_pos rfl, find, if_pos rfl] at hab
      cases hab
      refine congrArg _ (ih hlx.2 hmy.2 fun z => ?_)
      have hz := h z
      by_cases e : x = z
      · subst e
        rw [absent hlx.1, absent hmy.1]
      · rwa [find, if_neg e, find, if_neg e] at hz

end Entries

/-! ## What is laid into memory -/

theorem cellsOf_bounds {base : Nat} {bs : List Byte} {c : Host.Cell} (h : c ∈ cellsOf base bs) :
    base ≤ c.1 ∧ c.1 < base + bs.length := by
  induction bs generalizing base with
  | nil => cases h
  | cons b bs ih =>
    rw [cellsOf] at h
    rw [List.length_cons]
    split at h
    · have := ih h
      omega
    · rcases List.mem_cons.1 h with rfl | h
      · dsimp only
        omega
      · have := ih h
        omega

theorem cellsOf_rising (base : Nat) (bs : List Byte) : Rising (cellsOf base bs) := by
  induction bs generalizing base with
  | nil => exact .nil
  | cons b bs ih =>
    rw [cellsOf]
    split
    · exact ih _
    · exact .cons (fun c hc => (cellsOf_bounds hc).1) (ih _)

theorem cellsOf_ne_blank {base : Nat} {bs : List Byte} {c : Host.Cell} (h : c ∈ cellsOf base bs) :
    c.2 ≠ blank := by
  induction bs generalizing base with
  | nil => cases h
  | cons b bs ih =>
    rw [cellsOf] at h
    split at h
    · exact ih h
    · rename_i hb
      rcases List.mem_cons.1 h with rfl | h
      · exact hb
      · exact ih h

theorem find_cellsOf {base i : Nat} {bs : List Byte} (h : i < bs.length) :
    (find (cellsOf base bs) (base + i)).getD blank = bs[i] := by
  induction bs generalizing base i with
  | nil => exact absurd h (Nat.not_lt_zero _)
  | cons b bs ih =>
    rw [cellsOf]
    cases i with
    | zero =>
      split
      · rename_i hb
        rw [find_eq_none fun c hc e => ?_]
        · exact hb.symm
        · have := (cellsOf_bounds hc).1
          omega
      · simp [find]
    | succ i =>
      have e : base + (i + 1) = base + 1 + i := by omega
      have := ih (base := base + 1) (i := i) (by simpa using h)
      split
      · rw [e, this]
        rfl
      · rw [find, if_neg (by omega), e, this]
        rfl

theorem freeOf_bounds {base n k : Nat} {d : Nat × Nat} (h : d ∈ freeOf base n k) :
    base ≤ d.1 ∧ d.1 < base + n := by
  obtain ⟨i, hi, rfl⟩ := List.mem_map.1 h
  have := List.mem_range.1 hi
  dsimp only
  omega

theorem freeOf_rising (base n k : Nat) : Rising (freeOf base n k) := by
  refine List.pairwise_map.2 (List.pairwise_lt_range.imp fun h => ?_)
  dsimp only
  omega

theorem find_freeOf {base n k i : Nat} (h : i < n) : find (freeOf base n k) (base + i) = some (k + i) := by
  have key : ∀ l : List Nat, i ∈ l → find (l.map fun i => (base + i, k + i)) (base + i) = some (k + i) := by
    intro l hl
    induction l with
    | nil => cases hl
    | cons j l ih =>
      rw [List.map_cons, find]
      by_cases e : j = i
      · subst e
        rw [if_pos rfl]
      · rw [if_neg (by omega)]
        exact ih ((List.mem_cons.1 hl).resolve_left (Ne.symm e))
  exact key _ (List.mem_range.2 h)

/-! ## The canonical form -/

theorem wf_empty : wf {} := by decide

/-- Every write keeps the canonical form. -/
theorem writeRange_wf {m : Memory} (h : m.wf) (base : Nat) (bs : List Byte) : (m.writeRange base bs).wf := by
  obtain ⟨h1, h2, h3, h4⟩ := h
  refine ⟨splice_rising h1 (cellsOf_rising _ _) (fun _ => cellsOf_bounds),
    splice_rising h2 .nil (fun _ hc => absurd hc List.not_mem_nil), fun c hc => ?_, fun c hc d hd => ?_⟩
  · rcases mem_splice hc with hc | hc
    · exact cellsOf_ne_blank hc
    · exact h3 c hc.1
  · rcases mem_splice hd with hd | hd
    · cases hd
    · rcases mem_splice hc with hc | hc
      · exact fun e => hd.2 (e ▸ cellsOf_bounds hc)
      · exact h4 c hc.1 d hd.1

/-- Making a range free keeps the canonical form. -/
theorem freeRange_wf {m : Memory} (h : m.wf) (base n k : Nat) : (m.freeRange base n k).wf := by
  obtain ⟨h1, h2, h3, h4⟩ := h
  refine ⟨splice_rising h1 .nil (fun _ hc => absurd hc List.not_mem_nil),
    splice_rising h2 (freeOf_rising _ _ _) (fun _ => freeOf_bounds), fun c hc => ?_, fun c hc d hd => ?_⟩
  · rcases mem_splice hc with hc | hc
    · cases hc
    · exact h3 c hc.1
  · rcases mem_splice hc with hc | hc
    · cases hc
    · rcases mem_splice hd with hd | hd
      · exact fun e => hc.2 (e ▸ freeOf_bounds hd)
      · exact h4 c hc.1 d hd.1

/-- A write inside the address space keeps every listed address inside it. -/
theorem writeRange_inRange {p : Params} {m : Memory} (h : m.inRange p) {base : Nat} {bs : List Byte}
    (hb : bs = [] ∨ base + bs.length ≤ memSize p) : (m.writeRange base bs).inRange p := by
  refine ⟨fun c hc => ?_, fun d hd => ?_⟩
  · rcases mem_splice hc with hc | hc
    · rcases hb with rfl | hb
      · cases hc
      · exact Nat.lt_of_lt_of_le (cellsOf_bounds hc).2 hb
    · exact h.1 c hc.1
  · rcases mem_splice hd with hd | hd
    · cases hd
    · exact h.2 d hd.1

/-- Making a range inside the address space free keeps every listed address inside it. -/
theorem freeRange_inRange {p : Params} {m : Memory} (h : m.inRange p) {base n k : Nat}
    (hb : n = 0 ∨ base + n ≤ memSize p) : (m.freeRange base n k).inRange p := by
  refine ⟨fun c hc => ?_, fun d hd => ?_⟩
  · rcases mem_splice hc with hc | hc
    · cases hc
    · exact h.1 c hc.1
  · rcases mem_splice hd with hd | hd
    · have := freeOf_bounds hd
      omega
    · exact h.2 d hd.1

/-- Canonical memories that read the same and hold free values at the same places are equal data. -/
theorem wf_ext {m m' : Memory} (h : m.wf) (h' : m'.wf) (hf : m.free = m'.free)
    (hr : ∀ a, m.read a = m'.read a) : m = m' := by
  have key : ∀ {m m' : Memory}, m.wf → m'.wf → m.free = m'.free → (∀ a, m.read a = m'.read a) →
      ∀ {a b}, find m.cells a = some b → find m'.cells a = some b := by
    intro m m' h h' hf hr a b hb
    have hmem : ∀ {l : List Host.Cell}, find l a = some b → (a, b) ∈ l := by
      intro l
      induction l with
      | nil => exact fun e => nomatch e
      | cons c l ih =>
        obtain ⟨x, y⟩ := c
        rw [find]
        split
        · rename_i e
          intro hy
          cases hy
          exact e ▸ List.mem_cons_self
        · exact fun e => List.mem_cons_of_mem _ (ih e)
    have hab := hmem hb
    have hn : find m.free a = none := find_eq_none fun d hd e => h.2.2.2 _ hab d hd e.symm
    have hv := hr a
    unfold read at hv
    rw [← hf, hn, hb] at hv
    dsimp only [Option.getD_some] at hv
    cases hc : find m'.cells a with
    | none =>
      rw [hc] at hv
      exact absurd hv (h.2.2.1 _ hab)
    | some c =>
      rw [hc] at hv
      exact congrArg some hv.symm
  obtain ⟨c, f⟩ := m
  obtain ⟨c', f'⟩ := m'
  cases hf
  refine congrArg (Memory.mk · f) (rising_ext h.1 h'.1 fun a => ?_)
  cases hc : find c a with
  | some b => exact (key h h' rfl hr hc).symm
  | none =>
    cases hc' : find c' a with
    | none => rfl
    | some b =>
      have := key h' h rfl (fun a => (hr a).symm) hc'
      rw [hc] at this
      cases this

/-! ## Reads after writes -/

/-- What a byte inside a range just written reads as. -/
theorem read_writeRange_inside (m : Memory) {base i : Nat} {bs : List Byte} (h : i < bs.length) :
    (m.writeRange base bs).read (base + i) = bs[i] := by
  unfold read writeRange
  rw [find_splice (fun _ hc => absurd hc List.not_mem_nil), find_splice (fun _ => cellsOf_bounds), if_pos (by omega),
    if_pos (by omega)]
  exact find_cellsOf h

theorem read_writeRange_outside (m : Memory) {base a : Nat} {bs : List Byte}
    (h : ¬ (base ≤ a ∧ a < base + bs.length)) : (m.writeRange base bs).read a = m.read a := by
  unfold read writeRange
  rw [find_splice (fun _ hc => absurd hc List.not_mem_nil), find_splice (fun _ => cellsOf_bounds), if_neg h, if_neg h]

/-- What a byte inside a range just made free reads as. -/
theorem read_freeRange_inside (m : Memory) {base n k i : Nat} (h : i < n) :
    (m.freeRange base n k).read (base + i) = Config.freeByte (k + i) := by
  unfold read freeRange
  rw [find_splice (fun _ => freeOf_bounds), if_pos (by omega), find_freeOf h]

theorem read_freeRange_outside (m : Memory) {base n k a : Nat} (h : ¬ (base ≤ a ∧ a < base + n)) :
    (m.freeRange base n k).read a = m.read a := by
  unfold read freeRange
  rw [find_splice (fun _ => freeOf_bounds), find_splice (fun _ hc => absurd hc List.not_mem_nil), if_neg h, if_neg h]

@[simp] theorem readRange_length (m : Memory) (base n : Nat) : (m.readRange base n).length = n := by
  induction n generalizing base with
  | zero => rfl
  | succ n ih => rw [readRange, List.length_cons, ih]

theorem readRange_getElem (m : Memory) {base n i : Nat} (h : i < (m.readRange base n).length) :
    (m.readRange base n)[i] = m.read (base + i) := by
  induction n generalizing base i with
  | zero => exact absurd h (Nat.not_lt_zero _)
  | succ n ih =>
    cases i with
    | zero => rfl
    | succ i =>
      have := ih (base := base + 1) (i := i) (by simpa using h)
      simp only [readRange, List.getElem_cons_succ, this]
      congr 1
      omega

/-- A range reads as a byte string iff each of its bytes does. -/
theorem readRange_eq_iff {m : Memory} {base n : Nat} {bs : List Byte} :
    m.readRange base n = bs ↔ bs.length = n ∧ ∀ i < n, bs[i]? = some (m.read (base + i)) := by
  constructor
  · rintro rfl
    refine ⟨readRange_length _ _ _, fun i hi => ?_⟩
    rw [List.getElem?_eq_getElem (by rwa [readRange_length]), readRange_getElem]
  · rintro ⟨rfl, h⟩
    refine List.ext_getElem? fun i => ?_
    by_cases hi : i < bs.length
    · rw [h i hi, List.getElem?_eq_getElem (by rwa [readRange_length]), readRange_getElem]
    · rw [List.getElem?_eq_none (by rw [readRange_length]; omega), List.getElem?_eq_none (by omega)]

/-- Memories that agree on a range read it the same. -/
theorem readRange_congr {m m' : Memory} {base n : Nat} (h : ∀ i < n, m.read (base + i) = m'.read (base + i)) :
    m.readRange base n = m'.readRange base n :=
  readRange_eq_iff.2 ⟨readRange_length _ _ _, fun i hi => by
    rw [List.getElem?_eq_getElem (by rwa [readRange_length]), readRange_getElem, h i hi]⟩

/-- A longer read is the shorter one and what is after it. -/
theorem readRange_add (m : Memory) (base n k : Nat) :
    m.readRange base (n + k) = m.readRange base n ++ m.readRange (base + n) k := by
  induction n generalizing base with
  | zero => simp [readRange]
  | succ n ih =>
    rw [show n + 1 + k = (n + k) + 1 from by omega, readRange, ih, readRange, List.cons_append,
      show base + 1 + n = base + (n + 1) from by omega]

/-- A range that a write does not touch reads as before. -/
theorem readRange_writeRange_outside (m : Memory) {base n at_ : Nat} {bs : List Byte}
    (h : at_ + bs.length ≤ base ∨ base + n ≤ at_) :
    (m.writeRange at_ bs).readRange base n = m.readRange base n :=
  readRange_congr fun _ _ => read_writeRange_outside m (by omega)

/-- A range that is not made free reads as before. -/
theorem readRange_freeRange_outside (m : Memory) {base n at_ len k : Nat}
    (h : at_ + len ≤ base ∨ base + n ≤ at_) :
    (m.freeRange at_ len k).readRange base n = m.readRange base n :=
  readRange_congr fun _ _ => read_freeRange_outside m (by omega)

/-- A range just written reads as what was written. -/
theorem readRange_writeRange_same (m : Memory) (base : Nat) (bs : List Byte) :
    (m.writeRange base bs).readRange base bs.length = bs :=
  readRange_eq_iff.2 ⟨rfl, fun i hi => by rw [read_writeRange_inside m hi, List.getElem?_eq_getElem hi]⟩

end Sys2Proof.Machine.Memory
end

