-- ==== Sys2Proof/Laws/State.lean ====
section
/-! SUPPORT. One lemma per field per update of the state, all by `rfl`. -/

namespace Sys2Proof.Machine

@[simp] theorem State.setEng_par (s : State) (e : Engine) : (s.setEng e).par = s.par := rfl
@[simp] theorem State.setEng_eng (s : State) (e : Engine) : (s.setEng e).eng = e := rfl
@[simp] theorem State.setEng_mem (s : State) (e : Engine) : (s.setEng e).mem = s.mem := rfl
@[simp] theorem State.setEng_host (s : State) (e : Engine) : (s.setEng e).host = s.host := rfl
@[simp] theorem State.setEng_inputs (s : State) (e : Engine) : (s.setEng e).inputs = s.inputs := rfl
@[simp] theorem State.setEng_draws (s : State) (e : Engine) : (s.setEng e).draws = s.draws := rfl

@[simp] theorem State.setMem_par (s : State) (m : Memory) : (s.setMem m).par = s.par := rfl
@[simp] theorem State.setMem_eng (s : State) (m : Memory) : (s.setMem m).eng = s.eng := rfl
@[simp] theorem State.setMem_mem (s : State) (m : Memory) : (s.setMem m).mem = m := rfl
@[simp] theorem State.setMem_host (s : State) (m : Memory) : (s.setMem m).host = s.host := rfl
@[simp] theorem State.setMem_inputs (s : State) (m : Memory) : (s.setMem m).inputs = s.inputs := rfl
@[simp] theorem State.setMem_draws (s : State) (m : Memory) : (s.setMem m).draws = s.draws := rfl

@[simp] theorem State.setHost_par (s : State) (h : HostState) : (s.setHost h).par = s.par := rfl
@[simp] theorem State.setHost_eng (s : State) (h : HostState) : (s.setHost h).eng = s.eng := rfl
@[simp] theorem State.setHost_mem (s : State) (h : HostState) : (s.setHost h).mem = s.mem := rfl
@[simp] theorem State.setHost_host (s : State) (h : HostState) : (s.setHost h).host = h := rfl
@[simp] theorem State.setHost_inputs (s : State) (h : HostState) : (s.setHost h).inputs = s.inputs := rfl
@[simp] theorem State.setHost_draws (s : State) (h : HostState) : (s.setHost h).draws = s.draws := rfl

@[simp] theorem State.setInputs_par (s : State) (l : List Event) : (s.setInputs l).par = s.par := rfl
@[simp] theorem State.setInputs_eng (s : State) (l : List Event) : (s.setInputs l).eng = s.eng := rfl
@[simp] theorem State.setInputs_mem (s : State) (l : List Event) : (s.setInputs l).mem = s.mem := rfl
@[simp] theorem State.setInputs_host (s : State) (l : List Event) : (s.setInputs l).host = s.host := rfl
@[simp] theorem State.setInputs_inputs (s : State) (l : List Event) : (s.setInputs l).inputs = l := rfl
@[simp] theorem State.setInputs_draws (s : State) (l : List Event) : (s.setInputs l).draws = s.draws := rfl

@[simp] theorem State.drew_par (s : State) (n : Nat) : (s.drew n).par = s.par := rfl
@[simp] theorem State.drew_eng (s : State) (n : Nat) : (s.drew n).eng = s.eng := rfl
@[simp] theorem State.drew_mem (s : State) (n : Nat) : (s.drew n).mem = s.mem := rfl
@[simp] theorem State.drew_host (s : State) (n : Nat) : (s.drew n).host = s.host := rfl
@[simp] theorem State.drew_inputs (s : State) (n : Nat) : (s.drew n).inputs = s.inputs := rfl
@[simp] theorem State.drew_draws (s : State) (n : Nat) : (s.drew n).draws = s.draws + n := rfl

@[simp] theorem State.write_par (s : State) (base : Nat) (bs : List Byte) : (s.write base bs).par = s.par := rfl
@[simp] theorem State.write_eng (s : State) (base : Nat) (bs : List Byte) : (s.write base bs).eng = s.eng := rfl
@[simp] theorem State.write_mem (s : State) (base : Nat) (bs : List Byte) : (s.write base bs).mem = s.mem.writeRange base bs := rfl
@[simp] theorem State.write_host (s : State) (base : Nat) (bs : List Byte) : (s.write base bs).host = s.host := rfl
@[simp] theorem State.write_inputs (s : State) (base : Nat) (bs : List Byte) : (s.write base bs).inputs = s.inputs := rfl
@[simp] theorem State.write_draws (s : State) (base : Nat) (bs : List Byte) : (s.write base bs).draws = s.draws := rfl

@[simp] theorem State.scramble_par (s : State) (r : Region) : (s.scramble r).par = s.par := rfl
@[simp] theorem State.scramble_eng (s : State) (r : Region) : (s.scramble r).eng = s.eng := rfl
@[simp] theorem State.scramble_mem (s : State) (r : Region) : (s.scramble r).mem = s.mem.freeRange r.base r.len s.draws := rfl
@[simp] theorem State.scramble_host (s : State) (r : Region) : (s.scramble r).host = s.host := rfl
@[simp] theorem State.scramble_inputs (s : State) (r : Region) : (s.scramble r).inputs = s.inputs := rfl
@[simp] theorem State.scramble_draws (s : State) (r : Region) : (s.scramble r).draws = s.draws + r.len := rfl

@[simp] theorem State.returned_par (s : State) (bs : List Byte) : (s.returned bs).par = s.par := rfl
@[simp] theorem State.returned_eng (s : State) (bs : List Byte) : (s.returned bs).eng = s.eng := rfl
@[simp] theorem State.returned_mem (s : State) (bs : List Byte) : (s.returned bs).mem = s.mem := rfl
@[simp] theorem State.returned_host (s : State) (bs : List Byte) : (s.returned bs).host = { s.host with rdata := bs } := rfl
@[simp] theorem State.returned_inputs (s : State) (bs : List Byte) : (s.returned bs).inputs = s.inputs := rfl
@[simp] theorem State.returned_draws (s : State) (bs : List Byte) : (s.returned bs).draws = s.draws := rfl

@[simp] theorem State.released_par (s : State)  : (s.released).par = s.par := rfl
@[simp] theorem State.released_eng (s : State)  : (s.released).eng = s.eng := rfl
@[simp] theorem State.released_mem (s : State)  : (s.released).mem = s.mem := rfl
@[simp] theorem State.released_host (s : State)  : (s.released).host = { s.host with guardRead := [], guardWrite := [] } := rfl
@[simp] theorem State.released_inputs (s : State)  : (s.released).inputs = s.inputs := rfl
@[simp] theorem State.released_draws (s : State)  : (s.released).draws = s.draws := rfl

@[simp] theorem State.setFrame_par (s : State) (f : FrameRun) : (s.setFrame f).par = s.par := rfl
@[simp] theorem State.setFrame_eng (s : State) (f : FrameRun) : (s.setFrame f).eng = s.eng := rfl
@[simp] theorem State.setFrame_mem (s : State) (f : FrameRun) : (s.setFrame f).mem = s.mem := rfl
@[simp] theorem State.setFrame_host (s : State) (f : FrameRun) : (s.setFrame f).host = { s.host with frame := some f } := rfl
@[simp] theorem State.setFrame_inputs (s : State) (f : FrameRun) : (s.setFrame f).inputs = s.inputs := rfl
@[simp] theorem State.setFrame_draws (s : State) (f : FrameRun) : (s.setFrame f).draws = s.draws := rfl

@[simp] theorem State.endCommand_par (s : State) (e : Ending) : (s.endCommand e).par = s.par := rfl
@[simp] theorem State.endCommand_mem (s : State) (e : Ending) : (s.endCommand e).mem = s.mem := rfl
@[simp] theorem State.endCommand_host (s : State) (e : Ending) : (s.endCommand e).host = s.host := rfl
@[simp] theorem State.endCommand_inputs (s : State) (e : Ending) : (s.endCommand e).inputs = s.inputs := rfl
@[simp] theorem State.endCommand_draws (s : State) (e : Ending) : (s.endCommand e).draws = s.draws + 2 := rfl
@[simp] theorem State.startCommand_par (s : State) (w : Word) : (s.startCommand w).par = s.par := rfl
@[simp] theorem State.startCommand_mem (s : State) (w : Word) : (s.startCommand w).mem = s.mem := rfl
@[simp] theorem State.startCommand_inputs (s : State) (w : Word) : (s.startCommand w).inputs = s.inputs := rfl
@[simp] theorem State.startCommand_draws (s : State) (w : Word) : (s.startCommand w).draws = s.draws := rfl
@[simp] theorem State.setBase_par (s : State) (b : BaseReg) (v : Nat) : (s.setBase b v).par = s.par := by cases b <;> rfl
@[simp] theorem State.setBase_mem (s : State) (b : BaseReg) (v : Nat) : (s.setBase b v).mem = s.mem := by cases b <;> rfl
@[simp] theorem State.setBase_host (s : State) (b : BaseReg) (v : Nat) : (s.setBase b v).host = s.host := by cases b <;> rfl
@[simp] theorem State.setBase_inputs (s : State) (b : BaseReg) (v : Nat) : (s.setBase b v).inputs = s.inputs := by cases b <;> rfl
@[simp] theorem State.setBase_draws (s : State) (b : BaseReg) (v : Nat) : (s.setBase b v).draws = s.draws := by cases b <;> rfl
@[simp] theorem State.setBase_phase (s : State) (b : BaseReg) (v : Nat) : (s.setBase b v).eng.phase = s.eng.phase := by
  cases b <;> rfl
/-- A base register set reads as the value, as wide as the register; the others are as before. -/
@[simp] theorem State.setBase_base (s : State) (b c : BaseReg) (v : Nat) :
    (s.setBase b v).base c = if c = b then v % memSize s.par else s.base c := by cases b <;> cases c <;> rfl

end Sys2Proof.Machine
end

