-- ==== Sys2Proof/Laws/Ops.lean ====
section
/-! SUPPORT. What each shared operation can do: one lemma per operation, for a proof to cite in its place. -/

namespace Sys2Proof.Machine

/-! ## Ranges -/

theorem holds_iff {r : Region} {a : Nat} : holds r a = true ↔ r.base ≤ a ∧ a < r.base + r.len := by
  simp [holds]

theorem holds_false_iff {r : Region} {a : Nat} : holds r a = false ↔ ¬ (r.base ≤ a ∧ a < r.base + r.len) := by
  rw [← holds_iff, Bool.not_eq_true]

theorem meets_comm (a b : Region) : meets a b = meets b a := by
  rw [Bool.eq_iff_iff]
  simp only [meets, Bool.and_eq_true, decide_eq_true_eq]
  omega

/-- Two ranges with an address in common meet. -/
theorem meets_of_holds {a b : Region} {x : Nat} (ha : holds a x = true) (hb : holds b x = true) :
    meets a b = true := by
  rw [holds_iff] at ha hb
  simp only [meets, Bool.and_eq_true, decide_eq_true_eq]
  omega

/-- A range inside memory is clipped nowhere. -/
theorem clip_eq {p : Params} {r : Region} (h : r.base + r.len ≤ memSize p) : clip p r = r := by
  simp only [clip, Nat.min_eq_left (show r.len ≤ memSize p - r.base by omega)]

/-- A clipped range lies inside memory, or is empty. -/
theorem clip_inMemory (p : Params) (r : Region) :
    (clip p r).len = 0 ∨ (clip p r).base + (clip p r).len ≤ memSize p := by
  simp only [clip]
  omega

/-! ## Free bytes -/

/-- A scrambled range holds the free bytes drawn. -/
theorem read_scramble {s : State} {r : Region} {i : Nat} (h : i < r.len) :
    (s.scramble r).mem.read (r.base + i) = Config.freeByte (s.draws + i) :=
  Memory.read_freeRange_inside _ h

theorem read_scramble_outside {s : State} {r : Region} {a : Nat} (h : holds r a = false) :
    (s.scramble r).mem.read a = s.mem.read a :=
  Memory.read_freeRange_outside _ (holds_false_iff.1 h)

/-! ## The completion step -/

/-- The engine after the completion step (40_commands.md R128). -/
theorem State.endCommand_eng (s : State) (e : Ending) :
    (s.endCommand e).eng =
      { s.eng with
        phase := .idle, done := true, code := e.code, detail := e.detail, errPos := e.errPos
        outLen := s.orFree e.outLen, tokens := (s.drew 1).orFree e.tokens } := rfl

@[simp] theorem State.endCommand_busy (s : State) (e : Ending) : (s.endCommand e).busy = false := rfl

/-! ## Starting and running a command -/

/-- What the engine runs for a command word (40_commands.md R120). -/
def runWord (w : Word) : Desc → State → Out :=
  if wordOp w = 1 then runCompress
  else if wordOp w = 2 then runDecompress
  else fun _ t => .next (t.badCommand .reservedOp)

/-- The three command rows are one: run the command word. -/
theorem exec_decodeCommand (w : Word) (s : State) :
    exec (decodeCommand w) s = runCommand w (runWord w) s := by
  have hw := word_split w
  unfold decodeCommand runWord
  by_cases h1 : wordOp w = 1
  · have e1 : w.extractLsb' 0 4 = 1 := h1
    rw [e1] at hw
    simp only [e1, h1, if_true, exec, execCompressBlock]
    rw [show (1#4) = (1 : BitVec 4) from rfl, hw]
  · by_cases h2 : wordOp w = 2
    · have e1 : w.extractLsb' 0 4 = 2 := h2
      rw [e1] at hw
      have e3 : ¬ (2 : BitVec 4) = 1 := by decide
      simp only [e1, h2, if_true, exec, execDecompressBlock, if_neg e3]
      rw [show (2#4) = (2 : BitVec 4) from rfl, hw]
    · have e1 : ¬ w.extractLsb' 0 4 = 1 := h1
      have e2 : ¬ w.extractLsb' 0 4 = 2 := h2
      simp only [if_neg e1, if_neg e2, if_neg h1, if_neg h2, exec, execReservedCmd, hw]

/-- A command that goes on past its checks: the three ways `withWindow` answers. -/
theorem withWindow_next {ld : Desc} {s t : State} {k : List Byte → State} (h : withWindow ld s k = .next t) :
    (∃ d, checkCompress s.par ld = some d ∧ t = s.badCommand d) ∨
    (checkCompress s.par ld = none ∧ bufferRefusal s.par ld.compressWindow ld.compressOut = none ∧
      t = k (s.mem.readRange ld.win (ld.P + ld.L))) := by
  unfold withWindow at h
  split at h
  · rename_i d hd
    cases h
    exact .inl ⟨d, hd, rfl⟩
  · rename_i hd
    split at h
    · cases h
    · rename_i hb
      cases h
      exact .inr ⟨hd, hb, rfl⟩

/-- The ways `withPayload` goes on. -/
theorem withPayload_next {ld : Desc} {s t : State} {k : List Byte → List Byte → State}
    (h : withPayload ld s k = .next t) :
    (∃ d, checkDecompress s.par ld = some d ∧ t = s.badCommand d) ∨
    (checkDecompress s.par ld = none ∧ bufferRefusal s.par ld.payload ld.decompressWindow = none ∧
      t = k (s.mem.readRange ld.inp ld.n) (s.mem.readRange ld.win ld.P)) := by
  unfold withPayload at h
  split at h
  · rename_i d hd
    cases h
    exact .inl ⟨d, hd, rfl⟩
  · rename_i hd
    split at h
    · cases h
    · rename_i hb
      cases h
      exact .inr ⟨hd, hb, rfl⟩

/-- The limits a good compress descriptor keeps (40_commands.md R124). -/
theorem checkCompress_none {par : Params} {ld : Desc} (h : checkCompress par ld = none) :
    ld.P ≤ par.prefixLimit ∧ ld.L ≤ par.blockLenLimit ∧ ld.win + ld.P + ld.L ≤ memSize par ∧
      ld.out + ld.L ≤ memSize par := by
  unfold checkCompress at h
  split at h
  · cases h
  · split at h
    · cases h
    · split at h
      · cases h
      · omega

/-- The limits a good decompress descriptor keeps (40_commands.md R125). -/
theorem checkDecompress_none {par : Params} {ld : Desc} (h : checkDecompress par ld = none) :
    ld.P ≤ par.prefixLimit ∧ ld.cap ≤ par.blockLenLimit ∧ ld.n ≤ par.blockLenLimit ∧
      ld.inp + ld.n ≤ memSize par ∧ ld.win + ld.P + ld.cap ≤ memSize par := by
  unfold checkDecompress at h
  split at h
  · cases h
  · split at h
    · cases h
    · split at h
      · cases h
      · omega

/-- The datapath meanings run on a decoder alone. -/
theorem withDecoder_next {s t : State} {k : Desc → DecScratch → Out} (h : withDecoder s k = .next t) :
    ∃ ld d, s.eng.phase = .busy ld (.decoding d) ∧ k ld d = .next t := by
  unfold withDecoder at h
  split at h
  · rename_i ld d hp
    exact ⟨ld, d, hp, h⟩
  · cases h

/-- The container words run on a frame-layer run alone, and give a state where only the run differs if `k`
does so. -/
theorem withFrame_next {p : FramePhase} {s t : State} {k : FrameRun → State} (h : withFrame p s k = .next t) :
    ∃ f, s.host.frame = some f ∧ f.phase = p ∧ f.todo = [] ∧ t = k f := by
  unfold withFrame at h
  split at h
  · rename_i f hf
    split at h
    · rename_i hp
      cases h
      exact ⟨f, hf, hp.1, hp.2, rfl⟩
    · cases h
  · cases h

/-! ## Reset -/

theorem writeSet_length (p : Params) (op : BitVec 4) (ld : Desc) : (writeSet p op ld).length ≤ 1 := by
  unfold writeSet
  split
  · simp
  · split <;> simp

/-- Every range of a command's write set is clipped to memory. -/
theorem writeSet_clipped {p : Params} {op : BitVec 4} {ld : Desc} {r : Region} (h : r ∈ writeSet p op ld) :
    ∃ q, r = clip p q := by
  unfold writeSet at h
  split at h
  · exact ⟨_, List.mem_singleton.1 h⟩
  · split at h
    · exact ⟨_, List.mem_singleton.1 h⟩
    · cases h

/-- Every range of a command's write set lies inside memory, or is empty. -/
theorem writeSet_inMemory {p : Params} {op : BitVec 4} {ld : Desc} {r : Region} (h : r ∈ writeSet p op ld) :
    r.len = 0 ∨ r.base + r.len ≤ memSize p := by
  obtain ⟨q, rfl⟩ := writeSet_clipped h
  exact clip_inMemory p q

/-- The sets of a compress command with a good descriptor are its buffers. -/
theorem sets_compress {p : Params} {ld : Desc} (h : checkCompress p ld = none) :
    readSet p 1 ld = [ld.compressWindow] ∧ writeSet p 1 ld = [ld.compressOut] := by
  obtain ⟨-, -, hw, ho⟩ := checkCompress_none h
  have h1 : clip p ld.compressWindow = ld.compressWindow := clip_eq (by simp only [Desc.compressWindow]; omega)
  have h2 : clip p ld.compressOut = ld.compressOut := clip_eq ho
  simp only [readSet, writeSet, if_true, h1, h2, and_self]

/-- The sets of a decompress command with a good descriptor are its buffers. -/
theorem sets_decompress {p : Params} {ld : Desc} (h : checkDecompress p ld = none) :
    readSet p 2 ld = [ld.payload, ld.decompressWindow] ∧ writeSet p 2 ld = [ld.decompressOut] := by
  obtain ⟨-, -, -, hi, hw⟩ := checkDecompress_none h
  have h1 : clip p ld.payload = ld.payload := clip_eq hi
  have h2 : clip p ld.decompressWindow = ld.decompressWindow := clip_eq (by simp only [Desc.decompressWindow]; omega)
  have h3 : clip p ld.decompressOut = ld.decompressOut := clip_eq (by simp only [Desc.decompressOut]; omega)
  have hn : ¬ (2 : BitVec 4) = 1 := by decide
  simp only [readSet, writeSet, if_neg hn, if_true, h1, h2, h3, and_self]

@[simp] theorem State.applyReset_eng (s : State) : s.applyReset.eng = Engine.reset := rfl

theorem foldl_scramble_par (rs : List Region) (s : State) : (rs.foldl State.scramble s).par = s.par := by
  induction rs generalizing s with
  | nil => rfl
  | cons r rs ih => rw [List.foldl_cons, ih]; rfl

theorem foldl_scramble_host (rs : List Region) (s : State) : (rs.foldl State.scramble s).host = s.host := by
  induction rs generalizing s with
  | nil => rfl
  | cons r rs ih => rw [List.foldl_cons, ih]; rfl

@[simp] theorem State.applyReset_par (s : State) : s.applyReset.par = s.par := foldl_scramble_par _ s

theorem State.applyReset_mem (s : State) : s.applyReset.mem = (s.cutRanges.foldl State.scramble s).mem := rfl

/-! ## Accesses of the host -/

/-- What a write of a register can do to the state: nothing; the start of a command; or a descriptor register of
an IDLE engine takes a value, a base address of ADDR_W bits. -/
def RegWritten (s t : State) : Prop :=
  t = s ∨ (s.busy = false ∧ ∃ v, t = s.startCommand v) ∨
  (s.busy = false ∧ ∃ e, t = s.setEng e ∧ e.phase = s.eng.phase ∧ e.done = s.eng.done ∧
    e.code = s.eng.code ∧ e.detail = s.eng.detail ∧ e.cmdOp = s.eng.cmdOp ∧ e.outLen = s.eng.outLen ∧
    e.errPos = s.eng.errPos ∧ e.tokens = s.eng.tokens ∧
    (e.winBase = s.eng.winBase ∨ e.winBase < memSize s.par) ∧
    (e.inBase = s.eng.inBase ∨ e.inBase < memSize s.par) ∧
    (e.outBase = s.eng.outBase ∨ e.outBase < memSize s.par))

theorem RegWritten.setBase {s : State} (hb : s.busy = false) (b : BaseReg) (v : Nat) :
    RegWritten s (s.setBase b v) := by
  have hv : v % memSize s.par < memSize s.par := Nat.mod_lt _ (Nat.two_pow_pos _)
  cases b
  · exact .inr (.inr ⟨hb, _, rfl, rfl, rfl, rfl, rfl, rfl, rfl, rfl, rfl, .inr hv, .inl rfl, .inl rfl⟩)
  · exact .inr (.inr ⟨hb, _, rfl, rfl, rfl, rfl, rfl, rfl, rfl, rfl, rfl, .inl rfl, .inr hv, .inl rfl⟩)
  · exact .inr (.inr ⟨hb, _, rfl, rfl, rfl, rfl, rfl, rfl, rfl, rfl, rfl, .inl rfl, .inl rfl, .inr hv⟩)

/-- A 32-bit write of a register. -/
theorem RegWritten.regWrite (s : State) (r : Reg) (v : Word) : RegWritten s (s.regWrite r v) := by
  unfold State.regWrite
  by_cases hb : s.busy = true
  · rw [if_pos hb]; exact .inl rfl
  · have hb' : s.busy = false := by simpa using hb
    rw [if_neg hb]
    cases r
    case cmd => exact .inr (.inl ⟨hb', _, rfl⟩)
    case winBase => exact .setBase hb' _ _
    case inBase => exact .setBase hb' _ _
    case outBase => exact .setBase hb' _ _
    case prefixLen =>
      exact .inr (.inr ⟨hb', _, rfl, rfl, rfl, rfl, rfl, rfl, rfl, rfl, rfl, .inl rfl, .inl rfl, .inl rfl⟩)
    case blockLen =>
      exact .inr (.inr ⟨hb', _, rfl, rfl, rfl, rfl, rfl, rfl, rfl, rfl, rfl, .inl rfl, .inl rfl, .inl rfl⟩)
    case inLen =>
      exact .inr (.inr ⟨hb', _, rfl, rfl, rfl, rfl, rfl, rfl, rfl, rfl, rfl, .inl rfl, .inl rfl, .inl rfl⟩)
    all_goals exact .inl rfl

/-- What a host store that is made does: a register write, or a write to memory the host may touch. -/
theorem hostStore_next {addr : Nat} {bs : List Byte} {s t : State} (h : hostStore addr bs s = .next t) :
    addr + bs.length ≤ memSize s.par ∧
    (RegWritten s t ∨
      (meets ⟨addr, bs.length⟩ (registerFile s.par) = false ∧
        (∀ q ∈ s.host.guardRead ++ s.host.guardWrite, meets ⟨addr, bs.length⟩ q = false) ∧ t = s.write addr bs)) := by
  unfold hostStore at h
  dsimp only at h
  split at h
  · cases h
  · rename_i hm
    refine ⟨Nat.le_of_not_lt hm, ?_⟩
    split at h
    · split at h
      · cases h; exact .inl (.regWrite _ _ _)
      · cases h
    · rename_i hr
      split at h
      · cases h
      · split at h
        · cases h
        · rename_i hg
          cases h
          refine .inr ⟨by simpa using hr, fun q hq => ?_, rfl⟩
          by_contra hc
          exact hg (List.any_eq_true.2 ⟨q, hq, by simpa using hc⟩)

/-- What a host write of a whole base register does. -/
theorem hostStoreBase_next {b : BaseReg} {v : Nat} {s t : State} (h : hostStoreBase b v s = .next t) :
    RegWritten s t := by
  unfold hostStoreBase at h
  split at h
  · cases h
  · split at h
    · cases h; exact .inl rfl
    · rename_i hb; cases h; exact .setBase (by simpa using hb) _ _

/-- What a host read of a whole base register does. -/
theorem hostLoadBase_next {b : BaseReg} {s t : State} (h : hostLoadBase b s = .next t) :
    ∃ bs, t = s.returned bs := by
  unfold hostLoadBase at h
  split at h
  · cases h
  · cases h; exact ⟨_, rfl⟩

/-- A host load changes neither the engine nor memory, and may lift the hands-off record only where
DONE = 1. -/
theorem hostLoad_next {addr n : Nat} {s t : State} (h : hostLoad addr n s = .next t) :
    t.par = s.par ∧ t.eng = s.eng ∧ t.mem = s.mem ∧ t.inputs = s.inputs ∧ t.host.acts = s.host.acts ∧
    t.host.frame = s.host.frame ∧
    ((t.host.guardRead = s.host.guardRead ∧ t.host.guardWrite = s.host.guardWrite) ∨ s.eng.done = true) := by
  have hr : ∀ r, (s.regRead r).par = s.par ∧ (s.regRead r).eng = s.eng ∧ (s.regRead r).mem = s.mem ∧
      (s.regRead r).inputs = s.inputs ∧ (s.regRead r).host.acts = s.host.acts ∧
      (s.regRead r).host.frame = s.host.frame ∧
      (((s.regRead r).host.guardRead = s.host.guardRead ∧ (s.regRead r).host.guardWrite = s.host.guardWrite) ∨
        s.eng.done = true) := by
    intro r
    unfold State.regRead
    dsimp only
    split
    · rename_i hd; exact ⟨rfl, rfl, rfl, rfl, rfl, rfl, .inr hd.2⟩
    · exact ⟨rfl, rfl, rfl, rfl, rfl, rfl, .inl ⟨rfl, rfl⟩⟩
  unfold hostLoad at h
  dsimp only at h
  split at h
  · cases h
  · split at h
    · split at h
      · cases h; exact hr _
      · cases h
    · split at h
      · cases h
      · split at h
        · cases h
        · cases h; exact ⟨rfl, rfl, rfl, rfl, rfl, rfl, .inl ⟨rfl, rfl⟩⟩

end Sys2Proof.Machine
end

