-- ==== Sys2Proof/Laws/Engine.lean ====
section
/-! SUPPORT. What a turn of the engine does: one equation per phase and stage. -/

namespace Sys2Proof.Machine

theorem agentStep_engine (s : State) : agentStep .engine s = runNext (engineNext s) s := rfl

/-- An IDLE engine does nothing (60_exceptions.md R283). -/
theorem engine_idle {s : State} (h : s.eng.phase = .idle) : agentStep .engine s = .next s := by
  rw [agentStep_engine]
  simp only [engineNext, h, runNext]

/-- An accepted command word is run. -/
theorem engine_pending {s : State} {ld : Desc} {w : Word} (h : s.eng.phase = .busy ld (.pending w)) :
    agentStep .engine s = runWord w ld s := by
  have hd : decode .command (wordBytes w) = .ok (decodeCommand w, []) := by
    have := decode_command w []
    rwa [List.append_nil] at this
  rw [agentStep_engine]
  simp only [engineNext, h, runNext, hd, exec_decodeCommand, runCommand, if_true]

theorem engine_found {s : State} {ld : Desc} {m : MatchScratch} (h : s.eng.phase = .busy ld (.found m)) :
    agentStep .engine s = .next (stageParse ld m s) := by
  rw [agentStep_engine]
  simp only [engineNext, h, runNext]

theorem engine_parsed {s : State} {ld : Desc} {p : ParseScratch} (h : s.eng.phase = .busy ld (.parsed p)) :
    agentStep .engine s = .next (stageCheck ld p s) := by
  rw [agentStep_engine]
  simp only [engineNext, h, runNext]

theorem engine_emitting {s : State} {ld : Desc} {e : EmitScratch} (h : s.eng.phase = .busy ld (.emitting e)) :
    agentStep .engine s = .next (stageEmit ld e s) := by
  rw [agentStep_engine]
  simp only [engineNext, h, runNext]

/-- What the decode datapath does with the payload bytes left (44_block_decoder.md R201 to R209). -/
def decoderTurn (ld : Desc) (d : DecScratch) (bs : List Byte) (s : State) : State :=
  match d.at_, bs with
  | .token, [] => failDecode ld .truncatedToken d.ip s
  | .token, b :: _ => s.setDec ld ⟨d.ip + 1, afterToken (tokenLn b) (tokenMn b), d.win⟩
  | .litRun _ _, [] => failDecode ld .truncatedRun d.ip s
  | .litRun mn sum, b :: _ =>
    if b = 0xFF then s.setDec ld ⟨d.ip + 1, .litRun mn (sum + 255), d.win⟩
    else s.setDec ld ⟨d.ip + 1, .literals mn (15 + (sum + b.toNat)), d.win⟩
  | .literals mn lit, bs =>
    if bs.length < lit then failDecode ld .truncatedLiterals d.ip s
    else if ld.cap < d.win.length - ld.P + lit then failDecode ld .oversize d.ip s
    else afterLiterals ld (d.ip + lit) mn (d.win ++ bs.take lit) s
  | .offset mn, lo :: hi :: _ =>
    if le16 lo hi = 0 ∨ d.op < le16 lo hi then failDecode ld .badOffset (d.ip + 2) s
    else afterOffset ld (d.ip + 2) (le16 lo hi) mn d.win s
  | .offset _, _ => failDecode ld .truncatedOffset d.ip s
  | .matchRun _ _, [] => failDecode ld .truncatedRun d.ip s
  | .matchRun off sum, b :: _ =>
    if b = 0xFF then s.setDec ld ⟨d.ip + 1, .matchRun off (sum + 255), d.win⟩
    else matchOrFail ld (d.ip + 1) off (19 + (sum + b.toNat)) d.win s

/-- The error's name where the payload ends inside an element (44_block_decoder.md R212). -/
def DecPos.truncation : DecPos → Detail
  | .token => .truncatedToken
  | .litRun _ _ => .truncatedRun
  | .literals _ _ => .truncatedLiterals
  | .offset _ => .truncatedOffset
  | .matchRun _ _ => .truncatedRun

theorem truncated_next {s : State} {ld : Desc} {d : DecScratch} (h : s.eng.phase = .busy ld (.decoding d)) :
    truncated s = .next (failDecode ld d.at_.truncation d.ip s) := by
  simp only [truncated, withDecoder, h]
  cases d.at_ <;> rfl

/-- A turn of a decoding engine never stops. -/
theorem engine_decoding {s : State} {ld : Desc} {d : DecScratch} (h : s.eng.phase = .busy ld (.decoding d)) :
    agentStep .engine s = .next (decoderTurn ld d (s.mem.readRange (ld.inp + d.ip) (ld.n - d.ip)) s) := by
  rw [agentStep_engine]
  simp only [engineNext, h, runNext]
  generalize s.mem.readRange (ld.inp + d.ip) (ld.n - d.ip) = bs
  obtain ⟨ip, p, win⟩ := d
  have ht := truncated_next h
  cases p with
  | token =>
    match bs with
    | [] => simp only [DecPos.pos, decode, rejectUnit, ht, decoderTurn, DecPos.truncation]
    | b :: r =>
      simp only [DecPos.pos, decode, decoderTurn]
      unfold decodeToken
      split
      · rename_i hm
        simp only [exec, execLast, readToken, withDecoder, h, hm.1]
      · simp only [exec, execSeq, readToken, withDecoder, h]
  | litRun mn sum =>
    match bs with
    | [] => simp only [DecPos.pos, decode, rejectUnit, ht, decoderTurn, DecPos.truncation]
    | b :: r =>
      simp only [DecPos.pos, decode, decoderTurn]
      by_cases hb : b = 0xFF
      · simp only [if_pos hb, exec, execRunFf, withDecoder, h]
      · simp only [if_neg hb, exec, execRunEnd, withDecoder, h]
  | literals mn lit =>
    simp only [DecPos.pos, decode, decoderTurn]
    by_cases hl : bs.length < lit
    · simp only [if_pos hl, rejectUnit, ht, DecPos.truncation]
    · have hk : (bs.take lit).length = lit := by rw [List.length_take]; omega
      simp only [if_neg hl, exec, execLiterals, withDecoder, h, hk, if_true]
      split <;> rfl
  | offset mn =>
    match bs with
    | [] => simp only [DecPos.pos, decode, rejectUnit, ht, decoderTurn, DecPos.truncation]
    | [_] => simp only [DecPos.pos, decode, rejectUnit, ht, decoderTurn, DecPos.truncation]
    | lo :: hi :: r =>
      simp only [DecPos.pos, decode, decoderTurn, exec, execOffset16, withDecoder, h]
      split <;> rfl
  | matchRun off sum =>
    match bs with
    | [] => simp only [DecPos.pos, decode, rejectUnit, ht, decoderTurn, DecPos.truncation]
    | b :: r =>
      simp only [DecPos.pos, decode, decoderTurn]
      by_cases hb : b = 0xFF
      · simp only [if_pos hb, exec, execRunFf, withDecoder, h]
      · simp only [if_neg hb, exec, execRunEnd, withDecoder, h]

end Sys2Proof.Machine
end

