-- ==== Sys2Proof/Laws/Commands.lean ====
section
/-! SUPPORT. What the endings of the commands leave. -/

namespace Sys2Proof.Machine

theorem SameOutside.refl (s : State) : SameOutside s s := ⟨rfl, rfl, rfl⟩

theorem unspecified_scramble (s : State) (r : Region) : Unspecified (s.scramble r) r s.draws :=
  fun _ h => read_scramble h

theorem sameMemOutside_scramble (s : State) (r : Region) : SameMemOutside [r] s (s.scramble r) :=
  fun _ h => read_scramble_outside (h r (List.mem_singleton.2 rfl))

/-- What a failing check of the decode datapath leaves (44_block_decoder.md R212). -/
theorem failDecode_failed (ld : Desc) (detail : Detail) (ip : Nat) (s : State) :
    Failed s ld detail ip (failDecode ld detail ip s) :=
  ⟨rfl, sameMemOutside_scramble s _, unspecified_scramble s _, .refl s⟩

/-- What an OK ending of the decode datapath leaves (44_block_decoder.md R204, 20_memory.md R62). -/
theorem finishDecode_decoded {ld : Desc} {win : List Byte} (s : State) (hp : ld.P ≤ win.length)
    (hc : win.length ≤ ld.P + ld.cap) : Decoded s ld win (finishDecode ld win s) := by
  have hl : (win.drop ld.P).length = win.length - ld.P := List.length_drop
  have hm : (finishDecode ld win s).mem =
      (s.mem.writeRange (ld.win + ld.P) (win.drop ld.P)).freeRange (ld.win + win.length)
        (ld.P + ld.cap - win.length) s.draws := by
    have e1 : ld.win + ld.P + (win.length - ld.P) = ld.win + win.length := by omega
    have e2 : ld.cap - (win.length - ld.P) = ld.P + ld.cap - win.length := by omega
    rw [← e1, ← e2, ← hl]
    rfl
  refine ⟨?_, ?_, ?_, ?_, .refl s⟩
  · show _ = { s.eng with
      phase := .idle, done := true, code := .ok, detail := .none, errPos := 0, tokens := 0
      outLen := BitVec.ofNat 32 (win.length - ld.P) }
    rw [← hl]
    rfl
  · rw [hm, Memory.readRange_freeRange_outside _ (by omega), ← hl]
    exact Memory.readRange_writeRange_same _ _ _
  · intro i hi
    rw [hm]
    exact Memory.read_freeRange_inside _ hi
  · intro a ha
    have := ha _ (List.mem_singleton.2 rfl)
    rw [holds_false_iff] at this
    simp only [Desc.decompressOut] at this
    rw [hm, Memory.read_freeRange_outside _ (by omega),
      Memory.read_writeRange_outside _ (by rw [hl]; omega)]

/-- What each ending of a compress command leaves of memory (20_memory.md R62). -/
theorem finishCompress_mem (ld : Desc) (tokens : Nat) (res : EncResult) (s : State) :
    match res with
    | .payload bytes => (finishCompress ld tokens res s).mem = s.mem.writeRange ld.out bytes
    | .incompressible =>
      SameMemOutside [ld.compressOut] s (finishCompress ld tokens res s) ∧
        Unspecified (finishCompress ld tokens res s) ld.compressOut s.draws
    | .internal =>
      SameMemOutside [ld.compressOut] s (finishCompress ld tokens res s) ∧
        Unspecified (finishCompress ld tokens res s) ld.compressOut s.draws := by
  cases res with
  | payload bytes => rfl
  | incompressible => exact ⟨sameMemOutside_scramble s _, unspecified_scramble s _⟩
  | internal => exact ⟨sameMemOutside_scramble s _, unspecified_scramble s _⟩

theorem encResult_payload {l : Nat} {payload bytes : List Byte} (h : encResult l payload = .payload bytes) :
    bytes = payload ∧ payload.length ≤ l := by
  unfold encResult at h
  split at h
  · cases h
  · cases h
    exact ⟨rfl, by omega⟩

theorem encodeBlock_payload {par : Params} {p : Nat} {blk bytes : List Byte} {cmds : List Cmd}
    (h : encodeBlock par p blk cmds = .payload bytes) :
    checkCmds par p blk.length 0 cmds = true ∧ bytes = assemble (emitCmds cmds blk) ∧
      bytes.length ≤ blk.length := by
  unfold encodeBlock at h
  split at h
  · rename_i hc
    obtain ⟨rfl, hl⟩ := encResult_payload h
    exact ⟨hc, rfl, hl⟩
  · cases h

end Sys2Proof.Machine
end

