-- ==== Sys2Proof/Laws/Host.lean ====
section
/-! SUPPORT. What a turn of the host can do. -/

namespace Sys2Proof.Machine

/-- `t` differs from `s` in the host alone, and not in the hands-off record. -/
def HostOnly (s t : State) : Prop :=
  t.par = s.par ∧ t.eng = s.eng ∧ t.mem = s.mem ∧ t.inputs = s.inputs ∧ t.draws = s.draws ∧
  t.host.guardRead = s.host.guardRead ∧ t.host.guardWrite = s.host.guardWrite

theorem HostOnly.refl (s : State) : HostOnly s s := ⟨rfl, rfl, rfl, rfl, rfl, rfl, rfl⟩

theorem HostOnly.setFrame (s : State) (f : FrameRun) : HostOnly s (s.setFrame f) :=
  ⟨rfl, rfl, rfl, rfl, rfl, rfl, rfl⟩

theorem HostOnly.popAct (s : State) : HostOnly s s.popAct := by
  unfold State.popAct
  split
  · split
    · exact ⟨rfl, rfl, rfl, rfl, rfl, rfl, rfl⟩
    · exact .setFrame _ _
  · exact ⟨rfl, rfl, rfl, rfl, rfl, rfl, rfl⟩

theorem HostOnly.trans {s t u : State} (h : HostOnly s t) (k : HostOnly t u) : HostOnly s u := by
  obtain ⟨h1, h2, h3, h4, h5, h6, h7⟩ := h
  obtain ⟨k1, k2, k3, k4, k5, k6, k7⟩ := k
  exact ⟨k1.trans h1, k2.trans h2, k3.trans h3, k4.trans h4, k5.trans h5, k6.trans h6, k7.trans h7⟩

theorem HostOnly.endFrame (s : State) (f : FrameRun) (r : HostResult) : HostOnly s (s.endFrame f r) :=
  .setFrame _ _

theorem HostOnly.streamDone (s : State) (f : FrameRun) : HostOnly s (s.streamDone f) := by
  unfold State.streamDone
  split
  · exact .setFrame _ _
  · exact .endFrame _ _ _

theorem HostOnly.decodeDone (s : State) (f : FrameRun) : HostOnly s (s.decodeDone f) := by
  unfold State.decodeDone
  split
  · exact .endFrame _ _ _
  · split <;> exact .endFrame _ _ _

/-- Starting a run sets the run and nothing else. -/
theorem HostOnly.startJob (j : Job) (s : State) : HostOnly s (startJob j s) := by
  unfold Sys2Proof.Machine.startJob
  dsimp only
  split
  · exact .endFrame _ _ _
  · split
    · exact .endFrame _ _ _
    · exact .endFrame _ _ _
    · exact .endFrame _ _ _
    · split
      · exact .setFrame _ _
      · split
        · split
          · exact .endFrame _ _ _
          · exact .setFrame _ _
        · exact .setFrame _ _

/-- The host's own work changes the run alone. -/
theorem frameWork_next {f : FrameRun} {s t : State} (h : frameWork f s = .next t) : HostOnly s t := by
  unfold frameWork at h
  split at h
  · cases h; exact .setFrame _ _
  · cases h
    unfold nextBlock
    split
    · exact .streamDone _ _
    · exact .setFrame _ _
  · cases h
    unfold collectCompress
    split
    · dsimp only
      split
      · exact .streamDone _ _
      · exact .setFrame _ _
    · split
      · exact .endFrame _ _ _
      · exact .setFrame _ _
    all_goals exact .endFrame _ _ _
  · cases h
    unfold collectDecompress
    split
    · dsimp only
      split
      · exact .decodeDone _ _
      · exact .setFrame _ _
    all_goals exact .endFrame _ _ _
  all_goals first
    | cases h; exact .refl _
    | cases h

/-- The instructions a host reads from a stream. -/
def Instr.inContainer : Instr → Bool
  | .blkCompressed _ | .blkUncompressed _ | .blkEndmark | .frameHeader _ _ | .rawFooter => true
  | .compressBlock _ | .decompressBlock _ | .reservedCmd _ _ | .seq _ _ | .last _ | .runFf | .runEnd _
  | .offset16 _ _ | .literals _ => false

/-- A container word changes the run alone. -/
theorem exec_container {i : Instr} (hi : Instr.inContainer i = true) {s t : State} (h : exec i s = .next t) :
    HostOnly s t := by
  cases i <;> simp only [Instr.inContainer, Bool.false_eq_true] at hi <;>
    obtain ⟨f, -, -, -, rfl⟩ := withFrame_next h
  · split
    · exact .endFrame _ _ _
    · exact .setFrame _ _
  · split
    · exact .endFrame _ _ _
    · split
      · exact .endFrame _ _ _
      · exact .setFrame _ _
  · exact .decodeDone _ _
  · split
    · exact .endFrame _ _ _
    · exact .setFrame _ _
  · exact .setFrame _ _

/-- BD carries its block-max code. -/
@[simp] theorem codeOfBd_bdOf (c : BlockCode) : codeOfBd (bdOf c) = c := by cases c <;> decide

/-- Every code gives a legal BD. -/
@[simp] theorem legalBd_bdOf (c : BlockCode) : legalBd (bdOf c) = true := by cases c <;> decide

/-- The block-max code of a run is the one it is given, else BLOCK_CODE_DEFAULT. -/
@[simp] theorem FrameOpts.codeOf_none {o : FrameOpts} (h : o.code = none) (par : Params) :
    o.codeOf par = par.blockCodeDefault := by simp [FrameOpts.codeOf, h]

@[simp] theorem FrameOpts.codeOf_some {o : FrameOpts} {c : BlockCode} (h : o.code = some c) (par : Params) :
    o.codeOf par = c := by simp [FrameOpts.codeOf, h]

/-- What one access of the host, or one poll, can do. -/
inductive HostTurn (s t : State) : Prop where
  /-- nothing but to the host itself -/
  | own (h : HostOnly s t)
  /-- it read STATUS with DONE = 1: the hands-off record may be lifted -/
  | acquired (hp : t.par = s.par) (he : t.eng = s.eng) (hm : t.mem = s.mem) (hi : t.inputs = s.inputs)
      (hd : s.eng.done = true)
  /-- it read a register or memory and keeps its hands off -/
  | read (hp : t.par = s.par) (he : t.eng = s.eng) (hm : t.mem = s.mem) (hi : t.inputs = s.inputs)
      (hr : t.host.guardRead = s.host.guardRead) (hw : t.host.guardWrite = s.host.guardWrite)
  /-- it wrote a register -/
  | reg (u : State) (hu : HostOnly s u) (ht : RegWritten u t)
  /-- it wrote memory it may touch -/
  | wrote (u : State) (addr : Nat) (bs : List Byte) (hu : HostOnly s u) (hb : addr + bs.length ≤ memSize s.par)
      (hr : meets ⟨addr, bs.length⟩ (registerFile s.par) = false)
      (hg : ∀ q ∈ s.host.guardRead ++ s.host.guardWrite, meets ⟨addr, bs.length⟩ q = false)
      (ht : t = u.write addr bs)

theorem perform_next {a : HostAct} {s t : State} (h : perform a s = .next t) : HostTurn s t := by
  have hp := HostOnly.popAct s
  unfold perform at h
  split at h
  · obtain ⟨p1, p2, p3, p4, p5, p6, p7⟩ := hp
    obtain ⟨k1, k2, k3, k4, -, -, k7⟩ := hostLoad_next h
    rcases k7 with k7 | k7
    · exact .read (k1.trans p1) (k2.trans p2) (k3.trans p3) (k4.trans p4) (k7.1.trans p6) (k7.2.trans p7)
    · exact .acquired (k1.trans p1) (k2.trans p2) (k3.trans p3) (k4.trans p4) (by rw [← p2]; exact k7)
  · obtain ⟨hb, h⟩ := hostStore_next h
    rcases h with h | ⟨hr, hg, rfl⟩
    · exact .reg _ hp h
    · rw [hp.1] at hr hb
      rw [hp.2.2.2.2.2.1, hp.2.2.2.2.2.2] at hg
      exact .wrote _ _ _ hp hb hr hg rfl
  · obtain ⟨p1, p2, p3, p4, p5, p6, p7⟩ := hp
    obtain ⟨bs, rfl⟩ := hostLoadBase_next h
    exact .read p1 p2 p3 p4 p6 p7
  · exact .reg _ hp (hostStoreBase_next h)
  · cases h
    have key : ∀ u : State, HostOnly s u → HostTurn s (u.regRead .status) := by
      intro u hu
      obtain ⟨p1, p2, p3, p4, p5, p6, p7⟩ := hu
      unfold State.regRead
      dsimp only
      split
      · rename_i hd
        exact .acquired p1 p2 p3 p4 (by rw [← p2]; exact hd.2)
      · exact .read p1 p2 p3 p4 p6 p7
    split
    · exact key _ hp
    · exact key _ (.refl _)
  · cases h
    exact .own (hp.trans (.startJob _ _))

/-- A place where the host reads its stream gives container words only. -/
theorem decode_container {p : Pos} (hp : p = .frameHeader ∨ p = .blockHeader ∨ p = .rawFooter) {bs r : List Byte}
    {i : Instr} (h : decode p bs = .ok (i, r)) : Instr.inContainer i = true := by
  have hb : ∀ w, Instr.inContainer (decodeBlockHeader w) = true := by
    intro w
    unfold decodeBlockHeader
    split
    · rfl
    · split <;> rfl
  rcases hp with rfl | rfl | rfl
  · match bs with
    | m0 :: m1 :: m2 :: m3 :: flg :: bd :: hc :: q =>
      simp only [decode] at h
      split at h
      · split at h
        · split at h
          · cases h; rfl
          · cases h
        · cases h
      · cases h
    | [] | [_] | [_, _] | [_, _, _] | [_, _, _, _] | [_, _, _, _, _] | [_, _, _, _, _, _] => cases h
  · match bs with
    | b0 :: b1 :: b2 :: b3 :: q => cases h; exact hb _
    | [] | [_] | [_, _] | [_, _, _] => cases h
  · match bs with
    | b0 :: b1 :: q =>
      simp only [decode] at h
      split at h
      · cases h; rfl
      · cases h
    | [] | [_] => cases h

theorem badContainer_next {r : Reject} {s t : State} (h : badContainer r s = .next t) : HostOnly s t := by
  unfold badContainer at h
  split at h
  · cases h; exact .endFrame _ _ _
  · cases h

/-- A reject at a place where the host reads its stream ends the run. -/
theorem rejectUnit_container {p : Pos} (hp : p = .frameHeader ∨ p = .blockHeader ∨ p = .rawFooter)
    {bs : List Byte} {r : Reject} (hd : decode p bs = .error r) {s t : State} (h : rejectUnit r s = .next t) :
    HostOnly s t := by
  suffices hr : rejectUnit r s = badContainer r s by rw [hr] at h; exact badContainer_next h
  rcases hp with rfl | rfl | rfl
  · match bs with
    | m0 :: m1 :: m2 :: m3 :: flg :: bd :: hc :: q =>
      simp only [decode] at hd
      split at hd
      · split at hd
        · split at hd
          · cases hd
          · cases hd; rfl
        · cases hd; rfl
      · cases hd; rfl
    | [] | [_] | [_, _] | [_, _, _] | [_, _, _, _] | [_, _, _, _, _] | [_, _, _, _, _, _] => cases hd; rfl
  · match bs with
    | b0 :: b1 :: b2 :: b3 :: q => cases hd
    | [] | [_] | [_, _] | [_, _, _] => cases hd; rfl
  · match bs with
    | b0 :: b1 :: q =>
      simp only [decode] at hd
      split at hd
      · cases hd
      · cases hd; rfl
    | [] | [_] => cases hd; rfl

/-- Everything a turn of the host can do. -/
theorem host_turn {s t : State} (h : agentStep .host s = .next t) : HostTurn s t := by
  have hu : ∀ {p bs}, p = .frameHeader ∨ p = .blockHeader ∨ p = .rawFooter →
      runNext (.unit p bs) s = .next t → HostTurn s t := by
    intro p bs hp h
    unfold runNext at h
    dsimp only at h
    split at h
    · rename_i i r hd
      exact .own (exec_container (decode_container hp hd) h)
    · rename_i r hd
      exact .own (rejectUnit_container hp hd h)
  unfold agentStep agentNext hostNext at h
  dsimp only at h
  split at h
  · split at h
    · split at h
      · exact perform_next h
      · cases h; exact .own (.refl _)
    · split at h
      · exact perform_next h
      · split at h
        · exact hu (.inl rfl) h
        · exact hu (.inr (.inl rfl)) h
        · exact hu (.inr (.inr rfl)) h
        · exact .own (frameWork_next h)
  · split at h
    · exact perform_next h
    · cases h; exact .own (.refl _)

end Sys2Proof.Machine
end

