-- ==== Sys2Proof/Laws/PerInstr.lean ====
section
/-! SUPPORT. Statements about every instruction, proved constructor by constructor. -/

namespace Sys2Proof.Laws.EncodeLength

/-- How many bits the opcode table gives the row of an instruction (spec/opcode_table.json, width); LITERALS
has as many bytes as it copies (30_encoding.md R82). -/
def width : Instr → Nat
  | .compressBlock _ => 32
  | .decompressBlock _ => 32
  | .reservedCmd _ _ => 32
  | .seq _ _ => 8
  | .last _ => 8
  | .runFf => 8
  | .runEnd _ => 8
  | .offset16 _ _ => 16
  | .literals bytes => 8 * bytes.length
  | .blkCompressed _ => 32
  | .blkUncompressed _ => 32
  | .blkEndmark => 32
  | .frameHeader _ _ => 56
  | .rawFooter => 16

/-- An instruction is encoded in the bytes its row has. -/
def Statement (i : Instr) : Prop := 8 * (encode i).length = width i

theorem compressBlock (ignored : BitVec 28) : Statement (.compressBlock ignored) := rfl
theorem decompressBlock (ignored : BitVec 28) : Statement (.decompressBlock ignored) := rfl
theorem reservedCmd (op : BitVec 4) (ignored : BitVec 28) : Statement (.reservedCmd op ignored) := rfl
theorem seq (ln mn : BitVec 4) : Statement (.seq ln mn) := rfl
theorem last (ln : BitVec 4) : Statement (.last ln) := rfl
theorem runFf : Statement .runFf := rfl
theorem runEnd (e : Byte) : Statement (.runEnd e) := rfl
theorem offset16 (lo hi : Byte) : Statement (.offset16 lo hi) := rfl
theorem literals (bytes : List Byte) : Statement (.literals bytes) := rfl
theorem blkCompressed (size : BitVec 31) : Statement (.blkCompressed size) := rfl
theorem blkUncompressed (size : BitVec 31) : Statement (.blkUncompressed size) := rfl
theorem blkEndmark : Statement .blkEndmark := rfl
theorem frameHeader (bd hc : Byte) : Statement (.frameHeader bd hc) := rfl
theorem rawFooter : Statement .rawFooter := rfl

end Sys2Proof.Laws.EncodeLength
end

