-- ==== Sys2Proof/Tests/Slice0.lean ====
section
/-! SUPPORT. The model's own tests. Expected results are the spec's own encodings and vectors
(30_encoding.md, 95_test_vectors.md), never the model's answers. Witnesses show that the hypotheses of a
statement can be met. -/

namespace Sys2Proof.Tests

open Sys2Proof Sys2Proof.Machine

/-! ## Helpers -/

/-- The state of an outcome passes a check. -/
def nextIs (o : Out) (f : State → Bool) : Bool :=
  match o with
  | .next t => f t
  | .fault _ => false
  | .refused _ => false

/-- The decoder's answer, as data that can be compared. -/
def decoded (p : Pos) (bs : List Byte) : Option (Instr × List Byte) :=
  match decode p bs with
  | .ok x => some x
  | .error _ => none

/-- A byte string of numbers. -/
def bytes (l : List Nat) : List Byte := l.map (BitVec.ofNat 8)

/-- The window "a" × 10 of V-MF-1. -/
def tenA : List Byte := List.replicate 10 0x61

/-- The descriptor of program P1. -/
def descP1 : Desc := ⟨0x1000, 0, 10, 0, 0, 0x2000⟩

/-- A machine with memory and descriptor registers set, IDLE. -/
def idle (m : Memory) (ld : Desc) : State :=
  { State.reset with
    mem := m
    eng := { Engine.reset with
      winBase := ld.winBase, prefixLen := ld.prefixLen, blockLen := ld.blockLen, inBase := ld.inBase,
      inLen := ld.inLen, outBase := ld.outBase } }

/-- Candidate lists of the window of V-MF-1, as that vector gives them. -/
def candsTenA : List (List Cand) := [[], [⟨1, 4⟩], [], [], [], [], [], [], [], []]

/-- Parameters whose parse of V-MF-1's block is the literal-only one (42_optimal_parser.md R169). -/
def parseLiterals : Params := { parses := [(candsTenA, [.last 10])] }

/-- Parameters whose parse of that block is none R161 admits. -/
def parseBad : Params := { parses := [(candsTenA, [.last 9])] }

/-- Program P1 before its CMD write. -/
def p1 : State := idle (Memory.writeRange {} 0x1000 tenA) descP1

/-- A decompress command over a payload at 0x1000, its window at 0x2000 with a prefix. -/
def dec (payload pre : List Byte) (cap : Nat) : State :=
  idle (Memory.writeRange (Memory.writeRange {} 0x1000 payload) 0x2000 pre)
    ⟨0x2000, BitVec.ofNat 32 pre.length, BitVec.ofNat 32 cap, 0x1000, BitVec.ofNat 32 payload.length, 0⟩

/-- The same, with the decode datapath at a place. -/
def decAt (payload pre : List Byte) (cap ip : Nat) (p : DecPos) (win : List Byte) : State :=
  let s := (dec payload pre cap).startCommand 2
  s.withDec (latch s.eng) ip p win

/-- A frame-layer run in a phase, with a stream to read. -/
def framed (p : FramePhase) (src : List Byte) : State :=
  State.reset.withRun { phase := p, src := src }

/-- STATUS and the bytes at an address after an outcome. -/
def endsWith (o : Out) (status : Word) (addr : Nat) (out : List Byte) : Bool :=
  nextIs o fun t => statusWord t.eng == status && t.mem.readRange addr out.length == out

/-! ## WellFormed refuses what is no encoding -/

theorem test_wf_reserved_1 : (Instr.reservedCmd 1 0).wellFormed = false := rfl
theorem test_wf_reserved_2 : (Instr.reservedCmd 2 0).wellFormed = false := rfl
theorem test_wf_runEnd : (Instr.runEnd 0xFF).wellFormed = false := rfl
theorem test_wf_blkCompressed : (Instr.blkCompressed 0).wellFormed = false := rfl
theorem test_wf_frameHeader : (Instr.frameHeader 0x30 0xC0).wellFormed = false := rfl
theorem test_wf_frameHeader_low : (Instr.frameHeader 0x41 0xC0).wellFormed = false := rfl

/-! ## Decoding: a word of every row, written from 30_encoding.md -/

theorem test_decode_compressBlock : decoded .command [0x01, 0, 0, 0] = some (.compressBlock 0, []) := by decide
theorem test_decode_compressBlock_ignored :
    decoded .command [0x11, 0, 0, 0] = some (.compressBlock 1, []) := by decide
theorem test_decode_decompressBlock :
    decoded .command [0xF2, 0xFF, 0xFF, 0xFF] = some (.decompressBlock 0xFFFFFFF, []) := by decide
theorem test_decode_reservedCmd : decoded .command [0x0F, 0, 0, 0] = some (.reservedCmd 15 0, []) := by decide
theorem test_decode_reservedCmd_0 : decoded .command [0, 0, 0, 0] = some (.reservedCmd 0 0, []) := by decide
theorem test_decode_seq :
    decoded .token (bytes [0x13, 0x61, 0x01, 0x00, 0x00]) = some (.seq 1 3, bytes [0x61, 0x01, 0x00, 0x00]) := by
  decide
theorem test_decode_seq_zero_nibble :
    decoded .token (bytes [0x10, 0x61, 0x01, 0x00, 0x00]) = some (.seq 1 0, bytes [0x61, 0x01, 0x00, 0x00]) := by
  decide
theorem test_decode_last : decoded .token [0x20, 0x61, 0x62] = some (.last 2, [0x61, 0x62]) := by decide
theorem test_decode_last_empty : decoded .token [0x00] = some (.last 0, []) := by decide
theorem test_decode_runFf : decoded .run [0xFF, 0x14] = some (.runFf, [0x14]) := by decide
theorem test_decode_runEnd : decoded .run [0xFE] = some (.runEnd 0xFE, []) := by decide
theorem test_decode_offset16 : decoded .offset [0x34, 0x12] = some (.offset16 0x34 0x12, []) := by decide
theorem test_offset_value : le16 0x34 0x12 = 0x1234 := by decide
theorem test_decode_literals :
    decoded (.literals 2) [0x61, 0x62, 0x63] = some (.literals [0x61, 0x62], [0x63]) := by decide
theorem test_decode_blkCompressed : decoded .blockHeader [0x0B, 0x01, 0, 0] = some (.blkCompressed 267, []) := by
  decide
theorem test_decode_blkUncompressed : decoded .blockHeader [0x03, 0, 0, 0x80] = some (.blkUncompressed 3, []) := by
  decide
theorem test_decode_blkEndmark : decoded .blockHeader [0, 0, 0, 0] = some (.blkEndmark, []) := by decide
theorem test_decode_frameHeader :
    decoded .frameHeader [0x04, 0x22, 0x4D, 0x18, 0x40, 0x70, 0xC0] = some (.frameHeader 0x70 0xC0, []) := by
  decide
theorem test_decode_rawFooter : decoded .rawFooter [0, 0] = some (.rawFooter, []) := by decide
theorem test_decode_badFlags : decode .frameHeader [0x04, 0x22, 0x4D, 0x18, 0x41, 0x70, 0xC0] = .error .badFlags := by
  rfl
theorem test_decode_badBd :
    decode .frameHeader [0x04, 0x22, 0x4D, 0x18, 0x40, 0x30, 0xC0] = .error .badDescriptor := by rfl
theorem test_decode_badFooter : decode .rawFooter [0, 1] = .error .badFooter := by rfl
/-- S-ENC-3: run value 275 is FF 14, 255 is FF 00, 0 is 00. -/
theorem test_run_values :
    readRun [0xFF, 0x14] = some (275, []) ∧ assemble (emitRun 255) = [0xFF, 0x00] ∧ assemble (emitRun 0) = [0x00] := by
  decide
/-- A table word of each width reaches its row, and the step runs it first after reset. -/
theorem test_tableWords :
    decodeTableWord 32 1 = some (.compressBlock 0) ∧ decodeTableWord 32 2 = some (.decompressBlock 0) ∧
    decodeTableWord 32 3 = some (.reservedCmd 3 0) ∧ decodeTableWord 8 0x11 = some (.seq 1 1) ∧
    decodeTableWord 8 0 = some (.last 0) ∧ decodeTableWord 8 0xFF = some .runFf ∧
    decodeTableWord 16 0x0100 = some (.offset16 0 1) ∧ decodeTableWord 32 0x80000000 = some (.blkUncompressed 0) ∧
    decodeTableWord 32 0 = some .blkEndmark ∧
    decodeTableWord 56 0xC07040184D2204 = some (.frameHeader 0x70 0xC0) ∧ decodeTableWord 16 0 = some .rawFooter := by
  decide
theorem test_withFetchWord :
    nextIs (step (State.reset.withFetchWord 32 3)) (fun t => statusWord t.eng == 0x00010402) = true ∧
    nextIs (step (State.reset.withFetchWord 8 0x11)) (fun t => t.busy) = true ∧
    nextIs (step (State.reset.withFetchWord 16 0)) (fun t => t.host.frame.isSome) = true := by
  decide +kernel

/-! ## The stages of a compress command -/

/-- V-MF-1. -/
theorem test_candidates_tenA :
    matchCandidates {} tenA 0 = [[], [⟨1, 4⟩], [], [], [], [], [], [], [], []] := by decide +kernel
/-- V-MF-6: a match into the prefix. -/
theorem test_candidates_prefix :
    (matchCandidates {} (bytes [65, 66, 67, 68, 69, 70, 71, 72, 65, 66, 67, 68, 69, 70, 71, 72, 73, 74, 75, 76, 77]) 8).take 5 =
      [[⟨8, 8⟩], [⟨8, 7⟩], [⟨8, 6⟩], [⟨8, 5⟩], [⟨8, 4⟩]] := by decide +kernel
/-- 41_match_finder.md R155 and R150: both entries of position 14, and with NCAND = 1 the longest. -/
theorem test_candidates_cap :
    (matchCandidates {} (bytes [97, 98, 99, 100, 101, 102, 81, 81, 97, 98, 99, 100, 82, 82, 97, 98, 99, 100, 101, 102,
      122, 122, 122, 122, 122]) 0)[14]? = some [⟨6, 4⟩, ⟨14, 6⟩] ∧
    (matchCandidates { nCand := some 1 } (bytes [97, 98, 99, 100, 101, 102, 81, 81, 97, 98, 99, 100, 82, 82, 97, 98,
      99, 100, 101, 102, 122, 122, 122, 122, 122]) 0)[14]? = some [⟨14, 6⟩] := by decide +kernel
/-- V-PAR-1. -/
theorem test_parse_tenA : parse (matchCandidates {} tenA 0) = [.seq 1 1 4, .last 5] := by decide +kernel
/-- V-PAR-8: tie-break (2) of R165. -/
theorem test_parse_tieBreak :
    parse (matchCandidates {}
      (bytes [98, 97, 97, 97, 98, 98, 97, 97, 98, 98, 98, 98, 98, 98, 98, 97, 98, 97, 97, 97, 97, 97, 98]) 0) =
      [.seq 6 4 4, .seq 0 1 5, .last 8] := by decide +kernel
/-- The invariant check vectors of part 2.3. -/
theorem test_check_internal :
    encodeBlock {} 0 tenA [.seq 0 1 4, .last 6] = .internal ∧
    encodeBlock {} 0 tenA [.seq 1 1 5, .last 4] = .internal ∧
    encodeBlock {} 0 tenA [.seq 1 1 4, .last 4] = .internal := by decide +kernel

/-! ## The commands -/

/-- P1: COMPRESS_BLOCK on "a" × 10. -/
theorem test_compress_P1 :
    endsWith (exec (.compressBlock 0) p1) 0x00000002 0x2000
      (bytes [0x10, 0x61, 0x01, 0x00, 0x50, 0x61, 0x61, 0x61, 0x61, 0x61]) = true ∧
    nextIs (exec (.compressBlock 0) p1) (fun t => t.eng.outLen == 10 && t.eng.tokens == 2 && t.eng.cmdOp == 1) = true := by
  decide +kernel
/-- V-CMD-4: INCOMPRESSIBLE, TOKENS 1. -/
theorem test_compress_incompressible :
    nextIs (exec (.compressBlock 0) (idle (Memory.writeRange {} 0x1000 (List.replicate 8 0x61)) { descP1 with blockLen := 8 }))
      (fun t => statusWord t.eng == 0x00000102 && t.eng.tokens == 1) = true := by decide +kernel
/-- V-DEC-4: a match into the prefix. -/
theorem test_decompress_prefix :
    endsWith (exec (.decompressBlock 0) (dec [0x04, 0x08, 0x00, 0x00] (bytes [65, 66, 67, 68, 69, 70, 71, 72]) 8))
      0x00000002 0x2000 (bytes [65, 66, 67, 68, 69, 70, 71, 72, 65, 66, 67, 68, 69, 70, 71, 72]) = true := by
  decide +kernel
/-- V-DEC-3 and V-CMD-7: OVERSIZE at 4. -/
theorem test_decompress_oversize :
    nextIs (exec (.decompressBlock 0) (dec [0x12, 0x61, 0x01, 0x00, 0x00] [] 6))
      (fun t => statusWord t.eng == 0x00070302 && t.eng.errPos == 4 && t.eng.tokens == 0) = true := by
  decide +kernel
/-- V-CMD-8. -/
theorem test_reserved :
    nextIs (exec (.reservedCmd 0 0) State.reset) (fun t => statusWord t.eng == 0x00010402 && t.mem == {}) = true := by
  decide +kernel
/-- V-CMD-12: the prefix check comes first. -/
theorem test_compress_badDescriptor :
    nextIs (exec (.compressBlock 0) (idle {} { descP1 with prefixLen := 65537, blockLen := 4194305 }))
      (fun t => statusWord t.eng == 0x00020402) = true ∧
    nextIs (exec (.compressBlock 0) (idle {} { descP1 with winBase := 0xFFFFFFF0, blockLen := 32 }))
      (fun t => statusWord t.eng == 0x00040402) = true := by decide +kernel
/-- V-CMD-15. -/
theorem test_decompress_badDescriptor :
    nextIs (exec (.decompressBlock 0) (idle {} { descP1 with inLen := 4194305 }))
      (fun t => statusWord t.eng == 0x00030402) = true := by decide +kernel

/-- 42_optimal_parser.md R169: another admissible parse runs, here one with no match, longer than the block
(V-CMD-4's ending). -/
theorem test_compress_otherParse :
    parseLiterals.Legal ∧
    nextIs (exec (.compressBlock 0) { p1 with par := parseLiterals })
      (fun t => statusWord t.eng == 0x00000102 && t.eng.tokens == 1) = true := by decide +kernel
/-- 43_block_encoder.md R188: a parse that does not cover the block is COMPRESSION_INTERNAL. -/
theorem test_compress_internal :
    nextIs (exec (.compressBlock 0) { p1 with par := parseBad }) (fun t => statusWord t.eng == 0x00000202) = true := by
  decide +kernel

/-! ## ADDR_W (00_scope.md R6, 10_state.md R22) -/

/-- 20_memory.md R66: 0xFFFF + 1 bytes fit in 2^16, one more does not. -/
theorem test_addrW_16 :
    checkCompress { addrW := 16 } { descP1 with winBase := 0xFFF0, blockLen := 16 } = none ∧
    checkCompress { addrW := 16 } { descP1 with winBase := 0xFFF0, blockLen := 17 } = some .bufferWraps := by decide
/-- A base register of 40 bits is set whole, and read back; a five-byte access to its offset is refused (10_state.md
R23, 20_memory.md R64), as is a transfer of a register of 32 bits. -/
theorem test_addrW_40 :
    nextIs (hostStoreBase .win 0xAB12345678 { p1 with par := { addrW := 40 } })
      (fun t => t.eng.winBase == 0xAB12345678 &&
        nextIs (hostLoadBase .win t) (fun u => u.host.rdata == bytes [0x78, 0x56, 0x34, 0x12, 0xAB])) = true ∧
    hostStore 0x40000008 (bytes [0, 0, 0, 0, 0]) { p1 with par := { addrW := 40 } } = .refused .registerAccess ∧
    hostStoreBase .win 0 p1 = .refused .registerAccess := by
  refine ⟨by decide +kernel, rfl, rfl⟩

/-! ## The payload elements, from the byte strings of R216 -/

theorem test_seq :
    nextIs (exec (.seq 1 3) (decAt (bytes [0x13, 0x61, 0x01, 0x00, 0x00]) [] 16 0 .token []))
      (fun t => decide (t.eng.phase = .busy (latch t.eng) (.decoding ⟨1, .literals 3 1, []⟩))) = true := by
  decide +kernel
theorem test_last :
    nextIs (exec (.last 15) (decAt [0xF0] [] 16 0 .token []))
      (fun t => decide (t.eng.phase = .busy (latch t.eng) (.decoding ⟨1, .litRun 0 0, []⟩))) = true := by
  decide +kernel
theorem test_runFf :
    nextIs (exec .runFf (decAt [0xF0, 0xFF] [] 16 1 (.litRun 0 0) []))
      (fun t => decide (t.eng.phase = .busy (latch t.eng) (.decoding ⟨2, .litRun 0 255, []⟩))) = true := by
  decide +kernel
theorem test_runEnd_match :
    nextIs (exec (.runEnd 0) (decAt (bytes [0x1F, 0x61, 0x01, 0x00, 0x00, 0x00]) [] 20 4 (.matchRun 1 0) [0x61]))
      (fun t => decide (t.eng.phase =
        .busy (latch t.eng) (.decoding ⟨5, .token, List.replicate 20 0x61⟩))) = true := by decide +kernel
theorem test_literals_end :
    endsWith (exec (.literals [0x62]) (decAt (bytes [0x13, 0x61, 0x01, 0x00, 0x10, 0x62]) [] 16 5 (.literals 0 1)
      (List.replicate 8 0x61))) 0x00000002 0x2000 (List.replicate 8 0x61 ++ [0x62]) = true := by decide +kernel
theorem test_literals_badLast :
    nextIs (exec (.literals [0x61]) (decAt [0x11, 0x61] [] 16 1 (.literals 1 1) []))
      (fun t => statusWord t.eng == 0x00060302 && t.eng.errPos == 2) = true := by decide +kernel
theorem test_offset16_zero :
    nextIs (exec (.offset16 0 0) (decAt (bytes [0x11, 0x61, 0x00, 0x00, 0x00]) [] 16 2 (.offset 1) [0x61]))
      (fun t => statusWord t.eng == 0x00050302 && t.eng.errPos == 4) = true := by decide +kernel
theorem test_offset16_copy :
    nextIs (exec (.offset16 1 0) (decAt (bytes [0x13, 0x61, 0x01, 0x00, 0x00]) [] 16 2 (.offset 3) [0x61]))
      (fun t => decide (t.eng.phase =
        .busy (latch t.eng) (.decoding ⟨4, .token, List.replicate 8 0x61⟩))) = true := by decide +kernel

/-! ## The frame layer -/

/-- V-FRM-7: HC 0xC0 with BD 0x70. -/
theorem test_frameHeader :
    nextIs (exec (.frameHeader 0x70 0xC0) (framed .readHeader [0x04, 0x22, 0x4D, 0x18, 0x40, 0x70, 0xC0]))
      (fun t => decide (t.host.frame = some { phase := .readBlock })) = true := by decide +kernel
theorem test_frameHeader_checksum :
    nextIs (exec (.frameHeader 0x70 0x00) (framed .readHeader [0x04, 0x22, 0x4D, 0x18, 0x40, 0x70, 0x00]))
      (fun t => decide ((t.host.frame.map (·.phase)) = some (.ended (.failed .checksum none)))) = true := by
  decide +kernel
/-- 00_scope.md R6: a run given no block-max code takes BLOCK_CODE_DEFAULT and its BLOCK_MAX. -/
theorem test_blockCodeDefault :
    ((startJob { src := some [7] } { State.reset with par := { blockCodeDefault := .c5 } }).host.frame.map
      (·.blockMax)) = some 262144 ∧
    ((startJob { src := some [7] } State.reset).host.frame.map (·.blockMax)) = some 4194304 ∧
    emittedHeader {} .c5 = bytes [0x04, 0x22, 0x4D, 0x18, 0x40, 0x50, 0xC0] := by decide +kernel
/-- V-FRM-13: fewer bytes than the block header says. -/
theorem test_blkCompressed_short :
    nextIs (exec (.blkCompressed 5) (framed .readBlock [0x05, 0, 0, 0, 0x50, 0x61]))
      (fun t => decide ((t.host.frame.map (·.phase)) = some (.ended (.failed .src none)))) = true := by
  decide +kernel
theorem test_blkCompressed :
    nextIs (exec (.blkCompressed 1) (framed .readBlock [0x01, 0, 0, 0, 0x00]))
      (fun t => decide ((t.host.frame.map (fun f => (f.phase, f.todo.length))) = some (.awaitDecompress, 9))) = true := by
  decide +kernel
/-- The block of V-FRM-2. -/
theorem test_blkUncompressed :
    nextIs (exec (.blkUncompressed 3) (framed .readBlock [0x03, 0, 0, 0x80, 0x61, 0x62, 0x63]))
      (fun t => decide ((t.host.frame.map (·.out)) = some [0x61, 0x62, 0x63])) = true := by decide +kernel
/-- V-FRM-12. -/
theorem test_blkUncompressed_zero :
    nextIs (exec (.blkUncompressed 0) (framed .readBlock [0, 0, 0, 0x80]))
      (fun t => decide ((t.host.frame.map (·.phase)) = some (.ended (.failed .decompression none)))) = true := by
  decide +kernel
theorem test_blkEndmark :
    nextIs (exec .blkEndmark (framed .readBlock [0, 0, 0, 0]))
      (fun t => decide ((t.host.frame.map (·.phase)) = some (.ended .success))) = true := by decide +kernel
theorem test_rawFooter :
    nextIs (exec .rawFooter (framed .readFooter [0x00, 0, 0]))
      (fun t => decide ((t.host.frame.map (·.phase)) = some .awaitDecompress)) = true := by decide +kernel

/-! ## Registers, reset and the host -/

/-- V-RST-1. -/
theorem test_reset_registers : statusWord Engine.reset = 0 ∧ paramWord {} = 0x00000504 := by decide
/-- V-CMD-1 and V-CMD-9. -/
theorem test_cmdWrite :
    nextIs (hostStore 0x40000000 (wordBytes 0x11) p1)
      (fun t => statusWord t.eng == 0x00000001 && t.regValue .cmd == 1) = true := by decide +kernel
/-- V-CMD-17. -/
theorem test_write_while_busy :
    nextIs (hostStore 0x40000010 (wordBytes 5) (p1.startCommand 1)) (fun t => t.eng.blockLen == 10) = true := by
  decide +kernel
/-- V-RST-2: the window is unchanged, the output range is not the memory it was. -/
theorem test_reset_while_busy :
    nextIs (step ((p1.startCommand 1).setInputs [.reset]))
      (fun t => statusWord t.eng == 0 && t.eng.winBase == 0 && t.mem.readRange 0x1000 10 == tenA) = true := by
  decide +kernel
/-- 20_memory.md R69: a store into the window of a running command. -/
theorem test_handsOff : hostStore 0x1009 [0] (p1.startCommand 1) = .refused .handsOff := by rfl
/-- 20_memory.md R60, R66: a byte nobody has written is read. -/
theorem test_unwritten : nextIs (hostLoad 0x3000 1 p1) (fun t => t.host.rdata.length == 1) = true := by decide +kernel
/-- P1 with a prefix of 65537 bytes, a bad descriptor, its command accepted. -/
def busyBad : State := (idle (Memory.writeRange {} 0x1000 tenA) { descP1 with prefixLen := 65537 }).startCommand 1
/-- 70_reset_and_hazards.md R291, R296: the sets of R61 are those of a bad descriptor's command too. -/
theorem test_badDescriptor_sets :
    hostStore 0x1009 [0] busyBad = .refused .handsOff ∧ hostLoad 0x2000 1 busyBad = .refused .handsOff ∧
    busyBad.cutRanges = [⟨0x2000, 10⟩] := ⟨rfl, rfl, rfl⟩
/-- 10_state.md R23: a byte access to STATUS. -/
theorem test_byteAccess : hostLoad 0x40000004 1 State.reset = .refused .registerAccess := by rfl
/-- 20_memory.md R74. -/
theorem test_overlap :
    exec (.compressBlock 0) (idle (Memory.writeRange {} 0x1000 tenA) { descP1 with outBase := 0x1009 }) =
      .refused .buffersOverlap := by rfl

/-! ## Witnesses: the hypotheses of the statements can be met -/

/-- P1 with its command accepted. -/
def busyP1 : State := p1.startCommand 1
/-- P1 at the completion step of its command. -/
def ldP1 : Desc := latch p1.eng
/-- A payload that decodes, its command accepted. -/
def busyDec : State := (dec (bytes [0x13, 0x61, 0x01, 0x00, 0x00]) [] 8).startCommand 2
def ldDec : Desc := latch (dec (bytes [0x13, 0x61, 0x01, 0x00, 0x00]) [] 8).eng

/-- A state of program P1 meets the invariant. -/
theorem busyP1_inv : busyP1.Inv := by
  have ha : ldP1.AddrOk {} := by unfold Desc.AddrOk; decide
  refine ⟨⟨by decide, by decide⟩, ⟨rfl, fun _ => rfl, fun _ => rfl, (fun h => nomatch h), (fun h => nomatch h)⟩, rfl,
    ⟨fun r h => List.mem_append_right _ h, fun r h => List.mem_append_right _ h⟩, ha, ?_⟩
  intro ld st h
  cases h
  exact ha

theorem witness_DecodeEncodeRoundTrip :
    (Instr.seq 1 0).wellFormed = true ∧ (Instr.seq 1 0).fits (bytes [0x61, 0x01, 0x00, 0x00]) = true ∧
    (Instr.last 15).wellFormed = true ∧ (Instr.last 15).fits (0x00 :: List.replicate 15 0x61) = true ∧
    (Instr.reservedCmd 15 7).wellFormed = true ∧ (Instr.runEnd 0xFE).wellFormed = true ∧
    (Instr.blkCompressed 1).wellFormed = true ∧ (Instr.frameHeader 0x40 0).wellFormed = true := by decide

theorem witness_EncodeDecodeRoundTrip :
    decode .token [0x00] = .ok (.last 0, []) ∧ decode .blockHeader [0, 0, 0, 0x80] = .ok (.blkUncompressed 0, []) :=
  ⟨rfl, rfl⟩

theorem witness_CommandWordSelectsCommand :
    (0x11 : Word).extractLsb' 0 4 = 1 ∧ (0xF2 : Word).extractLsb' 0 4 = 2 ∧ (0 : Word).extractLsb' 0 4 ≠ 1 ∧
    (0 : Word).extractLsb' 0 4 ≠ 2 ∧ (0x11 : Word).extractLsb' 0 4 = (0xF1 : Word).extractLsb' 0 4 ∧
    p1.eng.phase = .idle := by decide

theorem witness_RunEncoding : (0xFE : Byte) ≠ 0xFF ∧ (0 : Byte) ≠ 0xFF ∧ 15 ≤ 15 := by decide

/-- P1 with an access for the host to make, and a frame-layer run with one of its own. -/
def queued (act : HostAct) : State := { p1 with host := { p1.host with acts := [act] } }
def queuedRun (act : HostAct) : State := State.reset.withRun { phase := .nextBlock, todo := [act] }

/-- One witness for each clause: the engine's command word and payload, the host's three places, and its queue. -/
theorem witness_StepRunsDecodedInstruction :
    (busyP1.inputs = [] ∧ Agent.engine = (if busyP1.busy then .engine else .host) ∧
      busyP1.eng.phase = .busy ldP1 (.pending 1)) ∧
    ((decAt [0x00] [] 0 0 .token []).setInputs [.turn .engine]).inputs = .turn .engine :: [] ∧
    (decAt [0x00] [] 0 0 .token []).eng.phase =
      .busy (latch (decAt [0x00] [] 0 0 .token []).eng) (.decoding ⟨0, .token, []⟩) ∧
    (decAt [0x00] [] 0 0 .token []).mem.readRange 0x1000 1 = [0x00] ∧
    decode .token [0x00] = .ok (.last 0, []) ∧
    (framed .readHeader (bytes [0x04, 0x22, 0x4D, 0x18, 0x40, 0x70, 0xC0])).Reads
      { phase := .readHeader, src := bytes [0x04, 0x22, 0x4D, 0x18, 0x40, 0x70, 0xC0] } .readHeader ∧
    (framed .readBlock [0, 0, 0, 0]).Reads { phase := .readBlock, src := [0, 0, 0, 0] } .readBlock ∧
    (framed .readFooter [0, 0]).Reads { phase := .readFooter, src := [0, 0] } .readFooter ∧
    (∀ act, (queued act).Queued act p1) ∧ (∀ act, (queuedRun act).Queued act (framed .nextBlock [])) ∧
    (queued .wait).par.Legal ∧ (queued .wait).eng.done = false ∧
    ((queued .wait).setEng { p1.eng with done := true }).eng.done = true :=
  ⟨⟨rfl, rfl, rfl⟩, rfl, rfl, rfl, rfl, ⟨rfl, rfl, rfl⟩, ⟨rfl, rfl, rfl⟩, ⟨rfl, rfl, rfl⟩,
    fun _ => .inl ⟨[], .inl rfl, rfl, rfl⟩, fun _ => .inr ⟨_, [], rfl, rfl, rfl, rfl⟩, by decide, rfl, rfl⟩

theorem witness_ResetSetsEveryRegister : (p1.setInputs [.reset]).inputs = .reset :: [] ∧ p1.busy = false := ⟨rfl, rfl⟩

theorem witness_ResetCutsRunningCommand :
    (busyP1.setInputs [.reset]).inputs = .reset :: [] ∧
    (busyP1.setInputs [.reset]).eng.phase = .busy ldP1 (.pending 1) ∧
    (⟨0x2000, 10⟩ : Region) ∈ writeSet busyP1.par busyP1.eng.cmdOp ldP1 :=
  ⟨rfl, rfl, by decide⟩

theorem witness_CmdWriteStartsCommand :
    p1.par.Legal ∧ p1.eng.phase = .idle ∧ p1.par.grain = .command ∧ busyP1.par.Legal ∧ busyP1.busy = true ∧
    (0x11 : Word).extractLsb' 0 4 = 1 ∧ (0xF2 : Word).extractLsb' 0 4 = 2 ∧
    (0 : Word).extractLsb' 0 4 ≠ 1 ∧ (0 : Word).extractLsb' 0 4 ≠ 2 :=
  ⟨by decide, rfl, rfl, by decide, rfl, by decide, by decide, by decide, by decide⟩

/-- The offsets of every clause, the first and the last among them. -/
theorem witness_RegisterWrite :
    p1.par.Legal ∧ p1.busy = false ∧ busyP1.busy = true ∧
    ∀ off ∈ [0x00, 0x04, 0x08, 0x0C, 0x10, 0x14, 0x18, 0x1C, 0x20, 0x24, 0x28, 0x2C, 0x30, 0xFC],
      off < 256 ∧ off % 4 = 0 := ⟨by decide, rfl, rfl, by decide⟩

theorem witness_RegisterRead :
    busyP1.par.Legal ∧
    ∀ off ∈ [0x00, 0x04, 0x08, 0x0C, 0x10, 0x14, 0x18, 0x1C, 0x20, 0x24, 0x28, 0x2C, 0x30, 0xFC],
      off < 256 ∧ off % 4 = 0 := ⟨by decide, by decide⟩

theorem witness_RegisterAccessWidth :
    p1.par.Legal ∧ meets ⟨0x400000FC, 4⟩ (registerFile p1.par) = true ∧ 0x400000FC + 4 ≤ 2 ^ 32 ∧
    0x400000FC % 4 = 0 ∧ meets ⟨0x3FFFFFFF, 4⟩ (registerFile p1.par) = true ∧ ¬ 0x3FFFFFFF % 4 = 0 ∧
    (bytes [0, 0, 0, 0]).length = 4 ∧
    32 < (Params.addrW { addrW := 33 }) ∧ p1.par.addrW ≤ 32 ∧ p1.busy = false ∧ busyP1.busy = true := by decide

/-- An IDLE machine whose command has ended with a code and a detail. -/
def ended (c : StatusCode) (d : Detail) : State :=
  p1.setEng { p1.eng with done := true, code := c, detail := d }

theorem ended_inv {c : StatusCode} {d : Detail} (h : c.allows d = true) : (ended c d).Inv := by
  have hm : p1.mem.wf ∧ p1.mem.inRange p1.par := ⟨by decide, by decide⟩
  have ha : ldP1.AddrOk {} := by unfold Desc.AddrOk; decide
  exact ⟨hm, ⟨h, (fun h => nomatch h), (fun h => nomatch h), fun _ _ => rfl, fun _ _ => Nat.zero_le _⟩, trivial,
    trivial, ha, fun _ _ h => nomatch h⟩

theorem witness_StatusWordLayout :
    busyP1.Inv ∧ busyP1.busy = true ∧ busyP1.eng.code.num ≠ 3 ∧ busyP1.eng.code.num ≠ 4 ∧ p1.par.Legal ∧
    (ended .decompressionError .oversize).Inv ∧ (ended .badCommand .bufferWraps).Inv :=
  ⟨busyP1_inv, rfl, by decide, by decide, by decide, ended_inv rfl, ended_inv rfl⟩

theorem witness_ReservedCommandEnds :
    (15 : BitVec 4) ≠ 1 ∧ (15 : BitVec 4) ≠ 2 ∧
    p1.Runs ((0 : BitVec 28) ++ (15 : BitVec 4)) (latch p1.eng) (p1.startCommand ((0 : BitVec 28) ++ (15 : BitVec 4))) :=
  ⟨by decide, by decide, .inl ⟨rfl, rfl, rfl⟩⟩

/-- One witness for each check, at its boundary. -/
theorem witness_CompressBadDescriptor :
    p1.par.Legal ∧ p1.Runs ((0 : BitVec 28) ++ 1#4) ldP1 busyP1 ∧
    65536 < (⟨0, 65537, 0, 0, 0, 0⟩ : Desc).P ∧ 4194304 < (⟨0, 0, 4194305, 0, 0, 0⟩ : Desc).L ∧
    2 ^ 32 < (⟨0xFFFFFFFF, 1, 1, 0, 0, 0⟩ : Desc).win + (⟨0xFFFFFFFF, 1, 1, 0, 0, 0⟩ : Desc).P +
      (⟨0xFFFFFFFF, 1, 1, 0, 0, 0⟩ : Desc).L ∧
    2 ^ 32 < (⟨0, 0, 2, 0, 0, 0xFFFFFFFF⟩ : Desc).out + (⟨0, 0, 2, 0, 0, 0xFFFFFFFF⟩ : Desc).L ∧
    (idle {} ⟨0, 65537, 0, 0, 0, 0⟩).Runs ((0 : BitVec 28) ++ 1#4) ⟨0, 65537, 0, 0, 0, 0⟩
      ((idle {} ⟨0, 65537, 0, 0, 0, 0⟩).startCommand ((0 : BitVec 28) ++ 1#4)) :=
  ⟨by decide, .inl ⟨rfl, rfl, rfl⟩, by decide, by decide, by decide, by decide, .inl ⟨rfl, rfl, rfl⟩⟩

theorem witness_DecompressBadDescriptor :
    (idle {} ⟨0, 0, 0, 0xFFFFFFFF, 2, 0⟩).par.Legal ∧
    (idle {} ⟨0, 0, 0, 0xFFFFFFFF, 2, 0⟩).Runs ((0 : BitVec 28) ++ 2#4) ⟨0, 0, 0, 0xFFFFFFFF, 2, 0⟩
      ((idle {} ⟨0, 0, 0, 0xFFFFFFFF, 2, 0⟩).startCommand ((0 : BitVec 28) ++ 2#4)) ∧
    2 ^ 32 < (⟨0, 0, 0, 0xFFFFFFFF, 2, 0⟩ : Desc).inp + (⟨0, 0, 0, 0xFFFFFFFF, 2, 0⟩ : Desc).n ∧
    65536 < (⟨0, 65537, 0, 0, 0, 0⟩ : Desc).P ∧ 4194304 < (⟨0, 0, 4194305, 0, 0, 0⟩ : Desc).cap ∧
    4194304 < (⟨0, 0, 0, 0, 4194305, 0⟩ : Desc).n ∧
    2 ^ 32 < (⟨0xFFFFFFFF, 1, 1, 0, 0, 0⟩ : Desc).win + (⟨0xFFFFFFFF, 1, 1, 0, 0, 0⟩ : Desc).P +
      (⟨0xFFFFFFFF, 1, 1, 0, 0, 0⟩ : Desc).cap :=
  ⟨by decide, .inl ⟨rfl, rfl, rfl⟩, by decide, by decide, by decide, by decide, by decide⟩

/-- An OK ending and an INCOMPRESSIBLE one. -/
theorem witness_CompressCompletes :
    p1.Runs ((0 : BitVec 28) ++ 1#4) ldP1 busyP1 ∧ p1.par.grain = .command ∧
    checkCompress p1.par ldP1 = none ∧ bufferRefusal p1.par ldP1.compressWindow ldP1.compressOut = none ∧
    p1.mem.readRange ldP1.win (ldP1.P + ldP1.L) = tenA ∧
    encodeBlock p1.par ldP1.P (tenA.drop ldP1.P) (parseBy p1.par (matchCandidates p1.par tenA ldP1.P)) =
      .payload (bytes [0x10, 0x61, 0x01, 0x00, 0x50, 0x61, 0x61, 0x61, 0x61, 0x61]) ∧
    encodeBlock p1.par 0 (bytes [0x61, 0x62, 0x63]) (parseBy p1.par (matchCandidates p1.par (bytes [0x61, 0x62, 0x63]) 0)) =
      .incompressible :=
  ⟨.inl ⟨rfl, rfl, rfl⟩, rfl, by decide, by decide, by decide, by decide +kernel, by decide +kernel⟩

theorem witness_DecompressCompletes :
    (dec (bytes [0x13, 0x61, 0x01, 0x00, 0x00]) [] 8).Runs ((0 : BitVec 28) ++ 2#4) ldDec busyDec ∧
    busyDec.par.grain = .command ∧ checkDecompress busyDec.par ldDec = none ∧
    bufferRefusal busyDec.par ldDec.payload ldDec.decompressWindow = none ∧
    busyDec.mem.readRange ldDec.inp ldDec.n = (bytes [0x13, 0x61, 0x01, 0x00, 0x00]) ∧
    busyDec.mem.readRange ldDec.win ldDec.P = [] :=
  ⟨.inl ⟨rfl, rfl, rfl⟩, rfl, by decide, by decide, by decide, by decide⟩

/-- Parameters with a device at 0x2009 and no memory from 0x3000 to 0x3FFF. -/
def holes : Params := { sideEffect := [⟨0x2009, 1⟩], notProvided := [⟨0x3000, 0x1000⟩] }

/-- A descriptor for each clause, at its boundary: an overlap, a buffer over the register file, over the device, in
memory not provided, and a good one, for each command. -/
theorem witness_BadBuffersRefused :
    (idle {} { descP1 with outBase := 0x1009 }).Runs ((0 : BitVec 28) ++ 1#4) { descP1 with outBase := 0x1009 }
      ((idle {} { descP1 with outBase := 0x1009 }).startCommand ((0 : BitVec 28) ++ 1#4)) ∧
    busyDec.Runs ((0 : BitVec 28) ++ 2#4) ldDec busyDec ∧ checkDecompress busyDec.par ldDec = none ∧
    (∀ out ∈ [0x1009, 0x40000000, 0x400000FF, 0x2000, 0x2009, 0x3FFF, 0x4000],
      checkCompress holes { descP1 with outBase := out } = none) ∧
    meets { descP1 with outBase := 0x1009 }.compressWindow { descP1 with outBase := 0x1009 }.compressOut = true ∧
    (∀ out ∈ [0x40000000, 0x400000FF, 0x2000, 0x2009, 0x3FFF, 0x4000],
      meets { descP1 with outBase := out }.compressWindow { descP1 with outBase := out }.compressOut = false) ∧
    (∀ out ∈ [0x40000000, 0x400000FF],
      meets { descP1 with outBase := out }.compressOut (registerFile holes) = true) ∧
    (∀ out ∈ [0x2000, 0x2009, 0x3FFF, 0x4000],
      meets { descP1 with outBase := out }.compressWindow (registerFile holes) = false ∧
      meets { descP1 with outBase := out }.compressOut (registerFile holes) = false) ∧
    (∀ out ∈ [0x2000, 0x2009], ∃ r ∈ holes.sideEffect, meets { descP1 with outBase := out }.compressOut r = true) ∧
    (∀ out ∈ [0x3FFF, 0x4000], ∀ r ∈ holes.sideEffect,
      meets { descP1 with outBase := out }.compressWindow r = false ∧
      meets { descP1 with outBase := out }.compressOut r = false) ∧
    (∃ r ∈ holes.notProvided, meets { descP1 with outBase := 0x3FFF }.compressOut r = true) ∧
    (∀ r ∈ holes.notProvided, meets { descP1 with outBase := 0x4000 }.compressWindow r = false ∧
      meets { descP1 with outBase := 0x4000 }.compressOut r = false) ∧
    checkDecompress {} ⟨0x1000, 0, 1, 0x1000, 1, 0⟩ = none ∧
    meets (⟨0x1000, 0, 1, 0x1000, 1, 0⟩ : Desc).payload (⟨0x1000, 0, 1, 0x1000, 1, 0⟩ : Desc).decompressWindow = true ∧
    checkDecompress {} ⟨0x1000, 0, 1, 0x400000FF, 1, 0⟩ = none ∧
    meets (⟨0x1000, 0, 1, 0x400000FF, 1, 0⟩ : Desc).payload
      (⟨0x1000, 0, 1, 0x400000FF, 1, 0⟩ : Desc).decompressWindow = false ∧
    meets (⟨0x1000, 0, 1, 0x400000FF, 1, 0⟩ : Desc).payload (registerFile {}) = true :=
  ⟨.inl ⟨rfl, rfl, rfl⟩, .inr ⟨rfl, rfl⟩, by decide, by decide, by decide, by decide, by decide, by decide, by decide,
    by decide, by decide, by decide, by decide, by decide, by decide, by decide, by decide⟩

theorem witness_WrittenRangeAtEnd :
    p1.Runs 1 ldP1 busyP1 ∧ p1.par.grain = .command ∧ wordOp 1 = 1 ∧
    (∃ t, exec (decodeCommand 1) p1 = .next t ∧ t.eng.code = .ok) ∧
    writeSet p1.par (wordOp 1) ldP1 ≠ [] ∧ wordOp 2 = 2 ∧
    (∃ t, exec (decodeCommand 2) busyDec = .next t ∧ t.eng.code = .ok) := by
  refine ⟨.inl ⟨rfl, rfl, rfl⟩, rfl, by decide, ?_, by decide, by decide, ?_⟩
  · have h : nextIs (exec (decodeCommand 1) p1) (fun t => decide (t.eng.code = .ok)) = true := by decide +kernel
    unfold nextIs at h
    split at h
    · exact ⟨_, by assumption, of_decide_eq_true h⟩
    all_goals cases h
  · have h : nextIs (exec (decodeCommand 2) busyDec) (fun t => decide (t.eng.code = .ok)) = true := by
      decide +kernel
    unfold nextIs at h
    split at h
    · exact ⟨_, by assumption, of_decide_eq_true h⟩
    all_goals cases h

theorem witness_ResultIsAFunctionOfTheReadSet :
    busyP1.par = (busyP1.drew 5).par ∧ busyP1.par.grain = .command ∧
    busyP1.eng.phase = .busy ldP1 (.pending 1) ∧ (busyP1.drew 5).eng.phase = .busy ldP1 (.pending 1) ∧
    (∀ r ∈ readSet busyP1.par (wordOp 1) ldP1, ∀ a, holds r a = true →
      busyP1.mem.read a = (busyP1.drew 5).mem.read a) ∧
    nextIs (exec (decodeCommand 1) busyP1) (fun _ => true) = true ∧
    nextIs (exec (decodeCommand 1) (busyP1.drew 5)) (fun _ => true) = true :=
  ⟨rfl, rfl, rfl, rfl, fun _ _ _ _ => rfl, by decide +kernel, by decide +kernel⟩

theorem witness_CommandFrame :
    p1.Runs 1 ldP1 busyP1 ∧ nextIs (exec (decodeCommand 1) p1) (fun t => !t.busy) = true ∧
    busyP1.Runs 1 ldP1 busyP1 ∧
    nextIs (exec (decodeCommand 1) (busyP1.withGrain .element)) (fun t => t.busy) = true :=
  ⟨.inl ⟨rfl, rfl, rfl⟩, by decide +kernel, .inr ⟨rfl, rfl⟩, by decide +kernel⟩

/-- A token to read, and the payload's end. -/
theorem witness_TokenRead :
    (decAt [0x13] [] 8 0 .token []).Decodes (latch (decAt [0x13] [] 8 0 .token []).eng) 0 .token [] ∧
    (decAt [0x13] [] 8 0 .token []).mem.readRange (0x1000 + 0) (1 - 0) = [0x13] ∧
    (decAt [] [] 8 0 .token []).Decodes (latch (decAt [] [] 8 0 .token []).eng) 0 .token [] ∧
    0 = (latch (decAt [] [] 8 0 .token []).eng).n := ⟨rfl, rfl, rfl, rfl⟩

theorem witness_RunRead :
    (decAt [0xF0, 0xFF] [] 8 1 (.litRun 0 0) []).Decodes (latch (decAt [0xF0, 0xFF] [] 8 1 (.litRun 0 0) []).eng) 1
      (.litRun 0 0) [] ∧
    (decAt [0xF0, 0xFF] [] 8 1 (.litRun 0 0) []).mem.readRange (0x1000 + 1) (2 - 1) = [0xFF] ∧
    (decAt [0xF0] [] 8 1 (.litRun 0 0) []).Decodes (latch (decAt [0xF0] [] 8 1 (.litRun 0 0) []).eng) 1
      (.litRun 0 0) [] ∧
    1 = (latch (decAt [0xF0] [] 8 1 (.litRun 0 0) []).eng).n ∧
    (decAt (bytes [0x1F, 0x61, 0x01, 0x00, 0x00]) [] 40 4 (.matchRun 1 0) [0x61]).Decodes
      (latch (decAt (bytes [0x1F, 0x61, 0x01, 0x00, 0x00]) [] 40 4 (.matchRun 1 0) [0x61]).eng) 4 (.matchRun 1 0)
      [0x61] := ⟨rfl, rfl, rfl, rfl, rfl⟩

/-- CAP 1: the first clause at 2 literals, the others at 1; the end of the payload with and without MN. -/
theorem witness_LiteralsCopied :
    (decAt [0x10, 0x61] [] 1 1 (.literals 0 1) []).Decodes
      (latch (decAt [0x10, 0x61] [] 1 1 (.literals 0 1) []).eng) 1 (.literals 0 1) [] ∧
    (latch (decAt [0x10, 0x61] [] 1 1 (.literals 0 1) []).eng).P ≤ ([] : List Byte).length ∧
    1 < 0 - 0 + 2 ∧ 0 - 0 + 1 ≤ 1 ∧ 1 + 1 = (latch (decAt [0x10, 0x61] [] 1 1 (.literals 0 1) []).eng).n ∧
    (1 : BitVec 4) ≠ 0 ∧ 1 + 1 ≠ (latch (decAt [0x10, 0x61, 0x01, 0x00] [] 1 1 (.literals 0 1) []).eng).n ∧
    (decAt [0x10, 0x61] [] 1 1 (.literals 0 1) []).mem.readRange (0x1000 + 1) (2 - 1) = [0x61] ∧
    ([0x61] : List Byte).length < 2 ∧ 1 ≤ ([0x61] : List Byte).length :=
  ⟨rfl, by decide, by decide, by decide, rfl, by decide, by decide, rfl, by decide, by decide⟩

/-- One window byte: BAD_OFFSET at 0 and at op + 1, the copy and OVERSIZE at op for a nibble below 15, and a match
run for 15; one byte left, and two. -/
theorem witness_OffsetRead :
    (∀ mn : BitVec 4, (decAt (bytes [0x11, 0x61, 0x01, 0x00]) [] 8 2 (.offset mn) [0x61]).Decodes
      (latch (decAt (bytes [0x11, 0x61, 0x01, 0x00]) [] 8 2 (.offset mn) [0x61]).eng) 2 (.offset mn) [0x61]) ∧
    0 = (0 : Byte).toNat + 256 * (0 : Byte).toNat ∧ 2 = (2 : Byte).toNat + 256 * (0 : Byte).toNat ∧
    [(0x61 : Byte)].length < 2 ∧ 1 = (1 : Byte).toNat + 256 * (0 : Byte).toNat ∧ 1 ≠ 0 ∧
    1 ≤ [(0x61 : Byte)].length ∧ (15 : BitVec 4) = 15 ∧ (1 : BitVec 4) ≠ 15 ∧
    5 < 1 - 0 + ((1 : BitVec 4).toNat + 4) ∧ 1 - 0 + ((1 : BitVec 4).toNat + 4) ≤ 6 ∧
    (decAt (bytes [0x11, 0x61, 0x01]) [] 8 2 (.offset 1) [0x61]).mem.readRange (0x1000 + 2) (3 - 2) = [0x01] ∧
    (decAt (bytes [0x11, 0x61, 0x01, 0x00]) [] 8 2 (.offset 1) [0x61]).mem.readRange (0x1000 + 2) (4 - 2) =
      [0x01, 0x00] :=
  ⟨fun _ => rfl, by decide, by decide, by decide, by decide, by decide, by decide, by decide, by decide, by decide,
    by decide, rfl, rfl⟩

/-- The capacity clauses at 20 and 19. -/
theorem witness_MatchRunEnd :
    (decAt (bytes [0x1F, 0x61, 0x01, 0x00, 0x00]) [] 20 4 (.matchRun 1 0) [0x61]).Decodes
      (latch (decAt (bytes [0x1F, 0x61, 0x01, 0x00, 0x00]) [] 20 4 (.matchRun 1 0) [0x61]).eng) 4 (.matchRun 1 0)
      [0x61] ∧
    1 - 0 + (19 + (0 + (0 : Byte).toNat)) ≤ 20 ∧ 19 < 1 - 0 + (19 + (0 + (0 : Byte).toNat)) :=
  ⟨rfl, by decide, by decide⟩

theorem witness_MatchCopy : 1 ≤ 1 ∧ 1 ≤ [(0x61 : Byte)].length ∧ 0 < 7 := by decide

/-- An element that goes on, and one that ends the command. -/
theorem witness_PayloadElementFrame :
    (decAt [0x00] [] 8 0 .token []).eng.phase =
      .busy (latch (decAt [0x00] [] 8 0 .token []).eng) (.decoding ⟨0, .token, []⟩) ∧
    nextIs (exec (.last 0) (decAt [0x00] [] 8 0 .token [])) (fun t => t.busy) = true ∧
    nextIs (exec (.literals []) (decAt [0x00] [] 8 1 (.literals 0 0) [])) (fun t => !t.busy) = true :=
  ⟨rfl, by decide +kernel, by decide +kernel⟩

theorem witness_DecodeElementsRefineCommand :
    (busyDec.withGrain .element).eng.phase = .busy ldDec (.pending 2) ∧ wordOp 2 = 2 ∧
    (busyDec.withGrain .element).inputs = [] ∧ (busyDec.withGrain .element).par.grain = .element ∧
    nextIs (step ((busyDec.withGrain .element).withGrain .command)) (fun t => t.eng.outLen == 8) = true :=
  ⟨rfl, rfl, rfl, rfl, by decide +kernel⟩

theorem witness_CompressStagesRefineCommand :
    (busyP1.withGrain .element).par.Legal ∧ (busyP1.withGrain .element).eng.phase = .busy ldP1 (.pending 1) ∧
    wordOp 1 = 1 ∧ (busyP1.withGrain .element).inputs = [] ∧ (busyP1.withGrain .element).par.grain = .element ∧
    nextIs (step ((busyP1.withGrain .element).withGrain .command)) (fun t => t.eng.outLen == 10) = true :=
  ⟨by decide, rfl, rfl, rfl, rfl, by decide +kernel⟩

theorem witness_SuffixArrayContract :
    1 ≤ 1 ∧ (suffixArray tenA)[0]? = some 9 ∧ (suffixArray tenA)[1]? = some 8 ∧ 0 ≤ tenA.length := by
  decide +kernel

/-- A position with an entry, met by the walk. -/
theorem witness_RawListClosedForm :
    ({} : Params).Legal ∧ 1 < tenA.length ∧
    ⟨1, 9⟩ ∈ upward {} (suffixArray tenA) (lcpArray tenA (suffixArray tenA)) (rankArray (suffixArray tenA)) 1 ++
      downward {} (suffixArray tenA) (lcpArray tenA (suffixArray tenA)) (rankArray (suffixArray tenA)) 1 := by
  decide +kernel

theorem witness_MatchFinderClosedForm : ({} : Params).Legal := by decide

theorem witness_ParetoFilter :
    [(⟨6, 4⟩ : Cand), ⟨14, 6⟩].Pairwise (fun a b => a.off < b.off) ∧ pareto 0 [⟨6, 4⟩, ⟨14, 6⟩] = [⟨6, 4⟩, ⟨14, 6⟩] := by
  decide

theorem witness_CandidateInvariants :
    ({} : Params).Legal ∧ 0 ≤ tenA.length ∧ (matchCandidates {} tenA 0)[1]? = some [⟨1, 4⟩] ∧
    (Params.Legal { nCand := some 1 }) ∧ (matchCandidates { nCand := some 1 } tenA 0)[1]? = some [⟨1, 4⟩] := by
  decide +kernel

/-- The last position with candidates is L - 9; the next has none. -/
theorem witness_PositionsWithoutCandidates :
    ({} : Params).Legal ∧ (matchCandidates {} tenA 0)[2]? = some [] ∧ tenA.length - 0 < 2 + 4 + 5 ∧
    (matchCandidates {} tenA 0)[0]? = some [] ∧ (tenA.take 9).length < 10 ∧
    (matchCandidates {} (tenA.take 9) 1)[0]? = some [] ∧ (tenA.take 9).length - 1 < 9 ∧
    ({} : Params).lastLiterals = 5 := by decide +kernel

theorem sortedCands_tenA : SortedCands [[], [⟨1, 4⟩], [], [], [], [], [], [], [], []] := by
  unfold SortedCands
  decide

/-- Lists whose parse takes a match, and lists whose parse takes the tail. -/
theorem witness_ParseTableLeastAndFirst :
    SortedCands [[], [⟨1, 4⟩], [], [], [], [], [], [], [], []] ∧
    IsOption [[], [⟨1, 4⟩], [], [], [], [], [], [], [], []] 1 ⟨1, 4⟩ ∧ SortedCands [] ∧
    (parseTable [[], [⟨1, 4⟩], [], [], [], [], [], [], [], []]).map (·.choice) ≠ [] :=
  ⟨sortedCands_tenA, ⟨⟨_, rfl, by decide⟩, by decide⟩, (fun _ h => nomatch h), by decide⟩

theorem witness_ParseIsOptimal :
    SortedCands [[], [⟨1, 4⟩], [], [], [], [], [], [], [], []] ∧
    Admissible [[], [⟨1, 4⟩], [], [], [], [], [], [], [], []] [.seq 1 1 4, .last 5] :=
  ⟨sortedCands_tenA, by decide⟩

/-- The default parse, and a parameter's own. -/
theorem witness_EngineParsePassesCheck :
    ({} : Params).Legal ∧ 0 ≤ tenA.length ∧ [.seq 1 1 4, .last 5] = parseBy {} (matchCandidates {} tenA 0) ∧
    (Params.parses {}) = [] ∧ parseLiterals.Legal ∧
    [.last 10] = parseBy parseLiterals (matchCandidates parseLiterals tenA 0) := by decide +kernel

theorem witness_PayloadLengthIsCost : (([.seq 1 1 4, .last 5] : List Cmd).map Cmd.span).sum ≤ tenA.length := by decide

/-- A payload of the block's length, an INCOMPRESSIBLE block, and streams that fail the check. -/
theorem witness_EncoderSizeBound :
    encodeBlock {} 0 tenA [.seq 1 1 4, .last 5] =
      .payload (bytes [0x10, 0x61, 0x01, 0x00, 0x50, 0x61, 0x61, 0x61, 0x61, 0x61]) ∧
    encodeBlock {} 0 tenA [.last 10] = .incompressible ∧ encodeBlock {} 0 tenA [.last 9] = .internal ∧
    Admissible (List.replicate tenA.length []) [.last 10] ∧ candsTenA.length = tenA.length := by decide +kernel

theorem witness_BlockRoundTrip :
    ({} : Params).Legal ∧ 0 ≤ tenA.length ∧ tenA.length - 0 ≤ 10 ∧
    Admissible (matchCandidates {} tenA 0) [.seq 1 1 4, .last 5] := by
  decide +kernel

/-- A stream for each clause: six bytes, a bad magic, bad flags, a bad BD, a good header; a byte accepted and one
not, under each way of checking. -/
theorem witness_FrameHeaderRead :
    (framed .readHeader []).par.Legal ∧
    (framed .readHeader (bytes [4, 0x22, 0x4D, 0x18, 0x40, 0x70])).Reads
      { phase := .readHeader, src := bytes [4, 0x22, 0x4D, 0x18, 0x40, 0x70] } .readHeader ∧
    (bytes [4, 0x22, 0x4D, 0x18, 0x40, 0x70]).length < 7 ∧
    (framed .readHeader (bytes [4, 0x22, 0x4D, 0x18, 0x40, 0x70, 0xC0])).Reads
      { phase := .readHeader, src := bytes [4, 0x22, 0x4D, 0x18, 0x40, 0x70, 0xC0] } .readHeader ∧
    ¬ ((5 : Byte) = 0x04) ∧ (0x41 : Byte) ≠ 0x40 ∧ (0x30 : Byte) ∉ [(0x40 : Byte), 0x50, 0x60, 0x70] ∧
    (0x70 : Byte) ∈ [(0x40 : Byte), 0x50, 0x60, 0x70] ∧
    ((0xC0 : Byte) == 0xC0 || (0xC0 : Byte) == 0xDF) = true ∧ ((0xC1 : Byte) == 0xC0 || (0xC1 : Byte) == 0xDF) = false :=
  ⟨by decide, ⟨rfl, rfl, rfl⟩, by decide, ⟨rfl, rfl, rfl⟩, by decide, by decide, by decide, by decide, by decide,
    by decide⟩

/-- The block maximum is reached and passed by one; a size cut short. -/
theorem witness_BlockHeaderRead :
    (framed .readBlock (bytes [1, 0, 0, 0x80, 7])).Reads { phase := .readBlock, src := bytes [1, 0, 0, 0x80, 7] }
      .readBlock ∧
    (bytes [1, 0, 0]).length < 4 ∧
    0x80000001 = (1 : Byte).toNat + 2 ^ 8 * (0 : Byte).toNat + 2 ^ 16 * (0 : Byte).toNat + 2 ^ 24 * (0x80 : Byte).toNat ∧
    1 = 0x80000001 % 2 ^ 31 ∧ 4194304 < 4194305 ∧ 4194304 ≤ (FrameRun.blockMax { phase := .readBlock }) ∧
    (bytes [7]).length < 2 ∧ 2 ^ 31 ≤ 0x80000001 ∧ 1 < 2 ^ 31 := by
  exact ⟨⟨rfl, rfl, rfl⟩, by decide, by decide, by decide, by decide, by decide, by decide, by decide, by decide⟩

/-- The host waits for a decompress command that has ended with a code. -/
def waits (p : FramePhase) (raw : Bool) (c : StatusCode) : State :=
  (State.reset.setEng { Engine.reset with code := c, done := true }).withRun { phase := p, opts := { raw := raw } }

/-- A block header to read; then its command's two endings. -/
theorem witness_BlockRead :
    (framed .readBlock (bytes [1, 0, 0, 0x80, 7])).Reads { phase := .readBlock, src := bytes [1, 0, 0, 0x80, 7] }
      .readBlock ∧
    ([] : List Byte) = (match (none : Option (List Byte)) with
      | none => []
      | some b => b.drop (b.length - 65536)) ∧
    (1 : BitVec 31) ≠ 0 ∧ (1 : BitVec 31).toNat ≤ 4194304 ∧
    (1 : BitVec 31).toNat + 4 ≤ (bytes [1, 0, 0, 0x80, 7]).length ∧
    (FrameRun.produced { phase := .readBlock }) = none ∧
    ∀ c ∈ [StatusCode.ok, .decompressionError],
      (waits .awaitDecompress false c).Reads { phase := .awaitDecompress } .awaitDecompress ∧
      (waits .awaitDecompress false c).busy = false ∧ (waits .awaitDecompress false c).eng.code = c ∧
      ([] : List Byte) = (waits .awaitDecompress false c).mem.readRange
        ((waits .awaitDecompress false c).par.hostWindow.toNat + ([] : List Byte).length)
        (waits .awaitDecompress false c).eng.outLen.toNat :=
  ⟨⟨rfl, rfl, rfl⟩, rfl, by decide, by decide, by decide, rfl, fun _ _ => ⟨⟨rfl, rfl, rfl⟩, rfl, rfl, rfl⟩⟩

theorem witness_RawFooterRead :
    (framed .readFooter [0, 0]).par.Legal ∧
    (framed .readFooter [0, 0]).Reads { phase := .readFooter, src := [0, 0] } .readFooter ∧
    (FrameRun.prev { phase := .readFooter }) = none ∧ ([0] : List Byte).length < 2 ∧
    ([0, 1] : List Byte).drop (2 - 2) ≠ [0, 0] ∧ ([0, 0] : List Byte) = [] ++ [0, 0] ∧
    ∀ c ∈ [StatusCode.ok, .decompressionError],
      (waits .awaitDecompress true c).Reads { phase := .awaitDecompress, opts := { raw := true } }
        .awaitDecompress ∧
      (waits .awaitDecompress true c).busy = false ∧ (waits .awaitDecompress true c).eng.code = c ∧
      (FrameRun.produced { phase := .awaitDecompress }) = none :=
  ⟨by decide, ⟨rfl, rfl, rfl⟩, rfl, by decide, by decide, rfl, fun _ _ => ⟨⟨rfl, rfl, rfl⟩, rfl, rfl, rfl⟩⟩

theorem witness_ContainerWordFrame :
    nextIs (exec (.frameHeader 0x70 0xC0) (framed .readHeader [])) (fun _ => true) = true ∧
    nextIs (exec (.blkCompressed 1) (framed .readBlock (bytes [1, 0, 0, 0, 0]))) (fun _ => true) = true ∧
    nextIs (exec (.blkUncompressed 1) (framed .readBlock (bytes [1, 0, 0, 0x80, 7]))) (fun _ => true) = true ∧
    nextIs (exec .blkEndmark (framed .readBlock (bytes [0, 0, 0, 0]))) (fun _ => true) = true ∧
    nextIs (exec .rawFooter (framed .readFooter [0, 0])) (fun _ => true) = true := by decide +kernel

theorem witness_FrameEmission :
    (framed .emitHeader [7]).par.Legal ∧
    (framed .emitHeader [7]).Reads { phase := .emitHeader, src := [7] } .emitHeader ∧
    (framed .nextBlock [7]).Reads { phase := .nextBlock, src := [7] } .nextBlock ∧ ([7] : List Byte) ≠ [] ∧
    (framed .nextBlock []).Reads { phase := .nextBlock, src := [] } .nextBlock ∧
    (FrameRun.opts { phase := .nextBlock }).verify = false :=
  ⟨by decide, ⟨rfl, rfl, rfl⟩, ⟨rfl, rfl, rfl⟩, by decide, ⟨rfl, rfl, rfl⟩, rfl⟩

/-- A run that waits for a command that ended OK with an empty payload; the other codes are as free. -/
theorem witness_BlockEmission :
    (framed .awaitCompress []).Reads { phase := .awaitCompress, src := [] } .awaitCompress ∧
    (framed .awaitCompress []).busy = false ∧ (FrameRun.opts { phase := .awaitCompress }).raw = false ∧
    (FrameRun.block { phase := .awaitCompress }).length < 2 ^ 31 ∧ (framed .awaitCompress []).eng.code = .ok ∧
    (framed .awaitCompress []).eng.outLen.toNat < 2 ^ 31 ∧
    (framed .awaitCompress []).mem.readRange 0x03000000 0 = [] ∧
    ((framed .awaitCompress []).setEng { Engine.reset with code := .incompressible, done := true }).eng.code =
      .incompressible ∧
    ((framed .awaitCompress []).setEng { Engine.reset with code := .badCommand, done := true }).eng.code =
      .badCommand :=
  ⟨⟨rfl, rfl, rfl⟩, rfl, rfl, by decide, rfl, by decide, rfl, rfl, rfl⟩

/-- A job for each clause: memory, dictionary or input failing, no dictionary and one, decompress and compress, a
raw input at RAW_LIMIT and one above it; then the two endings of a raw block. -/
theorem witness_RunStartAndRawMode :
    State.reset.par.Legal ∧ (Job.memoryOk { src := none, memoryOk := false }) = false ∧
    (Job.memoryOk { src := none }) = true ∧ (Job.dict { dict := .unreadable, src := none }) = .unreadable ∧
    (Job.dict { src := none }) ≠ .unreadable ∧ (Job.src { src := none }) = none ∧
    (Job.dict { src := some [2] }) = .absent ∧ (Job.dict { dict := .bytes [1], src := some [2] }) = .bytes [1] ∧
    (Job.opts { opts := { decompress := true }, src := some [2] }).decompress = true ∧
    (Job.opts { src := some [2] }).raw = false ∧ (Job.opts { src := some [2] }).code.getD .c7 = .c7 ∧
    (Job.opts { opts := { raw := true }, src := some [2] }).raw = true ∧
    (Job.opts { opts := { raw := true }, src := some [2] }).decompress = false ∧
    (List.replicate 65535 (0 : Byte)).length ≤ 65535 ∧ 65535 < (List.replicate 65536 (0 : Byte)).length ∧
    ∀ c ∈ [StatusCode.ok, .incompressible],
      (waits .awaitCompress true c).Reads { phase := .awaitCompress, opts := { raw := true } } .awaitCompress ∧
      (waits .awaitCompress true c).busy = false ∧ (waits .awaitCompress true c).eng.code = c ∧
      (FrameRun.opts { phase := .awaitCompress, opts := { raw := true } }).verify = false :=
  ⟨by decide, rfl, rfl, rfl, by decide, rfl, rfl, rfl, rfl, rfl, rfl, rfl, rfl, by rw [List.length_replicate],
    by rw [List.length_replicate]; decide, fun _ _ => ⟨⟨rfl, rfl, rfl⟩, rfl, rfl, rfl⟩⟩

/-- A verify that has decoded as much of the stream as `p` says. -/
def verifying (p : FramePhase) (raw : Bool) (produced : Option (List Byte)) (out : List Byte) : FrameRun :=
  { phase := p, opts := { verify := true, raw := raw }, input := [1, 3], produced := produced, out := out }

/-- Each place of a run that verifies, with equal streams and with ones that differ at 1. -/
theorem witness_VerifyFindsFirstDifference :
    firstDiff [1, 2] [1, 3] = some 1 ∧ firstDiff [1] [1, 3] = some 1 ∧
    (State.reset.withRun (verifying .nextBlock false none [])).Reads (verifying .nextBlock false none []) .nextBlock ∧
    (State.reset.withRun (verifying .awaitCompress true none [])).Reads (verifying .awaitCompress true none [])
      .awaitCompress ∧
    (∀ out, (State.reset.withRun (verifying .readBlock false (some [9]) out)).Reads
      (verifying .readBlock false (some [9]) out) .readBlock) ∧
    (∀ out, (State.reset.withRun (verifying .awaitDecompress true (some [9]) out)).Reads
      (verifying .awaitDecompress true (some [9]) out) .awaitDecompress) ∧
    (verifying .readBlock false (some [9]) [1, 3]).out = (verifying .readBlock false (some [9]) [1, 3]).input ∧
    firstDiff (verifying .readBlock false (some [9]) [1, 2]).out (verifying .readBlock false (some [9]) [1, 2]).input =
      some 1 ∧
    (verifying .readBlock false (some [9]) []).produced = some [9] ∧ State.reset.busy = false ∧
    State.reset.eng.code = .ok ∧ State.reset.eng.outLen.toNat = 0 :=
  ⟨by decide, by decide, ⟨rfl, rfl, rfl⟩, ⟨rfl, rfl, rfl⟩, fun _ => ⟨rfl, rfl, rfl⟩, fun _ => ⟨rfl, rfl, rfl⟩, rfl,
    by decide, rfl, rfl, rfl, rfl⟩

/-- The last byte of the window, and the first of the output; the bytes just past both, which no range meets; and
the machine with no command. -/
theorem witness_HandsOffWhileBusy :
    busyP1.Guarded ∧ busyP1.eng.phase = .busy ldP1 (.pending 1) ∧ 0x1009 + [(0 : Byte)].length ≤ 2 ^ 32 ∧
    meets ⟨0x1009, 1⟩ (registerFile busyP1.par) = false ∧ meets ⟨0x1009, 1⟩ ⟨0x1000, 10⟩ = true ∧
    (⟨0x1000, 10⟩ : Region) ∈ readSet busyP1.par busyP1.eng.cmdOp ldP1 ++ writeSet busyP1.par busyP1.eng.cmdOp ldP1 ∧
    meets ⟨0x2000, 1⟩ ⟨0x2000, 10⟩ = true ∧ (⟨0x2000, 10⟩ : Region) ∈ writeSet busyP1.par busyP1.eng.cmdOp ldP1 ∧
    (∀ a ∈ [0x100A, 0x200A],
      a + 1 ≤ 2 ^ 32 ∧ meets ⟨a, 1⟩ (registerFile busyP1.par) = false ∧
      (∀ r ∈ busyP1.par.sideEffect ++ busyP1.par.notProvided, meets ⟨a, 1⟩ r = false) ∧
      ∀ r ∈ busyP1.host.guardRead ++ busyP1.host.guardWrite, meets ⟨a, 1⟩ r = false) ∧
    busyP1.par.Legal ∧ p1.busy = false ∧ busyP1.eng.done = false ∧ (ended .ok .none).eng.done = true := by
  refine ⟨busyP1_inv.2.2.2.1, rfl, ?_⟩
  decide
/-- A load just past the output of a running command is made, and a read of STATUS with DONE = 1 empties the
record. -/
theorem test_allowedAccess :
    nextIs (hostLoad 0x200A 1 busyP1) (fun t => t.host.rdata.length == 1) = true ∧
    nextIs (hostStore 0x100A [7] busyP1) (fun t => t.mem.readRange 0x100A 1 == [7]) = true ∧
    nextIs (hostLoad 0x40000004 4 { ended .ok .none with host := busyP1.host })
      (fun t => decide (t.host.guardRead = [] ∧ t.host.guardWrite = [])) = true := by decide +kernel

theorem witness_HostTurnLeavesRunningCommand :
    busyP1.Inv ∧ busyP1.eng.phase = .busy ldP1 (.pending 1) ∧
    nextIs (agentStep .host busyP1) (fun _ => true) = true := ⟨busyP1_inv, rfl, by decide +kernel⟩

theorem witness_StepKeepsInvariant :
    busyP1.Inv ∧ nextIs (step busyP1) (fun t => !t.busy && t.eng.done) = true := ⟨busyP1_inv, by decide +kernel⟩

theorem witness_StepKeepsParameters : nextIs (step busyP1) (fun _ => true) = true := by decide +kernel

/-- A CMD write on the host's turn, the engine's completion, and a reset. -/
theorem witness_BusyOnlyFromStartToCompletion :
    p1.eng.phase = .idle ∧ p1.busy = false ∧
    nextIs (step { p1 with host := { p1.host with acts := [.store 0x40000000 (wordBytes 1)] } }) (fun t => t.busy) =
      true ∧
    nextIs (step busyP1) (fun t => !t.busy) = true ∧
    nextIs (step (busyP1.setInputs [.reset])) (fun t => !t.busy) = true ∧
    nextIs (step (busyP1.withGrain .element)) (fun t => t.busy) = true :=
  ⟨rfl, rfl, by decide +kernel, by decide +kernel, by decide +kernel, by decide +kernel⟩

theorem witness_EveryStartedCommandEnds : busyP1.Inv ∧ busyP1.busy = true ∧ busyP1.inputs = [] :=
  ⟨busyP1_inv, rfl, rfl⟩

end Sys2Proof.Tests
end

section
/-! The phase of the engine, and the parts of the invariant that speak of it, one equivalence each. -/

namespace Sys2Proof.Machine

theorem State.busy_eq_false_iff {s : State} : s.busy = false ↔ s.eng.phase = .idle := by
  unfold State.busy Engine.busy
  cases s.eng.phase <;> simp

theorem State.busy_eq_true_iff {s : State} : s.busy = true ↔ ∃ ld st, s.eng.phase = .busy ld st := by
  unfold State.busy Engine.busy
  cases s.eng.phase <;> simp

theorem State.phaseOk_iff {s : State} :
    s.PhaseOk ↔ ∀ ld st, s.eng.phase = .busy ld st → st.Ok s.par s.eng.cmdOp ld := by
  unfold State.PhaseOk
  cases s.eng.phase with
  | idle => simp
  | busy ld st =>
    simp only [Phase.busy.injEq]
    exact ⟨fun h _ _ ⟨hl, ht⟩ => hl ▸ ht ▸ h, fun h => h _ _ ⟨rfl, rfl⟩⟩

theorem State.guarded_iff {s : State} :
    s.Guarded ↔ ∀ ld st, s.eng.phase = .busy ld st →
      (∀ r ∈ readSet s.par s.eng.cmdOp ld, r ∈ s.host.guardRead) ∧
      (∀ r ∈ writeSet s.par s.eng.cmdOp ld, r ∈ s.host.guardWrite) := by
  unfold State.Guarded
  cases s.eng.phase with
  | idle => simp
  | busy ld st =>
    simp only [Phase.busy.injEq]
    exact ⟨fun h _ _ ⟨hl, _⟩ => hl ▸ h, fun h => h _ _ ⟨rfl, rfl⟩⟩

/-- The engine of a command just started (40_commands.md R120). -/
theorem State.startCommand_eng (s : State) (w : Word) :
    (s.startCommand w).eng =
      { s.eng with
        phase := .busy (latch s.eng) (.pending w), cmdOp := wordOp w, done := false, code := .ok
        detail := .none } := rfl

/-! ## Memory operations keep memory legal -/

theorem State.MemOk.write {s : State} (h : s.MemOk) {base : Nat} {bs : List Byte}
    (hb : base + bs.length ≤ memSize s.par) : (s.write base bs).MemOk :=
  ⟨Memory.writeRange_wf h.1 _ _, Memory.writeRange_inRange h.2 (.inr hb)⟩

theorem State.MemOk.scramble {s : State} (h : s.MemOk) {r : Region}
    (hr : r.len = 0 ∨ r.base + r.len ≤ memSize s.par) : (s.scramble r).MemOk :=
  ⟨Memory.freeRange_wf h.1 _ _ _, Memory.freeRange_inRange h.2 hr⟩

theorem State.MemOk.scrambleAll {s : State} (h : s.MemOk) {rs : List Region}
    (hr : ∀ r ∈ rs, r.len = 0 ∨ r.base + r.len ≤ memSize s.par) : (rs.foldl State.scramble s).MemOk := by
  induction rs generalizing s with
  | nil => exact h
  | cons r rs ih =>
    exact ih (h.scramble (hr r List.mem_cons_self)) fun q hq => hr q (List.mem_cons_of_mem _ hq)

/-- The ranges a reset makes free lie inside memory, or are empty. -/
theorem State.cutRanges_inMemory {s : State} {r : Region} (h : r ∈ s.cutRanges) :
    r.len = 0 ∨ r.base + r.len ≤ memSize s.par := by
  unfold State.cutRanges at h
  split at h
  · cases h
  · exact writeSet_inMemory h

/-! ## Details -/

theorem checkCompress_some {p : Params} {ld : Desc} {d : Detail} (h : checkCompress p ld = some d) :
    d.ofCommand = true := by
  unfold checkCompress at h
  split at h
  · cases h; rfl
  · split at h
    · cases h; rfl
    · split at h <;> cases h
      rfl

theorem checkDecompress_some {p : Params} {ld : Desc} {d : Detail} (h : checkDecompress p ld = some d) :
    d.ofCommand = true := by
  unfold checkDecompress at h
  split at h
  · cases h; rfl
  · split at h
    · cases h; rfl
    · split at h <;> cases h
      rfl

theorem decodeMatch_fail {n p cap : Nat} {mn : BitVec 4} {rest win : List Byte} {d : Detail} {pos : Nat}
    (h : decodeMatch n p cap mn rest win = .ended (.fail d pos)) : d.ofDecoder = true := by
  unfold decodeMatch at h
  split at h
  · dsimp only at h
    split at h
    · cases h; rfl
    · split at h
      · cases h; rfl
      · split at h <;> cases h
        rfl
  · cases h; rfl

theorem decodeSeq_fail {n p cap : Nat} {rest win : List Byte} {d : Detail} {pos : Nat}
    (h : decodeSeq n p cap rest win = .ended (.fail d pos)) : d.ofDecoder = true := by
  unfold decodeSeq at h
  split at h
  · cases h; rfl
  · split at h
    · cases h; rfl
    · split at h
      · cases h; rfl
      · split at h
        · cases h; rfl
        · dsimp only at h
          split at h
          · split at h <;> cases h
            rfl
          · exact decodeMatch_fail h

theorem decodeLoop_fail {n p cap fuel : Nat} {rest win : List Byte} {d : Detail} {pos : Nat}
    (h : decodeLoop n p cap fuel rest win = .fail d pos) : d.ofDecoder = true := by
  induction fuel generalizing rest win with
  | zero => cases h; rfl
  | succ fuel ih =>
    unfold decodeLoop at h
    split at h
    · rename_i r hr
      subst h
      exact decodeSeq_fail hr
    · exact ih h

/-- A payload that does not decode fails with one of the decoder's details (60_exceptions.md R271). -/
theorem decodeBlock_fail {payload hist : List Byte} {cap : Nat} {d : Detail} {pos : Nat}
    (h : decodeBlock payload hist cap = .fail d pos) : d.ofDecoder = true := decodeLoop_fail h

end Sys2Proof.Machine
end

section
/-! What a turn of the engine can do, said once: it stays IDLE, the running command goes on to another stage, or
the completion step ends it. With a legal stage before, the next stage and the ending are legal too. -/

namespace Sys2Proof.Machine

/-- An ending that leaves STATUS and the result registers legal together (60_exceptions.md R271, 10_state.md R34,
40_commands.md R124, R125). -/
def Ending.Legal (p : Params) (e : Ending) : Prop :=
  e.code.allows e.detail = true ∧ (e.code ≠ .decompressionError → e.errPos = 0) ∧
  (e.code = .ok → ∃ v, e.outLen = some v ∧ v.toNat ≤ p.blockLenLimit)

/-- What one turn of the engine can do. -/
inductive EngineTurn (s t : State) : Prop where
  /-- nothing: it is IDLE -/
  | stayed (hp : s.eng.phase = .idle) (ht : t = s)
  /-- the command goes on to the stage `st'`; `n` is what TOKENS then holds -/
  | advanced (ld : Desc) (st st' : Stage) (n : Word) (hp : s.eng.phase = .busy ld st)
      (ht : t = s.setEng { s.eng with phase := .busy ld st', tokens := n })
      (hok : st.Ok s.par s.eng.cmdOp ld → st'.Ok s.par s.eng.cmdOp ld)
  /-- the command ends with `e`, after memory was written: `u` is the state between -/
  | ended (ld : Desc) (st : Stage) (u : State) (e : Ending) (hp : s.eng.phase = .busy ld st)
      (hu : SameOutside s u) (he : u.eng = s.eng) (ht : t = u.endCommand e)
      (hm : st.Ok s.par s.eng.cmdOp ld → s.MemOk → u.MemOk)
      (hl : st.Ok s.par s.eng.cmdOp ld → e.Legal s.par)

section

variable {s : State} {ld : Desc} {st : Stage} (hp : s.eng.phase = .busy ld st)
include hp

theorem EngineTurn.setStage {st' : Stage} (h : st.Ok s.par s.eng.cmdOp ld → st'.Ok s.par s.eng.cmdOp ld) :
    EngineTurn s (s.setStage ld st') :=
  .advanced ld st st' s.eng.tokens hp rfl h

theorem EngineTurn.badCommand {d : Detail} (hd : d.ofCommand = true) : EngineTurn s (s.badCommand d) :=
  .ended ld st s _ hp (.refl s) rfl rfl (fun _ hm => hm) fun _ => ⟨hd, fun _ => rfl, nofun⟩

/-- The end of a compress command whose payload, where it has one, is no longer than the block. -/
theorem EngineTurn.finishCompress (tokens : Nat) {res : EncResult}
    (hc : st.Ok s.par s.eng.cmdOp ld → checkCompress s.par ld = none)
    (hb : ∀ bytes, res = .payload bytes → bytes.length ≤ ld.L) :
    EngineTurn s (finishCompress ld tokens res s) := by
  have scrambled : ∀ hk : st.Ok s.par s.eng.cmdOp ld, s.MemOk → (s.scramble ld.compressOut).MemOk := by
    intro hk hm
    obtain ⟨-, -, -, ho⟩ := checkCompress_none (hc hk)
    exact hm.scramble (.inr ho)
  cases res with
  | internal =>
    exact .ended ld st (s.scramble ld.compressOut) _ hp (.refl s) rfl rfl scrambled fun _ => ⟨rfl, fun _ => rfl, nofun⟩
  | incompressible =>
    exact .ended ld st (s.scramble ld.compressOut) _ hp (.refl s) rfl rfl scrambled fun _ => ⟨rfl, fun _ => rfl, nofun⟩
  | payload bytes =>
    have hlen : bytes.length ≤ ld.L := hb bytes rfl
    refine .ended ld st (s.write ld.out bytes) _ hp (.refl s) rfl rfl (fun hk hm => ?_) fun hk => ?_
    · obtain ⟨-, -, -, ho⟩ := checkCompress_none (hc hk)
      exact hm.write (by omega)
    · obtain ⟨-, hl, -, -⟩ := checkCompress_none (hc hk)
      refine ⟨rfl, fun _ => rfl, fun _ => ⟨_, rfl, ?_⟩⟩
      have := Nat.mod_le bytes.length (2 ^ 32)
      rw [BitVec.toNat_ofNat]
      omega

theorem EngineTurn.failDecode {d : Detail} (ip : Nat) (hd : d.ofDecoder = true)
    (hc : st.Ok s.par s.eng.cmdOp ld → checkDecompress s.par ld = none) :
    EngineTurn s (failDecode ld d ip s) := by
  refine .ended ld st (s.scramble ld.decompressOut) _ hp (.refl s) rfl rfl (fun hk hm => ?_)
    fun _ => ⟨hd, fun h => absurd rfl h, nofun⟩
  obtain ⟨-, -, -, -, hw⟩ := checkDecompress_none (hc hk)
  exact hm.scramble (.inr hw)

/-- The OK end of a decompress command that has decoded no more than the capacity. -/
theorem EngineTurn.finishDecode {win : List Byte}
    (hc : st.Ok s.par s.eng.cmdOp ld → checkDecompress s.par ld = none)
    (hw : st.Ok s.par s.eng.cmdOp ld → win.length ≤ ld.P + ld.cap) :
    EngineTurn s (finishDecode ld win s) := by
  have hlen : (win.drop ld.P).length = win.length - ld.P := List.length_drop
  refine .ended ld st
    ((s.write (ld.win + ld.P) (win.drop ld.P)).scramble
      ⟨ld.win + ld.P + (win.drop ld.P).length, ld.cap - (win.drop ld.P).length⟩)
    _ hp (.refl s) rfl rfl (fun hk hm => ?_) fun hk => ?_
  · obtain ⟨-, -, -, -, hmax⟩ := checkDecompress_none (hc hk)
    have := hw hk
    refine (hm.write (by omega)).scramble (.inr ?_)
    simp only [State.write_par]
    omega
  · obtain ⟨-, hcap, -, -, -⟩ := checkDecompress_none (hc hk)
    have := hw hk
    refine ⟨rfl, fun _ => rfl, fun _ => ⟨_, rfl, ?_⟩⟩
    have := Nat.mod_le (win.drop ld.P).length (2 ^ 32)
    rw [BitVec.toNat_ofNat]
    omega

end

/-! ## A command word (40_commands.md R121 to R123) -/

theorem runCompress_turn {s t : State} {ld : Desc} {w : Word} (hp : s.eng.phase = .busy ld (.pending w))
    (hw : wordOp w = 1) (h : runCompress ld s = .next t) : EngineTurn s t := by
  rcases withWindow_next h with ⟨d, hd, rfl⟩ | ⟨hc, -, rfl⟩
  · exact .badCommand hp (checkCompress_some hd)
  · split
    · refine .finishCompress hp _ (fun _ => hc) fun bytes hb => ?_
      obtain ⟨-, -, hl⟩ := encodeBlock_payload hb
      rw [List.length_drop, Memory.readRange_length] at hl
      omega
    · exact .setStage hp fun hk => ⟨hk.trans hw, hc⟩

theorem runDecompress_turn {s t : State} {ld : Desc} {w : Word} (hp : s.eng.phase = .busy ld (.pending w))
    (hw : wordOp w = 2) (h : runDecompress ld s = .next t) : EngineTurn s t := by
  rcases withPayload_next h with ⟨d, hd, rfl⟩ | ⟨hc, -, rfl⟩
  · exact .badCommand hp (checkDecompress_some hd)
  · have hist : (s.mem.readRange ld.win ld.P).length = ld.P := Memory.readRange_length _ _ _
    split
    · have hcases := decodeBlock_cases (s.mem.readRange ld.inp ld.n) (s.mem.readRange ld.win ld.P) ld.cap
      cases hd : decodeBlock (s.mem.readRange ld.inp ld.n) (s.mem.readRange ld.win ld.P) ld.cap with
      | ok win =>
        rw [hd] at hcases
        obtain ⟨out, rfl, ho⟩ := hcases
        exact .finishDecode hp (fun _ => hc) fun _ => by rw [List.length_append]; omega
      | fail d pos => exact .failDecode hp pos (decodeBlock_fail hd) fun _ => hc
    · refine .setStage hp fun hk => ⟨hk.trans hw, hc, Nat.zero_le _, ?_, ?_⟩ <;>
        simp only [DecScratch.op, hist] <;> omega

theorem runWord_turn {s t : State} {ld : Desc} {w : Word} (hp : s.eng.phase = .busy ld (.pending w))
    (h : runWord w ld s = .next t) : EngineTurn s t := by
  unfold runWord at h
  split at h
  · rename_i hw; exact runCompress_turn hp hw h
  · split at h
    · rename_i hw; exact runDecompress_turn hp hw h
    · cases h; exact .badCommand hp rfl

/-! ## The stages of a compress command (log 6) -/

theorem stageParse_turn {s : State} {ld : Desc} {m : MatchScratch} (hp : s.eng.phase = .busy ld (.found m)) :
    EngineTurn s (stageParse ld m s) :=
  .advanced ld _ _ _ hp rfl id

theorem stageCheck_turn {s : State} {ld : Desc} {p : ParseScratch} (hp : s.eng.phase = .busy ld (.parsed p)) :
    EngineTurn s (stageCheck ld p s) := by
  unfold stageCheck
  split
  · exact .setStage hp id
  · exact .finishCompress hp _ (fun hk => hk.2) nofun

theorem stageEmit_turn {s : State} {ld : Desc} {e : EmitScratch} (hp : s.eng.phase = .busy ld (.emitting e)) :
    EngineTurn s (stageEmit ld e s) := by
  unfold stageEmit
  split
  · refine .finishCompress hp _ (fun hk => hk.2) fun bytes hb => ?_
    obtain ⟨rfl, hl⟩ := encResult_payload hb
    exact hl
  · exact .setStage hp id

/-! ## The elements of a payload (44_block_decoder.md R201 to R209) -/

section

variable {s : State} {ld : Desc} {d : DecScratch} (hp : s.eng.phase = .busy ld (.decoding d))
include hp

/-- The datapath goes on: legal cursors before give legal cursors after. -/
theorem EngineTurn.setDec {ip : Nat} {p : DecPos} {win : List Byte} (hip : d.ip ≤ ld.n → ip ≤ ld.n)
    (hwin : ld.P ≤ d.win.length → d.win.length ≤ ld.P + ld.cap →
      ld.P ≤ win.length ∧ win.length ≤ ld.P + ld.cap) :
    EngineTurn s (s.setDec ld ⟨ip, p, win⟩) := by
  refine .setStage hp fun hk => ?_
  obtain ⟨hop, hc, hi, hlo, hhi⟩ := hk
  exact ⟨hop, hc, hip hi, hwin hlo hhi⟩

theorem EngineTurn.failDecoding {e : Detail} (ip : Nat) (hd : e.ofDecoder = true) :
    EngineTurn s (Machine.failDecode ld e ip s) :=
  .failDecode hp ip hd fun hk => hk.2.1

theorem matchOrFail_turn {ip off mlen : Nat} (hip : d.ip ≤ ld.n → ip ≤ ld.n) :
    EngineTurn s (matchOrFail ld ip off mlen d.win s) := by
  unfold matchOrFail
  split
  · exact .failDecoding hp _ rfl
  · exact .setDec hp hip fun _ _ => by rw [copyMatch_length]; omega

theorem afterOffset_turn {ip off : Nat} {mn : BitVec 4} (hip : d.ip ≤ ld.n → ip ≤ ld.n) :
    EngineTurn s (afterOffset ld ip off mn d.win s) := by
  unfold afterOffset
  split
  · exact .setDec hp hip fun h1 h2 => ⟨h1, h2⟩
  · exact matchOrFail_turn hp hip

theorem afterLiterals_turn {ip : Nat} {mn : BitVec 4} {win : List Byte} (hip : d.ip ≤ ld.n → ip ≤ ld.n)
    (hwin : ld.P ≤ d.win.length → d.win.length ≤ ld.P + ld.cap →
      ld.P ≤ win.length ∧ win.length ≤ ld.P + ld.cap) :
    EngineTurn s (afterLiterals ld ip mn win s) := by
  unfold afterLiterals
  split
  · split
    · refine .finishDecode hp (fun hk => hk.2.1) fun hk => ?_
      obtain ⟨-, -, -, hlo, hhi⟩ := hk
      exact (hwin hlo hhi).2
    · exact .failDecoding hp _ rfl
  · exact .setDec hp hip hwin

/-- A datapath turn on the payload bytes left, or on fewer. -/
theorem decoderTurn_turn {bs : List Byte} (hb : bs.length ≤ ld.n - d.ip) :
    EngineTurn s (decoderTurn ld d bs s) := by
  unfold decoderTurn
  split
  · exact .failDecoding hp _ rfl
  · rw [List.length_cons] at hb
    exact .setDec hp (by omega) fun h1 h2 => ⟨h1, h2⟩
  · exact .failDecoding hp _ rfl
  · rw [List.length_cons] at hb
    split <;> exact .setDec hp (by omega) fun h1 h2 => ⟨h1, h2⟩
  · split
    · exact .failDecoding hp _ rfl
    · split
      · exact .failDecoding hp _ rfl
      · refine afterLiterals_turn hp (by omega) fun _ _ => ?_
        rw [List.length_append, List.length_take]
        omega
  · rw [List.length_cons, List.length_cons] at hb
    split
    · exact .failDecoding hp _ rfl
    · exact afterOffset_turn hp (by omega)
  · exact .failDecoding hp _ rfl
  · exact .failDecoding hp _ rfl
  · rw [List.length_cons] at hb
    split
    · exact .setDec hp (by omega) fun h1 h2 => ⟨h1, h2⟩
    · exact matchOrFail_turn hp (by omega)

end

/-- Everything a turn of the engine can do. -/
theorem engine_turn {s t : State} (h : agentStep .engine s = .next t) : EngineTurn s t := by
  cases hp : s.eng.phase with
  | idle =>
    rw [engine_idle hp] at h
    cases h
    exact .stayed hp rfl
  | busy ld st =>
    cases st with
    | pending w =>
      rw [engine_pending hp] at h
      exact runWord_turn hp h
    | found m =>
      rw [engine_found hp] at h
      cases h
      exact stageParse_turn hp
    | parsed p =>
      rw [engine_parsed hp] at h
      cases h
      exact stageCheck_turn hp
    | emitting e =>
      rw [engine_emitting hp] at h
      cases h
      exact stageEmit_turn hp
    | decoding d =>
      rw [engine_decoding hp] at h
      cases h
      exact decoderTurn_turn hp (Nat.le_of_eq (Memory.readRange_length _ _ _))

/-! ## A step -/

/-- Everything a step can do: a reset, or a turn of an agent after the inputs have moved on. -/
theorem step_next {s t : State} (h : step s = .next t) :
    (∃ es, s.inputs = .reset :: es ∧ t = (s.setInputs es).applyReset) ∨
    (∃ es, HostTurn (s.setInputs es) t) ∨ (∃ es, EngineTurn (s.setInputs es) t) := by
  have turn : ∀ a es, agentStep a (s.setInputs es) = .next t →
      (∃ es, HostTurn (s.setInputs es) t) ∨ (∃ es, EngineTurn (s.setInputs es) t) := by
    intro a es ha
    cases a with
    | host => exact .inl ⟨es, host_turn ha⟩
    | engine => exact .inr ⟨es, engine_turn ha⟩
  unfold step at h
  split at h
  · rename_i es hi
    cases h
    exact .inl ⟨es, hi, rfl⟩
  · exact .inr (turn _ _ h)
  · exact .inr (turn _ s.inputs h)

end Sys2Proof.Machine
end

section
/-! Parameters (10_state.md R44, 70_reset_and_hazards.md R293) and the phase (10_state.md R21, R39) over a step. -/

namespace Sys2Proof.Machine

theorem RegWritten.par {s t : State} (h : RegWritten s t) : t.par = s.par := by
  rcases h with rfl | ⟨-, _, rfl⟩ | ⟨-, _, rfl, -⟩ <;> rfl

theorem HostTurn.par {s t : State} (h : HostTurn s t) : t.par = s.par := by
  cases h with
  | own h => exact h.1
  | acquired hp => exact hp
  | read hp => exact hp
  | reg u hu ht => exact ht.par.trans hu.1
  | wrote u addr bs hu hb hr hg ht => subst ht; exact hu.1

theorem EngineTurn.par {s t : State} (h : EngineTurn s t) : t.par = s.par := by
  cases h with
  | stayed hp ht => rw [ht]
  | advanced ld st st' n hp ht hok => rw [ht]; rfl
  | ended ld st u e hp hu he ht hm hl => rw [ht]; exact hu.1

/-- Settles O58, from what a reset, a turn of the host and a turn of the engine can do. -/
theorem stepKeepsParameters : Obligations.StepKeepsParameters := by
  unfold Obligations.StepKeepsParameters
  intro s t h
  rcases step_next h with ⟨es, -, rfl⟩ | ⟨es, h⟩ | ⟨es, h⟩
  · exact State.applyReset_par _
  · exact h.par
  · exact h.par

/-- What a turn of the host does to the engine: nothing; on an IDLE engine, the start of a command; or an IDLE
engine stays IDLE. -/
theorem HostTurn.eng_cases {s t : State} (h : HostTurn s t) :
    t.eng = s.eng ∨ (s.eng.phase = .idle ∧ ((∃ w, t.eng = (s.startCommand w).eng) ∨ t.eng.phase = .idle)) := by
  cases h with
  | own h => exact .inl h.2.1
  | acquired hp he => exact .inl he
  | read hp he => exact .inl he
  | reg u hu ht =>
    obtain ⟨-, he, -⟩ := hu
    rcases ht with rfl | ⟨hb, w, rfl⟩ | ⟨hb, e, rfl, hphase, -⟩
    · exact .inl he
    · rw [State.busy_eq_false_iff, he] at hb
      exact .inr ⟨hb, .inl ⟨w, by rw [State.startCommand_eng, State.startCommand_eng, he]⟩⟩
    · rw [State.busy_eq_false_iff] at hb
      exact .inr ⟨he ▸ hb, .inr (hphase.trans hb)⟩
  | wrote u addr bs hu hb hr hg ht =>
    subst ht
    exact .inl hu.2.1

/-- What a step does to the phase: nothing; a command starts; the running one goes on; or the engine is IDLE after
a completion step or a reset. -/
theorem step_phase_cases {s t : State} (h : step s = .next t) :
    t.eng.phase = s.eng.phase ∨
    (s.eng.phase = .idle ∧ ∃ w, t.eng = (s.startCommand w).eng) ∨
    (∃ ld st st', s.eng.phase = .busy ld st ∧ t.eng.phase = .busy ld st') ∨
    (t.eng.phase = .idle ∧ (t.eng.done = true ∨ ∃ es, s.inputs = .reset :: es)) := by
  rcases step_next h with ⟨es, hi, rfl⟩ | ⟨es, h⟩ | ⟨es, h⟩
  · exact .inr (.inr (.inr ⟨rfl, .inr ⟨es, hi⟩⟩))
  · rcases h.eng_cases with he | ⟨hp, ⟨w, he⟩ | ht⟩
    · exact .inl (congrArg Engine.phase he)
    · exact .inr (.inl ⟨hp, w, he⟩)
    · exact .inl (ht.trans hp.symm)
  · cases h with
    | stayed hp ht => exact .inl (by rw [ht]; rfl)
    | advanced ld st st' n hp ht hok => exact .inr (.inr (.inl ⟨ld, st, st', hp, by rw [ht]; rfl⟩))
    | ended ld st u e hp hu he ht hm hl =>
      subst ht
      exact .inr (.inr (.inr ⟨rfl, .inl rfl⟩))

/-- Settles O59, from what a step does to the phase. -/
theorem busyOnlyFromStartToCompletion : Obligations.BusyOnlyFromStartToCompletion := by
  unfold Obligations.BusyOnlyFromStartToCompletion
  refine ⟨fun s => engine_idle, fun s t h => ?_⟩
  simp only [State.busy_eq_false_iff, State.busy_eq_true_iff]
  rcases step_phase_cases h with hp | ⟨hs, w, ht⟩ | ⟨ld, st, st', hs, ht⟩ | ⟨ht, hend⟩
  · simp only [hp]
    refine ⟨fun hi ⟨_, _, hb⟩ => by simp [hi] at hb, fun ⟨_, _, hb⟩ hi => by simp [hi] at hb,
      fun _ _ _ _ h1 h2 => ?_⟩
    rw [h1] at h2
    cases h2
    rfl
  · exact ⟨fun _ _ => ⟨w, ht⟩, fun ⟨_, _, hb⟩ => by simp [hs] at hb, fun _ _ _ _ hb => by simp [hs] at hb⟩
  · refine ⟨fun hi => by simp [hs] at hi, fun _ hi => by simp [ht] at hi, fun _ _ _ _ h1 h2 => ?_⟩
    rw [hs] at h1
    rw [ht] at h2
    cases h1
    cases h2
    rfl
  · exact ⟨fun _ ⟨_, _, hb⟩ => by simp [ht] at hb, fun _ _ => hend, fun _ _ _ _ _ hb => by simp [ht] at hb⟩

end Sys2Proof.Machine
end

section
/-! The invariant over a step. -/

namespace Sys2Proof.Machine

/-- The invariant speaks of the parameters, the engine and memory, and of the hands-off record while BUSY. -/
theorem State.Inv.of_same {s t : State} (h : s.Inv) (hp : t.par = s.par) (he : t.eng = s.eng) (hm : t.mem = s.mem)
    (hg : s.busy = true → t.host.guardRead = s.host.guardRead ∧ t.host.guardWrite = s.host.guardWrite) : t.Inv := by
  obtain ⟨hmem, hstatus, hphase, hguard, haddr⟩ := h
  rw [State.phaseOk_iff] at hphase
  rw [State.guarded_iff] at hguard
  refine ⟨?_, ?_, State.phaseOk_iff.2 ?_, State.guarded_iff.2 ?_, ?_⟩
  · unfold State.MemOk; rw [hp, hm]; exact hmem
  · unfold State.StatusOk State.busy; rw [hp, he]; exact hstatus
  · rw [hp, he]; exact hphase
  · rw [hp, he]
    intro ld st hb
    obtain ⟨hr, hw⟩ := hg (State.busy_eq_true_iff.2 ⟨ld, st, hb⟩)
    rw [hr, hw]
    exact hguard ld st hb
  · unfold State.AddrOk; rw [hp, he]; exact haddr

theorem State.Inv.done_of_busy {s : State} (h : s.Inv) (hb : s.busy = true) : s.eng.done = false := by
  obtain ⟨-, ⟨-, hdone, -⟩, -⟩ := h
  exact hdone hb

theorem HostOnly.inv {s t : State} (h : HostOnly s t) (hs : s.Inv) : t.Inv := by
  obtain ⟨hp, he, hm, -, -, hr, hw⟩ := h
  exact hs.of_same hp he hm fun _ => ⟨hr, hw⟩

/-- An IDLE engine has no stage and no buffer to keep hands off. -/
theorem State.Inv.of_idle {s : State} (hi : s.eng.phase = .idle) (hm : s.MemOk) (hs : s.StatusOk)
    (ha : (latch s.eng).AddrOk s.par) : s.Inv := by
  refine ⟨hm, hs, State.phaseOk_iff.2 ?_, State.guarded_iff.2 ?_, ha, ?_⟩ <;> simp [hi]

/-- A command that starts is at a legal stage, with the hands off its buffers (70_reset_and_hazards.md R296). -/
theorem State.Inv.startCommand {s : State} (h : s.Inv) (w : Word) : (s.startCommand w).Inv := by
  obtain ⟨hm, -, -, -, ha, -⟩ := h
  refine ⟨hm, ⟨rfl, fun _ => rfl, fun _ => rfl, nofun, nofun⟩, rfl, ⟨fun r hr => ?_, fun r hr => ?_⟩, ha, ?_⟩
  · exact List.mem_append_right _ hr
  · exact List.mem_append_right _ hr
  · intro ld st hb
    cases hb
    exact ha

theorem RegWritten.inv {s t : State} (h : RegWritten s t) (hs : s.Inv) : t.Inv := by
  rcases h with rfl | ⟨-, w, rfl⟩ | ⟨hb, e, rfl, hphase, hdone, hcode, hdetail, -, hlen, herr, -, hwin, hinp, hout⟩
  · exact hs
  · exact hs.startCommand w
  · obtain ⟨hm, hstatus, -, -, ⟨awin, ainp, aout⟩, -⟩ := hs
    have hidle := State.busy_eq_false_iff.1 hb
    refine .of_idle (hphase.trans hidle) hm ?_ ⟨?_, ?_, ?_⟩
    · unfold State.StatusOk State.busy Engine.busy at hstatus ⊢
      simp only [State.setEng_eng, State.setEng_par, hphase, hdone, hcode, hdetail, hlen, herr]
      exact hstatus
    · exact hwin.elim (·.trans_lt awin) id
    · exact hinp.elim (·.trans_lt ainp) id
    · exact hout.elim (·.trans_lt aout) id

theorem HostTurn.inv {s t : State} (h : HostTurn s t) (hs : s.Inv) : t.Inv := by
  cases h with
  | own h => exact h.inv hs
  | acquired hp he hm hi hd =>
    exact hs.of_same hp he hm fun hb => by simp [hs.done_of_busy hb] at hd
  | read hp he hm hi hr hw => exact hs.of_same hp he hm fun _ => ⟨hr, hw⟩
  | reg u hu ht => exact ht.inv (hu.inv hs)
  | wrote u addr bs hu hb hr hg ht =>
    obtain ⟨hm, hrest⟩ := hu.inv hs
    subst ht
    exact ⟨hm.write (hu.1 ▸ hb), hrest⟩

/-- The completion step with a legal ending leaves a legal state. -/
theorem State.Inv.endCommand {s : State} {e : Ending} (hm : s.MemOk) (ha : (latch s.eng).AddrOk s.par)
    (hl : e.Legal s.par) : (s.endCommand e).Inv := by
  obtain ⟨hallows, herr, hlen⟩ := hl
  refine .of_idle rfl hm ⟨hallows, nofun, nofun, fun _ => herr, fun _ hok => ?_⟩ ha
  obtain ⟨v, hv, hle⟩ := hlen hok
  rw [State.endCommand_eng, hv]
  exact hle

theorem EngineTurn.inv {s t : State} (h : EngineTurn s t) (hs : s.Inv) : t.Inv := by
  cases h with
  | stayed hp ht => exact ht ▸ hs
  | advanced ld st st' n hp ht hok =>
    obtain ⟨hm, ⟨hallows, hdone, hcode, -, -⟩, hphase, hguard, haddr, hlatched⟩ := hs
    subst ht
    refine ⟨hm, ⟨hallows, fun _ => hdone (State.busy_eq_true_iff.2 ⟨ld, st, hp⟩), hcode, nofun, nofun⟩,
      hok (State.phaseOk_iff.1 hphase ld st hp), State.guarded_iff.1 hguard ld st hp, haddr, fun ld' st'' hb => ?_⟩
    cases hb
    exact hlatched ld st hp
  | ended ld st u e hp hu he ht hm hl =>
    obtain ⟨hmem, -, hphase, -, haddr, -⟩ := hs
    obtain ⟨hpar, -, -⟩ := hu
    have hk := State.phaseOk_iff.1 hphase ld st hp
    rw [ht]
    exact .endCommand (hm hk hmem) (by rw [he, hpar]; exact haddr) (by rw [hpar]; exact hl hk)

/-- A reset leaves a legal state: the bytes it makes unspecified are memory's own (70_reset_and_hazards.md R290, R291). -/
theorem State.Inv.applyReset {s : State} (hs : s.Inv) : s.applyReset.Inv := by
  obtain ⟨hm, -⟩ := hs
  have hpos : 0 < memSize s.applyReset.par := Nat.two_pow_pos _
  exact .of_idle rfl (hm.scrambleAll fun _ => State.cutRanges_inMemory) ⟨rfl, nofun, fun _ => rfl, fun _ _ => rfl,
    fun _ _ => Nat.zero_le _⟩ ⟨hpos, hpos, hpos⟩

/-- The invariant does not speak of the turns to come. -/
theorem State.Inv.setInputs {s : State} (h : s.Inv) (es : List Event) : (s.setInputs es).Inv :=
  h.of_same rfl rfl rfl fun _ => ⟨rfl, rfl⟩

/-- Settles O56: a reset, a turn of the host and a turn of the engine each keep the invariant. -/
theorem stepKeepsInvariant : Obligations.StepKeepsInvariant := by
  unfold Obligations.StepKeepsInvariant
  intro s t hs h
  rcases step_next h with ⟨es, -, rfl⟩ | ⟨es, h⟩ | ⟨es, h⟩
  · exact (hs.setInputs es).applyReset
  · exact h.inv (hs.setInputs es)
  · exact h.inv (hs.setInputs es)

/-- Settles O57: nothing is listed in memory, and the engine is IDLE with every register 0. -/
theorem resetHasInvariant : Obligations.ResetHasInvariant := by
  unfold Obligations.ResetHasInvariant
  have hpos : 0 < memSize State.reset.par := Nat.two_pow_pos _
  exact .of_idle rfl ⟨Memory.wf_empty, nofun, nofun⟩
    ⟨rfl, nofun, fun _ => rfl, fun _ _ => rfl, fun _ _ => Nat.zero_le _⟩ ⟨hpos, hpos, hpos⟩

end Sys2Proof.Machine
end

section
/-! The register file (10_state.md R22, R23; 20_memory.md R64) and the STATUS word (10_state.md R25). -/

namespace Sys2Proof.Machine

/-! ## Which accesses are made -/

theorem meets_iff {a b : Region} : meets a b = true ↔
    0 < a.len ∧ 0 < b.len ∧ a.base < b.base + b.len ∧ b.base < a.base + a.len := by
  simp [meets, and_assoc]

theorem meets_registerFile {p : Params} {addr n : Nat} :
    meets ⟨addr, n⟩ (registerFile p) = true ↔ 0 < n ∧ addr < p.ifaceBase + 256 ∧ p.ifaceBase < addr + n := by
  rw [meets_iff]
  simp only [registerFile, Nat.zero_lt_succ, true_and]

/-- The register file is word aligned and lies in memory. -/
theorem legal_registerFile {p : Params} (hl : p.Legal) :
    p.ifaceBase % 4 = 0 ∧ p.ifaceBase + 256 ≤ memSize p := by
  obtain ⟨-, -, -, -, -, -, -, -, -, -, halign, htop, -⟩ := hl
  exact ⟨halign, htop⟩

/-- An aligned word that meets the register file lies in it. -/
theorem regOffset_of_word {p : Params} {addr : Nat} (hl : p.Legal) (ha : addr % 4 = 0)
    (hm : meets ⟨addr, 4⟩ (registerFile p) = true) : regOffset p addr 4 = some (addr - p.ifaceBase) := by
  obtain ⟨halign, -⟩ := legal_registerFile hl
  rw [meets_registerFile] at hm
  exact if_pos ⟨by omega, by omega, rfl, by omega⟩

theorem regOffset_eq_none {p : Params} {addr n : Nat} (hl : p.Legal) (h : ¬ (n = 4 ∧ addr % 4 = 0)) :
    regOffset p addr n = none := by
  obtain ⟨halign, -⟩ := legal_registerFile hl
  exact if_neg fun ⟨hlo, _, hn, hoff⟩ => h ⟨hn, by omega⟩

section

variable {s : State} {addr n : Nat} (hin : addr + n ≤ memSize s.par)
  (hm : meets ⟨addr, n⟩ (registerFile s.par) = true)
include hin hm

/-- A load that meets the register file reads a register, or is refused. -/
theorem hostLoad_registerFile : hostLoad addr n s =
    (regOffset s.par addr n).elim (.refused .registerAccess) fun off => .next (s.regRead (regAt off)) := by
  unfold hostLoad
  rw [if_neg (Nat.not_lt.2 hin), if_pos hm]
  cases regOffset s.par addr n <;> rfl

/-- A store that meets the register file writes a register, or is refused. -/
theorem hostStore_registerFile {bs : List Byte} (hn : bs.length = n) : hostStore addr bs s =
    (regOffset s.par addr n).elim (.refused .registerAccess) fun off =>
      .next (s.regWrite (regAt off) (wordOf bs)) := by
  unfold hostStore
  rw [hn, if_neg (Nat.not_lt.2 hin), if_pos hm]
  cases regOffset s.par addr n <;> rfl

end

theorem regRead_eng (s : State) (r : Reg) : (s.regRead r).eng = s.eng := by
  unfold State.regRead
  dsimp only
  split <;> rfl

theorem regWrite_readOnly (s : State) {r : Reg} (h : r ∈ [Reg.status, .outLen, .tokens, .errPos, .param]) (v : Word) :
    s.regWrite r v = s := by
  unfold State.regWrite
  split
  · rfl
  · simp only [List.mem_cons, List.not_mem_nil, or_false] at h
    rcases h with rfl | rfl | rfl | rfl | rfl <;> rfl

/-- The offset of STATUS is a word of the register file inside memory. -/
theorem status_inMemory {p : Params} (hl : p.Legal) :
    p.ifaceBase + 0x04 + 4 ≤ memSize p ∧ meets ⟨p.ifaceBase + 0x04, 4⟩ (registerFile p) = true ∧
      regOffset p (p.ifaceBase + 0x04) 4 = some 0x04 := by
  obtain ⟨halign, htop⟩ := legal_registerFile hl
  have hm : meets ⟨p.ifaceBase + 0x04, 4⟩ (registerFile p) = true := by rw [meets_registerFile]; omega
  refine ⟨by omega, hm, ?_⟩
  rw [regOffset_of_word hl (by omega) hm, Nat.add_sub_cancel_left]

/-- A load of STATUS is the poll of WAIT (30_encoding.md R98). -/
theorem hostLoad_status {s : State} (hl : s.par.Legal) :
    hostLoad (s.par.ifaceBase + 0x04) 4 s = .next (s.regRead .status) := by
  obtain ⟨hin, hm, hoff⟩ := status_inMemory hl
  rw [hostLoad_registerFile hin hm, hoff]
  rfl

theorem hostStore_status {s : State} (hl : s.par.Legal) (v : Word) :
    hostStore (s.par.ifaceBase + 0x04) (wordBytes v) s = .next s := by
  obtain ⟨hin, hm, hoff⟩ := status_inMemory hl
  rw [hostStore_registerFile hin hm (wordBytes_length v), hoff]
  exact congrArg _ (regWrite_readOnly s (r := .status) (by simp) _)

theorem hostStoreBase_idle {s : State} (hw : 32 < s.par.addrW) (hb : s.busy = false) (b : BaseReg) (v : Nat) :
    hostStoreBase b v s = .next (s.setBase b v) := by
  unfold hostStoreBase
  rw [if_neg (Nat.not_le.2 hw), if_neg (by simp [hb])]

/-- Settles O12: the accesses that meet the register file are told apart by `regOffset`. -/
theorem registerAccessWidth : Obligations.RegisterAccessWidth := by
  unfold Obligations.RegisterAccessWidth
  refine ⟨fun s addr n bs hl hin hlen hm => ⟨fun hn ha => ?_, fun hbad => ?_⟩,
    fun s b v => ⟨fun hw => ?_, fun hw => ?_⟩⟩
  · subst hn
    have hoff := regOffset_of_word hl ha hm
    rw [hostLoad_registerFile hin hm, hostStore_registerFile hin hm hlen, hoff]
    refine ⟨⟨_, rfl, regRead_eng _ _⟩, ⟨_, rfl⟩, fun hro => congrArg _ (regWrite_readOnly s ?_ _)⟩
    generalize addr - s.par.ifaceBase = off at hro
    simp only [List.mem_cons, List.not_mem_nil, or_false] at hro
    rcases hro with rfl | rfl | rfl | rfl | rfl <;> decide
  · rw [hostLoad_registerFile hin hm, hostStore_registerFile hin hm hlen, regOffset_eq_none hl hbad]
    exact ⟨rfl, rfl⟩
  · refine ⟨if_neg (Nat.not_le.2 hw), fun hb => ?_, fun hb => ?_⟩
    · unfold hostStoreBase
      rw [if_neg (Nat.not_le.2 hw), if_pos hb]
    · rw [hostStoreBase_idle hw hb]
      cases b <;> rfl
  · exact ⟨if_pos hw, if_pos hw⟩

/-! ## STATUS -/

/-- The fields of STATUS (10_state.md R25). -/
theorem statusWord_fields (e : Engine) :
    (statusWord e).getLsbD 0 = e.busy ∧ (statusWord e).getLsbD 1 = e.done ∧
    (statusWord e).extractLsb' 2 6 = 0 ∧ (statusWord e).extractLsb' 8 8 = e.code.num ∧
    (statusWord e).extractLsb' 16 8 = e.detail.num ∧ (statusWord e).extractLsb' 24 8 = 0 := by
  unfold statusWord
  refine ⟨?_, ?_, ?_, ?_, ?_, ?_⟩
  · simp only [BitVec.getLsbD_append]
    simp
  · simp only [BitVec.getLsbD_append]
    simp
  · iterate 2 rw [BitVec.extractLsb'_append_eq_of_le (by decide)]
    rw [BitVec.extractLsb'_append_eq_of_add_le (by decide)]
    rfl
  · iterate 3 rw [BitVec.extractLsb'_append_eq_of_le (by decide)]
    rw [BitVec.extractLsb'_append_eq_of_add_le (by decide)]
    exact BitVec.extractLsb'_eq_self
  · iterate 4 rw [BitVec.extractLsb'_append_eq_of_le (by decide)]
    rw [BitVec.extractLsb'_append_eq_of_add_le (by decide)]
    exact BitVec.extractLsb'_eq_self
  · iterate 5 rw [BitVec.extractLsb'_append_eq_of_le (by decide)]
    rfl

/-- Without DONE, CODE and DETAIL the word is BUSY. -/
theorem statusWord_of_clear {e : Engine} (hdone : e.done = false) (hcode : e.code = .ok)
    (hdetail : e.detail = .none) : statusWord e = if e.busy then 1 else 0 := by
  unfold statusWord
  rw [hdone, hcode, hdetail]
  cases e.busy <;> decide

/-- Below the fields of an ended command stand BUSY 0 and DONE 1. -/
theorem append_endBits {n : Nat} (x : BitVec n) :
    x ++ 0#6 ++ BitVec.ofBool true ++ BitVec.ofBool false = x ++ 2#8 :=
  calc x ++ 0#6 ++ BitVec.ofBool true ++ BitVec.ofBool false
      = x ++ (0#6 ++ (BitVec.ofBool true ++ BitVec.ofBool false)) := by
        rw [BitVec.append_assoc', BitVec.append_assoc']
        rfl
    _ = x ++ 2#8 := rfl

theorem statusWord_endCommand (s : State) (x : Ending) :
    statusWord (s.endCommand x).eng = 0#8 ++ x.detail.num ++ x.code.num ++ 2#8 := append_endBits _

/-- A detail of the decoder is one of R271's first table. -/
theorem Detail.mem_of_ofDecoder {d : Detail} (h : d.ofDecoder = true) :
    d ∈ [Detail.truncatedToken, .truncatedRun, .truncatedLiterals, .truncatedOffset, .badOffset, .badLastToken,
      .oversize] := by
  revert h
  cases d <;> decide

/-- A detail of a command is one of R271's second table. -/
theorem Detail.mem_of_ofCommand {d : Detail} (h : d.ofCommand = true) :
    d ∈ [Detail.reservedOp, .prefixTooLong, .lengthTooLong, .bufferWraps] := by
  revert h
  cases d <;> decide

/-- DETAIL is none with every CODE but two (60_exceptions.md R271). -/
theorem StatusCode.allows_none {c : StatusCode} {d : Detail} (h : c.allows d = true) (h3 : c ≠ .decompressionError)
    (h4 : c ≠ .badCommand) : d = .none := by
  cases c with
  | ok => exact eq_of_beq h
  | incompressible => exact eq_of_beq h
  | compressionInternal => exact eq_of_beq h
  | decompressionError => exact absurd rfl h3
  | badCommand => exact absurd rfl h4

/-- Settles O13: the fields by the word's layout, the clauses on states by the invariant's part on STATUS. -/
theorem statusWordLayout : Obligations.StatusWordLayout := by
  unfold Obligations.StatusWordLayout
  refine ⟨statusWord_fields, rfl, rfl, rfl, fun s hs hc => ?_, fun s hs hc => ?_, fun s hs hb => ?_,
    fun s hs h3 h4 => ?_, fun _ _ => statusWord_of_clear rfl rfl rfl, fun _ => rfl, fun s v hl => hostStore_status hl v,
    statusWord_endCommand⟩
  all_goals obtain ⟨-, ⟨hallows, hdone, hcode, -⟩, -⟩ := hs
  · rw [hc] at hallows
    exact Detail.mem_of_ofDecoder hallows
  · rw [hc] at hallows
    exact Detail.mem_of_ofCommand hallows
  · have hok : s.eng.code = .ok := hcode (hdone hb)
    rw [StatusCode.allows_none hallows (by simp [hok]) (by simp [hok]), hok]
    exact ⟨rfl, rfl⟩
  · rw [StatusCode.allows_none hallows (fun h => h3 (h ▸ rfl)) (fun h => h4 (h ▸ rfl))]
    rfl

end Sys2Proof.Machine
end

section
/-! Reset of the registers (10_state.md R45), and what a turn runs (70_reset_and_hazards.md R300; log 5, log 20). -/

namespace Sys2Proof.Machine

/-! ## Reset -/

theorem foldl_scramble_inputs (rs : List Region) (s : State) : (rs.foldl State.scramble s).inputs = s.inputs := by
  induction rs generalizing s with
  | nil => rfl
  | cons r rs ih => rw [List.foldl_cons, ih]; rfl

/-- A reset of an IDLE engine cuts no command. -/
theorem State.applyReset_mem_of_idle {s : State} (h : s.eng.phase = .idle) : s.applyReset.mem = s.mem := by
  rw [State.applyReset_mem]
  unfold State.cutRanges
  rw [h]
  rfl

theorem regAt_eq_param {off : Nat} (h : regAt off = .param) : off = 0x2C := by
  by_contra hne
  simp [regAt, hne, ite_eq_iff] at h

/-- Every register of the engine after reset reads 0 but PARAM (10_state.md R45). -/
theorem State.regValue_reset {s : State} (h : s.eng = Engine.reset) {r : Reg} (hr : r ≠ .param) :
    s.regValue r = 0 := by
  have hb : s.busy = false := by unfold State.busy; rw [h]; rfl
  unfold State.regValue State.base
  rw [hb, h]
  cases r with
  | param => exact absurd rfl hr
  | _ => rfl

/-- Settles O7: a reset sets the engine to its reset value and leaves the parameters and the program alone. -/
theorem resetSetsEveryRegister : Obligations.ResetSetsEveryRegister := by
  unfold Obligations.ResetSetsEveryRegister
  intro s es hi
  have hstep : step s = .next (s.setInputs es).applyReset := by
    unfold step
    rw [hi]
  refine ⟨_, hstep, rfl, rfl, statusWord_of_clear rfl rfl rfl, fun off _ hne => ?_, ?_, fun hb => ?_,
    State.applyReset_par _, foldl_scramble_inputs _ _, rfl, rfl⟩
  · exact State.regValue_reset rfl fun h => hne (regAt_eq_param h)
  · exact congrArg paramWord (State.applyReset_par _)
  · exact State.applyReset_mem_of_idle (State.busy_eq_false_iff.1 hb)

/-! ## A turn -/

/-- A step with the turn given, or with the default turn, is the agent's on the state with the turn taken. -/
theorem step_turn {s u : State} {a : Agent}
    (h : (∃ es, s.inputs = .turn a :: es ∧ u = { s with inputs := es }) ∨
      (s.inputs = [] ∧ a = (if s.busy then .engine else .host) ∧ u = s)) :
    step s = agentStep a u ∧ u.par = s.par ∧ u.eng = s.eng ∧ u.mem = s.mem ∧ u.host = s.host := by
  unfold step
  rcases h with ⟨es, hi, rfl⟩ | ⟨hi, rfl, rfl⟩
  · rw [hi]
    exact ⟨rfl, rfl, rfl, rfl, rfl⟩
  · rw [hi]
    exact ⟨rfl, rfl, rfl, rfl, rfl⟩

/-- A turn of an agent that reads an instruction runs it. -/
theorem agentStep_unit {a : Agent} {s : State} {p : Pos} {bs rest : List Byte} {i : Instr}
    (hn : agentNext a s = .unit p bs) (hd : decode p bs = .ok (i, rest)) : agentStep a s = exec i s := by
  unfold agentStep
  rw [hn]
  simp only [runNext, hd]

/-- An engine that has accepted a command word reads it. -/
theorem agentStep_pending {s : State} {ld : Desc} {w : Word} (h : s.eng.phase = .busy ld (.pending w)) :
    agentStep .engine s = exec (decodeCommand w) s := by
  rw [engine_pending h, exec_decodeCommand]
  simp only [runCommand, h, if_true]

theorem engineNext_decoding {s : State} {ld : Desc} {d : DecScratch} (h : s.eng.phase = .busy ld (.decoding d)) :
    engineNext s = .unit d.at_.pos (s.mem.readRange (ld.inp + d.ip) (ld.n - d.ip)) := by
  unfold engineNext
  rw [h]

section

variable {s : State} {f : FrameRun}

theorem hostNext_readHeader (h : s.Reads f .readHeader) : hostNext s = .unit .frameHeader f.src := by
  obtain ⟨hf, hp, ht⟩ := h
  simp only [hostNext, hf, FrameRun.over, hp, ht, Bool.false_eq_true, if_false]

theorem hostNext_readBlock (h : s.Reads f .readBlock) : hostNext s = .unit .blockHeader f.src := by
  obtain ⟨hf, hp, ht⟩ := h
  simp only [hostNext, hf, FrameRun.over, hp, ht, Bool.false_eq_true, if_false]

theorem hostNext_readFooter (h : s.Reads f .readFooter) :
    hostNext s = .unit .rawFooter (f.src.drop (f.src.length - 2)) := by
  obtain ⟨hf, hp, ht⟩ := h
  simp only [hostNext, hf, FrameRun.over, hp, ht, Bool.false_eq_true, if_false]

end

/-- A host with an access queued makes it, and takes it from its queue where it is made (log 20). -/
theorem State.Queued.host_turn {s t : State} {act : HostAct} (h : s.Queued act t) :
    agentStep .host s = perform act s ∧ s.popAct = t := by
  unfold agentStep agentNext hostNext State.popAct
  rcases h with ⟨rest, hf | ⟨f, hf, ho⟩, ha, rfl⟩ | ⟨f, rest, hf, ho, ht, rfl⟩
  · simp only [hf, ha]
    exact ⟨rfl, rfl⟩
  · simp only [hf, ho, ha, if_true]
    exact ⟨rfl, rfl⟩
  · simp only [hf, ho, ht, Bool.false_eq_true, if_false]
    exact ⟨rfl, rfl⟩

/-- A WAIT is a read of STATUS, taken from the queue where it shows DONE = 1 (30_encoding.md R98; log 22). -/
theorem perform_wait (s : State) :
    perform .wait s = .next ((if s.eng.done then s.popAct else s).regRead .status) := rfl

/-- Settles O6: a turn is `exec` of what is decoded, or `perform` of what is queued. -/
theorem stepRunsDecodedInstruction : Obligations.StepRunsDecodedInstruction := by
  unfold Obligations.StepRunsDecodedInstruction
  intro s u a hturn
  obtain ⟨hstep, hpar, heng, hmem, hhost⟩ := step_turn hturn
  have reads : ∀ {f p}, s.Reads f p → u.Reads f p := fun hr => by
    unfold State.Reads
    rw [hhost]
    exact hr
  rw [hstep, ← hpar, ← heng, ← hmem]
  refine ⟨fun ld w ha hp => ?_, fun ld d i rest ha hp hd => ?_, fun f i rest ha hr hd => ?_,
    fun f i rest ha hr hd => ?_, fun f i rest ha hr hd => ?_, fun act v ha hq => ?_⟩
  all_goals subst ha
  · exact agentStep_pending hp
  · exact agentStep_unit (a := .engine) (engineNext_decoding hp) hd
  · exact agentStep_unit (a := .host) (hostNext_readHeader (reads hr)) hd
  · exact agentStep_unit (a := .host) (hostNext_readBlock (reads hr)) hd
  · exact agentStep_unit (a := .host) (hostNext_readFooter (reads hr)) hd
  · obtain ⟨hact, rfl⟩ := hq.host_turn
    rw [hact]
    refine ⟨?_, ?_, ?_, ?_, ?_, ?_⟩
    · rintro addr n rfl; rfl
    · rintro addr bs rfl; rfl
    · rintro b rfl; rfl
    · rintro b x rfl; rfl
    · rintro j rfl; rfl
    · rintro rfl hl
      have hpop : u.popAct.par = u.par := (HostOnly.popAct u).1
      rw [perform_wait]
      refine ⟨fun hd => ?_, fun hd => ?_⟩
      · rw [if_pos hd, ← hpop, hostLoad_status (hpop ▸ hl)]
      · rw [hostLoad_status hl, if_neg (by simp [hd])]

end Sys2Proof.Machine
end

section
/-! The state a command word runs in (40_commands.md R120), and why its buffers are refused (20_memory.md R65, R74;
70_reset_and_hazards.md R299). -/

namespace Sys2Proof.Machine

section

variable {s u : State} {w : Word} {ld : Desc}

/-- The CMD write changes neither the parameters, memory nor the draws. -/
theorem State.Runs.same (h : s.Runs w ld u) : u.par = s.par ∧ u.mem = s.mem ∧ u.draws = s.draws := by
  obtain ⟨-, -, rfl⟩ | ⟨-, rfl⟩ := h
  · exact ⟨rfl, rfl, rfl⟩
  · exact ⟨rfl, rfl, rfl⟩

theorem State.Runs.runCommand_eq (h : s.Runs w ld u) (run : Desc → State → Out) :
    runCommand w run s = run ld u := by
  unfold runCommand
  obtain ⟨hp, rfl, rfl⟩ | ⟨hp, rfl⟩ := h
  · rw [hp]
  · rw [hp]
    exact if_pos rfl

/-- The instruction of a command word runs the word. -/
theorem State.Runs.exec_eq (h : s.Runs w ld u) : exec (decodeCommand w) s = runWord w ld u := by
  rw [exec_decodeCommand, h.runCommand_eq]

end

section

variable {p : Params} {a b : Region}

theorem bufferRefusal_overlap (hm : meets a b = true) : bufferRefusal p a b = some .buffersOverlap :=
  if_pos hm

/-- The refusals after the first, for buffers that do not overlap. -/
theorem bufferRefusal_apart (hm : meets a b = false) : bufferRefusal p a b =
    if meets a (registerFile p) = true ∨ meets b (registerFile p) = true then some .bufferOverRegisters
    else if ∃ r ∈ p.sideEffect, meets a r = true ∨ meets b r = true then some .bufferOverSideEffect
    else if ∃ r ∈ p.notProvided, meets a r = true ∨ meets b r = true then some .bufferNotProvided
    else none := by
  simp only [bufferRefusal, hm, Bool.false_eq_true, if_false, Bool.or_eq_true, List.any_eq_true]

theorem meets_of_bufferRefusal_none (h : bufferRefusal p a b = none) : meets a b = false := by
  by_contra hm
  rw [bufferRefusal_overlap (by simpa using hm)] at h
  cases h

/-- Good buffers share no address. -/
theorem apart_of_bufferRefusal_none (h : bufferRefusal p a b = none) {x : Nat} (hx : holds a x = true) :
    holds b x = false := by
  by_contra hb
  have := meets_of_holds hx (by simpa using hb)
  rw [meets_of_bufferRefusal_none h] at this
  cases this

end

/-- `o` is the refusal `r`, where there is one, else a next state. -/
def RefusedOrNext (r : Option Refusal) (o : Out) : Prop := r.elim (∃ t, o = .next t) fun ρ => o = .refused ρ

theorem withWindow_refusedOrNext {ld : Desc} {s : State} (k : List Byte → State)
    (hc : checkCompress s.par ld = none) :
    RefusedOrNext (bufferRefusal s.par ld.compressWindow ld.compressOut) (withWindow ld s k) := by
  unfold withWindow
  rw [hc]
  cases bufferRefusal s.par ld.compressWindow ld.compressOut with
  | none => exact ⟨_, rfl⟩
  | some r => rfl

theorem withPayload_refusedOrNext {ld : Desc} {s : State} (k : List Byte → List Byte → State)
    (hc : checkDecompress s.par ld = none) :
    RefusedOrNext (bufferRefusal s.par ld.payload ld.decompressWindow) (withPayload ld s k) := by
  unfold withPayload
  rw [hc]
  cases bufferRefusal s.par ld.payload ld.decompressWindow with
  | none => exact ⟨_, rfl⟩
  | some r => rfl

/-- Settles O19: a command whose descriptor passes its checks answers by `bufferRefusal` alone. -/
theorem badBuffersRefused : Obligations.BadBuffersRefused := by
  unfold Obligations.BadBuffersRefused
  intro s u ld ignored a b i hi
  have hres : RefusedOrNext (bufferRefusal s.par a b) (exec i s) := by
    obtain ⟨rfl, hrun, hc, rfl, rfl⟩ | ⟨rfl, hrun, hc, rfl, rfl⟩ := hi
    all_goals
      obtain ⟨hpar, -, -⟩ := hrun.same
      rw [← hpar] at hc ⊢
    · have hexec : exec (.compressBlock ignored) s = runCompress ld u := hrun.runCommand_eq runCompress
      exact hexec ▸ withWindow_refusedOrNext _ hc
    · have hexec : exec (.decompressBlock ignored) s = runDecompress ld u := hrun.runCommand_eq runDecompress
      exact hexec ▸ withPayload_refusedOrNext _ hc
  refine ⟨fun hm => ?_, fun hm => ⟨fun hreg => ?_, fun hra hrb => ⟨fun hside => ?_, fun hside =>
    ⟨fun hprov => ?_, fun hprov => ?_⟩⟩⟩⟩
  · rw [bufferRefusal_overlap hm] at hres
    exact hres
  all_goals rw [bufferRefusal_apart hm] at hres
  · rw [if_pos hreg] at hres
    exact hres
  all_goals rw [if_neg (by simp [hra, hrb])] at hres
  · rw [if_pos hside] at hres
    exact hres
  all_goals rw [if_neg (by simpa using hside)] at hres
  · rw [if_pos hprov] at hres
    exact hres
  · rw [if_neg (by simpa using hprov)] at hres
    exact hres

end Sys2Proof.Machine
end

section
/-! What memory holds when a command run as one step ends (20_memory.md R61, R62; 40_commands.md R129). -/

namespace Sys2Proof.Machine

theorem SameMemOutside.of_sameMem {rs : List Region} {s t : State} (h : t.mem = s.mem) : SameMemOutside rs s t :=
  fun _ _ => by rw [h]

theorem SameMemOutside.read {r : Region} {s t : State} (h : SameMemOutside [r] s t) {a : Nat}
    (ha : holds r a = false) : t.mem.read a = s.mem.read a :=
  h a fun _ hq => List.mem_singleton.1 hq ▸ ha

/-! ## The endings of a compress command -/

section

variable {ld : Desc} {tokens : Nat} {res : EncResult} {s : State}

theorem finishCompress_sameMemOutside (hb : ∀ bytes, res = .payload bytes → bytes.length ≤ ld.L) :
    SameMemOutside [ld.compressOut] s (finishCompress ld tokens res s) := by
  cases res with
  | internal => exact sameMemOutside_scramble s _
  | incompressible => exact sameMemOutside_scramble s _
  | payload bytes =>
    intro a ha
    have hout := holds_false_iff.1 (ha _ (List.mem_singleton.2 rfl))
    have hlen := hb bytes rfl
    exact Memory.read_writeRange_outside _ fun hin => hout ⟨hin.1, by simp only [Desc.compressOut]; omega⟩

theorem finishCompress_code_ne_badCommand : (finishCompress ld tokens res s).eng.code ≠ .badCommand := by
  cases res <;> nofun

/-- OK leaves the payload and every byte after it as it was. -/
theorem finishCompress_ok (h : (finishCompress ld tokens res s).eng.code = .ok) :
    ∃ payload, res = .payload payload ∧
      (finishCompress ld tokens res s).eng.outLen = BitVec.ofNat 32 payload.length ∧
      (finishCompress ld tokens res s).mem.readRange ld.out payload.length = payload ∧
      ∀ a, ld.out + payload.length ≤ a → (finishCompress ld tokens res s).mem.read a = s.mem.read a := by
  cases res with
  | internal => cases h
  | incompressible => cases h
  | payload bytes =>
    exact ⟨bytes, rfl, rfl, Memory.readRange_writeRange_same _ _ _, fun a ha =>
      Memory.read_writeRange_outside _ (by omega)⟩

theorem finishCompress_unspecified (h : (finishCompress ld tokens res s).eng.code ≠ .ok) :
    Unspecified (finishCompress ld tokens res s) ld.compressOut s.draws := by
  cases res with
  | internal => exact unspecified_scramble s _
  | incompressible => exact unspecified_scramble s _
  | payload bytes => exact absurd rfl h

end

/-! ## The endings of a decompress command -/

theorem Failed.code {s t : State} {ld : Desc} {d : Detail} {ip : Nat} (h : Failed s ld d ip t) :
    t.eng.code = .decompressionError := by
  rw [h.1]

theorem Decoded.code {s t : State} {ld : Desc} {win : List Byte} (h : Decoded s ld win t) : t.eng.code = .ok := by
  rw [h.1]

theorem Decoded.outLen {s t : State} {ld : Desc} {win : List Byte} (h : Decoded s ld win t) :
    t.eng.outLen = BitVec.ofNat 32 (win.length - ld.P) := by
  rw [h.1]

/-- How DECOMPRESS_BLOCK run as one step ends: with the history and what was decoded, or with the datapath's error. -/
theorem endDecode_cases {payload hist : List Byte} {ld : Desc} (s : State) (hp : hist.length = ld.P) :
    (∃ out, decodeBlock payload hist ld.cap = .ok (hist ++ out) ∧
      Decoded s ld (hist ++ out) (endDecode ld (decodeBlock payload hist ld.cap) s)) ∨
    ∃ d pos, Failed s ld d pos (endDecode ld (decodeBlock payload hist ld.cap) s) := by
  have hcases := decodeBlock_cases payload hist ld.cap
  cases hd : decodeBlock payload hist ld.cap with
  | ok win =>
    rw [hd] at hcases
    obtain ⟨out, rfl, hout⟩ := hcases
    refine .inl ⟨out, rfl, finishDecode_decoded s ?_ ?_⟩ <;> rw [List.length_append] <;> omega
  | fail d pos => exact .inr ⟨d, pos, failDecode_failed ld d pos s⟩

/-! ## A command as one step -/

/-- How a command run as one step from `s` ends in `t`. -/
inductive CommandEnd (w : Word) (ld : Desc) (s t : State) : Prop where
  | bad (d : Detail) (hc : wordOp w = 1 → checkCompress s.par ld ≠ none)
      (hd : wordOp w = 2 → checkDecompress s.par ld ≠ none) (ht : t = s.badCommand d)
  | compressed (wd : List Byte) (tokens : Nat) (hw : wordOp w = 1) (hc : checkCompress s.par ld = none)
      (hb : bufferRefusal s.par ld.compressWindow ld.compressOut = none)
      (hwd : wd = s.mem.readRange ld.win (ld.P + ld.L))
      (ht : t = finishCompress ld tokens
        (encodeBlock s.par ld.P (wd.drop ld.P) (parseBy s.par (matchCandidates s.par wd ld.P))) s)
  | decompressed (hw : wordOp w = 2) (hc : checkDecompress s.par ld = none)
      (ht : t = endDecode ld
        (decodeBlock (s.mem.readRange ld.inp ld.n) (s.mem.readRange ld.win ld.P) ld.cap) s)

theorem runWord_end {w : Word} {ld : Desc} {s t : State} (hg : s.par.grain = .command)
    (h : runWord w ld s = .next t) : CommandEnd w ld s t := by
  unfold runWord at h
  split at h
  · rename_i hw
    have hw2 : wordOp w ≠ 2 := by rw [hw]; decide
    rcases withWindow_next h with ⟨d, hd, rfl⟩ | ⟨hc, hb, rfl⟩
    · exact .bad d (fun _ => by simp [hd]) (fun h2 => absurd h2 hw2) rfl
    · rw [hg]
      exact .compressed _ _ hw hc hb rfl rfl
  · rename_i hw1
    split at h
    · rename_i hw
      rcases withPayload_next h with ⟨d, hd, rfl⟩ | ⟨hc, hb, rfl⟩
      · exact .bad d (fun h1 => absurd h1 hw1) (fun _ => by simp [hd]) rfl
      · rw [hg]
        exact .decompressed hw hc rfl
    · rename_i hw2
      cases h
      exact .bad _ (fun h1 => absurd h1 hw1) (fun h2 => absurd h2 hw2) rfl

section

variable {w : Word} {ld : Desc} {s t : State} (h : CommandEnd w ld s t)
include h

/-- A command writes in its write set alone (20_memory.md R61). -/
theorem CommandEnd.sameMemOutside : SameMemOutside (writeSet s.par (wordOp w) ld) s t := by
  cases h with
  | bad d hc hd ht => exact .of_sameMem (by rw [ht]; rfl)
  | compressed wd tokens hw hc hb hwd ht =>
    obtain ⟨-, hset⟩ := sets_compress hc
    rw [hw, hset, ht]
    refine finishCompress_sameMemOutside fun bytes hbytes => ?_
    obtain ⟨-, -, hlen⟩ := encodeBlock_payload hbytes
    rw [List.length_drop, hwd, Memory.readRange_length] at hlen
    omega
  | decompressed hw hc ht =>
    obtain ⟨-, hset⟩ := sets_decompress hc
    rw [hw, hset, ht]
    rcases endDecode_cases s (Memory.readRange_length _ _ _) with ⟨out, -, hd⟩ | ⟨d, pos, hf⟩
    · obtain ⟨-, -, -, hout, -⟩ := hd
      exact hout
    · obtain ⟨-, hout, -⟩ := hf
      exact hout

theorem CommandEnd.mem_of_badCommand (hbad : t.eng.code = .badCommand) : t.mem = s.mem := by
  cases h with
  | bad d hc hd ht => rw [ht]; rfl
  | compressed wd tokens hw hc hb hwd ht => exact absurd (ht ▸ hbad) finishCompress_code_ne_badCommand
  | decompressed hw hc ht =>
    rcases endDecode_cases s (Memory.readRange_length _ _ _) with ⟨out, -, hd⟩ | ⟨d, pos, hf⟩
    · rw [ht, hd.code] at hbad
      cases hbad
    · rw [ht, hf.code] at hbad
      cases hbad

/-- W[0, P) lies outside the write set: a compress command's two buffers share no address, and a decompress command
writes after its history. -/
theorem CommandEnd.read_history {a : Nat} (hlo : ld.win ≤ a) (hhi : a < ld.win + ld.P) :
    t.mem.read a = s.mem.read a := by
  have hout := h.sameMemOutside
  cases h with
  | bad d hc hd ht => rw [ht]; rfl
  | compressed wd tokens hw hc hb hwd ht =>
    obtain ⟨-, hset⟩ := sets_compress hc
    rw [hw, hset] at hout
    exact hout.read (apart_of_bufferRefusal_none hb (holds_iff.2 ⟨hlo, by simp only [Desc.compressWindow]; omega⟩))
  | decompressed hw hc ht =>
    obtain ⟨-, hset⟩ := sets_decompress hc
    rw [hw, hset] at hout
    exact hout.read (holds_false_iff.2 (by simp only [Desc.decompressOut]; omega))

/-- How a compress command with a good descriptor ended. -/
theorem CommandEnd.compress (hw : wordOp w = 1) (hc : checkCompress s.par ld = none) :
    ∃ tokens, t = finishCompress ld tokens (encodeBlock s.par ld.P
      ((s.mem.readRange ld.win (ld.P + ld.L)).drop ld.P)
      (parseBy s.par (matchCandidates s.par (s.mem.readRange ld.win (ld.P + ld.L)) ld.P))) s := by
  cases h with
  | bad d hc' hd ht => exact absurd hc (hc' hw)
  | compressed wd tokens hw hc hb hwd ht => exact ⟨tokens, hwd ▸ ht⟩
  | decompressed hw2 hc' ht => rw [hw] at hw2; cases hw2

/-- How a decompress command with a good descriptor ended. -/
theorem CommandEnd.decompress (hw : wordOp w = 2) (hc : checkDecompress s.par ld = none) :
    t = endDecode ld (decodeBlock (s.mem.readRange ld.inp ld.n) (s.mem.readRange ld.win ld.P) ld.cap) s := by
  cases h with
  | bad d hc' hd ht => exact absurd hc (hd hw)
  | compressed wd tokens hw1 hc' hb hwd ht => rw [hw] at hw1; cases hw1
  | decompressed hw hc ht => exact ht

end

/-- An OK ending leaves what was decoded after the history, and the rest of the capacity unspecified. -/
theorem Decoded.written {s t : State} {ld : Desc} {hist out : List Byte} (hp : hist.length = ld.P)
    (h : Decoded s ld (hist ++ out) t) :
    t.eng.outLen = BitVec.ofNat 32 out.length ∧ t.mem.readRange (ld.win + ld.P) out.length = out ∧
      Unspecified t ⟨ld.win + ld.P + out.length, ld.cap - out.length⟩ s.draws := by
  have hlen : (hist ++ out).length = ld.P + out.length := by rw [List.length_append, hp]
  have houtLen := h.outLen
  obtain ⟨-, hread, hfree, -, -⟩ := h
  rw [hlen, Nat.add_sub_cancel_left] at houtLen hread
  rw [← hp, List.drop_left, hp] at hread
  rw [hlen, ← Nat.add_assoc, Nat.add_sub_add_left] at hfree
  exact ⟨houtLen, hread, hfree⟩

/-- Settles O20, clause by clause from how the command ends. -/
theorem writtenRangeAtEnd : Obligations.WrittenRangeAtEnd := by
  unfold Obligations.WrittenRangeAtEnd
  intro s u t w ld hrun hg hexec
  obtain ⟨hpar, hmem, hdraws⟩ := hrun.same
  rw [hrun.exec_eq] at hexec
  unfold SameMemOutside
  rw [← hpar] at hg ⊢
  rw [← hmem, ← hdraws]
  have hend := runWord_end hg hexec
  refine ⟨hend.sameMemOutside, hend.mem_of_badCommand, fun a => hend.read_history, ?_, ?_⟩
  · rintro wd hw hc rfl
    obtain ⟨tokens, rfl⟩ := hend.compress hw hc
    exact ⟨finishCompress_ok, finishCompress_unspecified⟩
  · rintro payload hist hw hc rfl rfl
    have hlen : (u.mem.readRange ld.win ld.P).length = ld.P := Memory.readRange_length _ _ _
    rw [hend.decompress hw hc]
    rcases endDecode_cases u hlen with ⟨out, hdec, hd⟩ | ⟨d, pos, hf⟩
    · exact ⟨fun _ => ⟨out, hdec, hd.written hlen⟩, fun hne => absurd hd.code hne⟩
    · have hcode := hf.code
      obtain ⟨-, -, hfree, -⟩ := hf
      exact ⟨fun hok => absurd (hcode.symm.trans hok) (by decide), fun _ => hfree⟩

end Sys2Proof.Machine
end

section
/-! What a payload element leaves alone (20_memory.md R61, 40_commands.md R128; log 6, log 27). -/

namespace Sys2Proof.Machine

/-- What a payload element can do to a decompress command that runs in `s`: the datapath goes on, a check of its
fails, or it ends OK with no more than the capacity decoded. -/
inductive ElementTurn (ld : Desc) (s t : State) : Prop where
  | advanced (d : DecScratch) (ht : t = s.setDec ld d)
  | failed (e : Detail) (ip : Nat) (ht : t = failDecode ld e ip s)
  | finished (win : List Byte) (hp : ld.P ≤ win.length) (hc : win.length ≤ ld.P + ld.cap)
      (ht : t = finishDecode ld win s)

theorem matchOrFail_element (ld : Desc) (ip off mlen : Nat) (win : List Byte) (s : State) :
    ElementTurn ld s (matchOrFail ld ip off mlen win s) := by
  unfold matchOrFail
  split
  · exact .failed _ _ rfl
  · exact .advanced _ rfl

theorem afterOffset_element (ld : Desc) (ip off : Nat) (mn : BitVec 4) (win : List Byte) (s : State) :
    ElementTurn ld s (afterOffset ld ip off mn win s) := by
  unfold afterOffset
  split
  · exact .advanced _ rfl
  · exact matchOrFail_element ..

theorem afterLiterals_element {ld : Desc} {win : List Byte} (ip : Nat) (mn : BitVec 4) (s : State)
    (hp : ld.P ≤ win.length) (hc : win.length ≤ ld.P + ld.cap) :
    ElementTurn ld s (afterLiterals ld ip mn win s) := by
  unfold afterLiterals
  split
  · split
    · exact .finished win hp hc rfl
    · exact .failed _ _ rfl
  · exact .advanced _ rfl

section

variable {s t : State} {ld : Desc} {d : DecScratch} (hp : s.eng.phase = .busy ld (.decoding d))
include hp

theorem withDecoder_decoding (k : Desc → DecScratch → Out) : withDecoder s k = k ld d := by
  unfold withDecoder
  rw [hp]

theorem readToken_element {ln mn : BitVec 4} (h : readToken ln mn s = .next t) : ElementTurn ld s t := by
  unfold readToken at h
  rw [withDecoder_decoding hp] at h
  split at h <;> cases h
  exact .advanced _ rfl

theorem execRunFf_element (h : execRunFf s = .next t) : ElementTurn ld s t := by
  unfold execRunFf at h
  rw [withDecoder_decoding hp] at h
  split at h <;> cases h
  · exact .advanced _ rfl
  · exact .advanced _ rfl

theorem execRunEnd_element {e : Byte} (h : execRunEnd e s = .next t) : ElementTurn ld s t := by
  unfold execRunEnd at h
  rw [withDecoder_decoding hp] at h
  split at h <;> cases h
  · exact .advanced _ rfl
  · exact matchOrFail_element ..

theorem execOffset16_element {lo hi : Byte} (h : execOffset16 lo hi s = .next t) : ElementTurn ld s t := by
  unfold execOffset16 at h
  rw [withDecoder_decoding hp] at h
  split at h
  · split at h <;> cases h
    · exact .failed _ _ rfl
    · exact afterOffset_element ..
  · cases h

theorem execLiterals_element {bytes : List Byte} (hop : ld.P ≤ d.op) (h : execLiterals bytes s = .next t) :
    ElementTurn ld s t := by
  unfold execLiterals at h
  rw [withDecoder_decoding hp] at h
  split at h
  · split at h
    · rename_i hlen
      split at h <;> cases h
      · exact .failed _ _ rfl
      · unfold DecScratch.op at hop
        exact afterLiterals_element _ _ _ (by rw [List.length_append]; omega) (by rw [List.length_append]; omega)
    · cases h
  · cases h

end

/-- The instructions the decode datapath reads from a payload (44_block_decoder.md R201 to R207). -/
def Instr.inPayload : Instr → Bool
  | .seq _ _ | .last _ | .runFf | .runEnd _ | .offset16 _ _ | .literals _ => true
  | .compressBlock _ | .decompressBlock _ | .reservedCmd _ _ | .blkCompressed _ | .blkUncompressed _ | .blkEndmark
  | .frameHeader _ _ | .rawFooter => false

/-- Everything a payload element can do. -/
theorem exec_element {i : Instr} {s t : State} {ld : Desc} {d : DecScratch} (hi : Instr.inPayload i = true)
    (hp : s.eng.phase = .busy ld (.decoding d)) (hop : ld.P ≤ d.op) (h : exec i s = .next t) :
    ElementTurn ld s t := by
  cases i with
  | seq ln mn => exact readToken_element hp h
  | last ln => exact readToken_element hp h
  | runFf => exact execRunFf_element hp h
  | runEnd e => exact execRunEnd_element hp h
  | offset16 lo hi => exact execOffset16_element hp h
  | literals bytes => exact execLiterals_element hp hop h
  | _ => cases hi

/-- Settles O29, from what a payload element can do. -/
theorem payloadElementFrame : Obligations.PayloadElementFrame := by
  unfold Obligations.PayloadElementFrame
  intro i s t ld d hi hp hop hexec
  have hpayload : Instr.inPayload i = true := by
    match i, hi with
    | .seq .., _ | .last .., _ | .runFf, _ | .runEnd _, _ | .offset16 .., _ | .literals _, _ => rfl
  cases exec_element hpayload hp hop hexec with
  | advanced d' ht =>
    subst ht
    exact ⟨rfl, rfl, .refl s, .of_sameMem rfl, fun _ => ⟨rfl, rfl, rfl⟩⟩
  | failed e ip ht =>
    obtain ⟨-, hout, -, hsame⟩ := failDecode_failed ld e ip s
    subst ht
    exact ⟨rfl, rfl, hsame, hout, nofun⟩
  | finished win hlo hhi ht =>
    obtain ⟨-, -, -, hout, hsame⟩ := finishDecode_decoded s hlo hhi
    subst ht
    exact ⟨rfl, rfl, hsame, hout, nofun⟩

end Sys2Proof.Machine
end

section
/-! The hands-off duty of the host (20_memory.md R68 to R72, 70_reset_and_hazards.md R296; log 33). -/

namespace Sys2Proof.Machine

/-! ## Accesses to memory -/

theorem plainMemory_iff {p : Params} {r : Region} :
    plainMemory p r = true ↔ ∀ q ∈ p.sideEffect ++ p.notProvided, meets r q = false := by
  simp only [plainMemory, Bool.and_eq_true, Bool.not_eq_true', List.any_eq_false, Bool.not_eq_true, List.mem_append,
    or_imp, forall_and]

section

variable {s : State} {addr n : Nat} (hin : addr + n ≤ memSize s.par)
  (hr : meets ⟨addr, n⟩ (registerFile s.par) = false)
include hin hr

/-- A load off the register file reads memory, or is refused. -/
theorem hostLoad_memory : hostLoad addr n s =
    if plainMemory s.par ⟨addr, n⟩ = false then .refused .notMemory
    else if ∃ q ∈ s.host.guardWrite, meets ⟨addr, n⟩ q = true then .refused .handsOff
    else .next (s.returned (s.mem.readRange addr n)) := by
  unfold hostLoad
  simp only [if_neg (Nat.not_lt.2 hin), hr, Bool.false_eq_true, if_false, List.any_eq_true]

/-- A store off the register file writes memory, or is refused. -/
theorem hostStore_memory {bs : List Byte} (hn : bs.length = n) : hostStore addr bs s =
    if plainMemory s.par ⟨addr, n⟩ = false then .refused .notMemory
    else if ∃ q ∈ s.host.guardRead ++ s.host.guardWrite, meets ⟨addr, n⟩ q = true then .refused .handsOff
    else .next (s.write addr bs) := by
  unfold hostStore
  simp only [hn, if_neg (Nat.not_lt.2 hin), hr, Bool.false_eq_true, if_false, List.any_eq_true]

theorem hostLoad_guarded {q : Region} (hq : q ∈ s.host.guardWrite) (hm : meets ⟨addr, n⟩ q = true) :
    ∃ ρ, hostLoad addr n s = .refused ρ := by
  rw [hostLoad_memory hin hr, if_pos (⟨q, hq, hm⟩ : ∃ q ∈ s.host.guardWrite, meets ⟨addr, n⟩ q = true)]
  split
  · exact ⟨_, rfl⟩
  · exact ⟨_, rfl⟩

theorem hostStore_guarded {bs : List Byte} (hn : bs.length = n) {q : Region}
    (hq : q ∈ s.host.guardRead ++ s.host.guardWrite) (hm : meets ⟨addr, n⟩ q = true) :
    ∃ ρ, hostStore addr bs s = .refused ρ := by
  rw [hostStore_memory hin hr hn,
    if_pos (⟨q, hq, hm⟩ : ∃ q ∈ s.host.guardRead ++ s.host.guardWrite, meets ⟨addr, n⟩ q = true)]
  split
  · exact ⟨_, rfl⟩
  · exact ⟨_, rfl⟩

variable (hplain : ∀ q ∈ s.par.sideEffect ++ s.par.notProvided, meets ⟨addr, n⟩ q = false)
include hplain

theorem hostLoad_free (hg : ∀ q ∈ s.host.guardWrite, meets ⟨addr, n⟩ q = false) :
    hostLoad addr n s = .next (s.returned (s.mem.readRange addr n)) := by
  rw [hostLoad_memory hin hr, if_neg (by simp [plainMemory_iff.2 hplain]), if_neg (by simpa using hg)]

theorem hostStore_free {bs : List Byte} (hn : bs.length = n)
    (hg : ∀ q ∈ s.host.guardRead ++ s.host.guardWrite, meets ⟨addr, n⟩ q = false) :
    hostStore addr bs s = .next (s.write addr bs) := by
  rw [hostStore_memory hin hr hn, if_neg (by simp [plainMemory_iff.2 hplain]), if_neg]
  rintro ⟨q, hq, hm⟩
  simp [hg q hq] at hm

end

/-! ## The record of the duty -/

/-- What a read of STATUS leaves of the host's record: nothing where it shows DONE = 1. -/
theorem regRead_status_host (s : State) :
    (s.regRead .status).host.rdata = wordBytes (statusWord s.eng) ∧
    (s.eng.done = true → (s.regRead .status).host.guardRead = [] ∧ (s.regRead .status).host.guardWrite = []) ∧
    (s.eng.done = false → (s.regRead .status).host.guardRead = s.host.guardRead ∧
      (s.regRead .status).host.guardWrite = s.host.guardWrite) := by
  unfold State.regRead
  by_cases hd : s.eng.done = true
  · rw [if_pos ⟨rfl, hd⟩]
    exact ⟨rfl, fun _ => ⟨rfl, rfl⟩, fun h => by simp [hd] at h⟩
  · rw [if_neg fun h => hd h.2]
    exact ⟨rfl, fun h => absurd h hd, fun _ => ⟨rfl, rfl⟩⟩

theorem wordOf_wordBytes (w : Word) : wordOf (wordBytes w) = w := le32_wordBytes w

/-- A CMD write on an IDLE engine starts the command (40_commands.md R120). -/
theorem hostStore_cmd {s : State} (hl : s.par.Legal) (hb : s.busy = false) (v : Word) :
    hostStore s.par.ifaceBase (wordBytes v) s = .next (s.startCommand v) := by
  obtain ⟨halign, htop⟩ := legal_registerFile hl
  have hm : meets ⟨s.par.ifaceBase, 4⟩ (registerFile s.par) = true := by rw [meets_registerFile]; omega
  rw [hostStore_registerFile (by omega) hm (wordBytes_length v), regOffset_of_word hl halign hm, Nat.sub_self,
    wordOf_wordBytes]
  have hw : s.regWrite .cmd v = s.startCommand v := if_neg (by simp [hb])
  exact congrArg _ hw

/-- While BUSY, the record holds the buffers of the running command. -/
theorem State.Guarded.record {s : State} {ld : Desc} {st : Stage} (hg : s.Guarded)
    (hp : s.eng.phase = .busy ld st) {r : Region}
    (hr : r ∈ readSet s.par s.eng.cmdOp ld ++ writeSet s.par s.eng.cmdOp ld) :
    r ∈ s.host.guardRead ++ s.host.guardWrite := by
  obtain ⟨hread, hwrite⟩ := State.guarded_iff.1 hg ld st hp
  exact List.mem_append.2 ((List.mem_append.1 hr).imp (hread r) (hwrite r))

/-- Settles O54: the record holds a running command's buffers, and the accesses are told apart by it. -/
theorem handsOffWhileBusy : Obligations.HandsOffWhileBusy := by
  unfold Obligations.HandsOffWhileBusy
  refine ⟨fun s ld st addr bs r hg hp hin hreg hm => ⟨fun hr => ?_, fun hr => ?_⟩,
    fun s addr n bs hin hn hreg hplain => ⟨fun hg => ?_, fun hg => ?_⟩,
    fun s hl => ⟨⟨_, hostLoad_status hl, regRead_status_host s⟩,
      fun v hb => ⟨_, hostStore_cmd hl hb v, rfl, rfl⟩⟩⟩
  · exact hostStore_guarded hin hreg rfl (hg.record hp hr) hm
  · obtain ⟨-, hwrite⟩ := State.guarded_iff.1 hg ld st hp
    exact hostLoad_guarded hin hreg (hwrite r hr) hm
  · exact hostLoad_free hin hreg hplain hg
  · refine ⟨_, hostStore_free hin hreg hplain hn hg, ?_, fun a ha => ?_, rfl, rfl, .refl s⟩
    · rw [← hn]
      exact Memory.readRange_writeRange_same _ _ _
    · exact Memory.read_writeRange_outside _ (by omega)

/-! ## A turn of the host -/

/-- A register write leaves a BUSY engine and memory alone (10_state.md R35). -/
theorem RegWritten.of_busy {s t : State} (h : RegWritten s t) (hb : s.busy = true) : t = s := by
  rcases h with rfl | ⟨hidle, -⟩ | ⟨hidle, -⟩
  · rfl
  · simp [hb] at hidle
  · simp [hb] at hidle

/-- While BUSY, a turn of the host leaves the engine and every byte of the ranges on its record alone. -/
theorem HostTurn.leaves_record {s t : State} (h : HostTurn s t) (hb : s.busy = true) :
    t.eng = s.eng ∧ ∀ r ∈ s.host.guardRead ++ s.host.guardWrite, ∀ a, holds r a = true →
      t.mem.read a = s.mem.read a := by
  cases h with
  | own h =>
    obtain ⟨-, he, hm, -⟩ := h
    exact ⟨he, fun _ _ _ _ => by rw [hm]⟩
  | acquired hp he hm => exact ⟨he, fun _ _ _ _ => by rw [hm]⟩
  | read hp he hm => exact ⟨he, fun _ _ _ _ => by rw [hm]⟩
  | reg u hu ht =>
    obtain ⟨-, he, hm, -⟩ := hu
    have hbu : u.busy = true := by unfold State.busy; rw [he]; exact hb
    rw [ht.of_busy hbu]
    exact ⟨he, fun _ _ _ _ => by rw [hm]⟩
  | wrote u addr bs hu hin hr hg ht =>
    obtain ⟨-, he, hm, -⟩ := hu
    subst ht
    refine ⟨he, fun r hrec a ha => ?_⟩
    rw [← hm]
    refine Memory.read_writeRange_outside _ fun hwritten => ?_
    have hmeets := meets_of_holds (holds_iff.2 hwritten : holds ⟨addr, bs.length⟩ a = true) ha
    simp [hg r hrec] at hmeets

/-- Settles O55: the buffers of a running command are on the host's record. -/
theorem hostTurnLeavesRunningCommand : Obligations.HostTurnLeavesRunningCommand := by
  unfold Obligations.HostTurnLeavesRunningCommand
  intro s t ld st hs hp h
  obtain ⟨-, -, -, hg, -⟩ := hs
  obtain ⟨heng, hmem⟩ := (host_turn h).leaves_record (State.busy_eq_true_iff.2 ⟨ld, st, hp⟩)
  exact ⟨heng, fun r hr => hmem r (hg.record hp hr)⟩

end Sys2Proof.Machine
end

section
/-! Decoding and encoding agree (30_encoding.md R81 to R94): what the decoder makes of a row's bytes, and what it
answers at each place. -/

namespace Sys2Proof

/-! ## The bytes of a row decode to it -/

/-- A token with both nibbles given (30_encoding.md R81, R88; log 23). -/
theorem decodeToken_append (ln mn : BitVec 4) (bs : List Byte) :
    decodeToken (ln ++ mn) bs = if mn = 0 ∧ endsAfterLiterals ln bs = true then .last ln else .seq ln mn := by
  unfold decodeToken
  rw [tokenLn_append, tokenMn_append]

theorem reservedCmd_wellFormed_iff {op : BitVec 4} {g : BitVec 28} :
    (Instr.reservedCmd op g).wellFormed = true ↔ op ≠ 1 ∧ op ≠ 2 := by
  unfold Instr.wellFormed
  rw [Bool.and_eq_true, bne_iff_ne, bne_iff_ne]

theorem seq_fits_iff {ln mn : BitVec 4} {rest : List Byte} :
    (Instr.seq ln mn).fits rest = true ↔ ¬ (mn = 0 ∧ endsAfterLiterals ln rest = true) := by
  simp [Instr.fits, imp_iff_not_or]

/-- The literals of a row are read back whole (30_encoding.md R82). -/
theorem decode_literals (bytes rest : List Byte) :
    decode (.literals bytes.length) (bytes ++ rest) = .ok (.literals bytes, rest) := by
  simp [decode]

theorem decode_frameHeader {bd : Byte} (h : legalBd bd = true) (hc : Byte) (rest : List Byte) :
    decode .frameHeader (encode (.frameHeader bd hc) ++ rest) = .ok (.frameHeader bd hc, rest) := by
  simp [encode, decode, h]

/-- Settles O1, row by row. SEQ and LAST are told apart by the bytes after them (R88), which fit by hypothesis. -/
theorem decodeEncodeRoundTrip : Obligations.DecodeEncodeRoundTrip := by
  unfold Obligations.DecodeEncodeRoundTrip
  intro i rest hw hf
  cases i with
  | compressBlock g => exact (decode_command _ rest).trans (by rw [decodeCommand_append]; rfl)
  | decompressBlock g => exact (decode_command _ rest).trans (by rw [decodeCommand_append]; rfl)
  | reservedCmd op g =>
    obtain ⟨h1, h2⟩ := reservedCmd_wellFormed_iff.1 hw
    exact (decode_command _ rest).trans (by rw [decodeCommand_append, if_neg h1, if_neg h2])
  | seq ln mn =>
    show Except.ok (decodeToken (ln ++ mn) rest, rest) = _
    rw [decodeToken_append, if_neg (seq_fits_iff.1 hf)]
  | last ln =>
    show Except.ok (decodeToken (ln ++ 0#4) rest, rest) = _
    rw [decodeToken_append, if_pos ⟨rfl, hf⟩]
  | runFf => rfl
  | runEnd e =>
    have he : e ≠ 0xFF := by simpa [Instr.wellFormed] using hw
    show Except.ok (if e = 0xFF then Instr.runFf else .runEnd e, rest) = _
    rw [if_neg he]
  | offset16 lo hi => rfl
  | literals bytes => exact decode_literals bytes rest
  | blkCompressed size =>
    have hsize : size ≠ 0 := by simpa [Instr.wellFormed] using hw
    exact (decode_blockHeader _ rest).trans (by rw [decodeBlockHeader_append, if_neg hsize]; rfl)
  | blkUncompressed size => exact (decode_blockHeader _ rest).trans (by rw [decodeBlockHeader_append]; rfl)
  | blkEndmark => rfl
  | frameHeader bd hc => exact decode_frameHeader hw hc rest
  | rawFooter => rfl

/-! ## What the decoder answers is encoded as the bytes it read -/

/-- `i` is well-formed, stands at the place `p`, fits the bytes `rest` after it, and is encoded as `bs`. -/
structure Instr.StandsFor (i : Instr) (p : Pos) (bs rest : List Byte) : Prop where
  wellFormed : i.wellFormed = true
  fits : i.fits rest = true
  pos : i.pos = p
  bytes : encode i = bs

/-- A command word (30_encoding.md R94). -/
theorem decodeCommand_standsFor (w : Word) (rest : List Byte) :
    (decodeCommand w).StandsFor .command (wordBytes w) rest := by
  have hw := word_split w
  rw [← hw, decodeCommand_append]
  generalize w.extractLsb' 4 28 = g, w.extractLsb' 0 4 = op
  split
  · next h => exact ⟨rfl, rfl, rfl, by rw [h]; rfl⟩
  · next h1 =>
    split
    · next h => exact ⟨rfl, rfl, rfl, by rw [h]; rfl⟩
    · next h2 => exact ⟨reservedCmd_wellFormed_iff.2 ⟨h1, h2⟩, rfl, rfl, rfl⟩

/-- A token (30_encoding.md R81, R88). -/
theorem decodeToken_standsFor (t : Byte) (rest : List Byte) :
    (decodeToken t rest).StandsFor .token [t] rest := by
  rw [← token_split t, decodeToken_append]
  split
  · next h =>
    obtain ⟨hmn, hend⟩ := h
    exact ⟨rfl, hend, rfl, by rw [hmn]; rfl⟩
  · next h => exact ⟨rfl, seq_fits_iff.2 h, rfl, rfl⟩

/-- A byte of a run (30_encoding.md R83). -/
theorem decodeRun_standsFor (b : Byte) (rest : List Byte) :
    (if b = 0xFF then Instr.runFf else .runEnd b).StandsFor .run [b] rest := by
  split
  · next h => exact ⟨rfl, rfl, rfl, by rw [h]; rfl⟩
  · next h => exact ⟨by simpa [Instr.wellFormed] using h, rfl, rfl, rfl⟩

/-- A block header word (30_encoding.md R90). -/
theorem decodeBlockHeader_standsFor (h : Word) (rest : List Byte) :
    (decodeBlockHeader h).StandsFor .blockHeader (wordBytes h) rest := by
  have hh := header_split h
  rw [← hh, decodeBlockHeader_append]
  generalize h.extractLsb' 31 1 = b, h.extractLsb' 0 31 = size
  split
  · next hb =>
    split
    · next hs => exact ⟨rfl, rfl, rfl, by rw [hb, hs]; rfl⟩
    · next hs => exact ⟨by simpa [Instr.wellFormed] using hs, rfl, rfl, by rw [hb]; rfl⟩
  · next hb =>
    have hb1 : b = 1 := by bv_omega
    exact ⟨rfl, rfl, rfl, by rw [hb1]; rfl⟩

/-- What the decoder accepts at a place, by the place. -/
theorem decode_standsFor {p : Pos} {bs rest : List Byte} {i : Instr} (h : decode p bs = .ok (i, rest)) :
    ∃ read, bs = read ++ rest ∧ i.StandsFor p read rest := by
  unfold decode at h
  split at h
  · next b0 b1 b2 b3 r =>
    cases h
    exact ⟨[b0, b1, b2, b3], rfl, wordBytes_le32 b0 b1 b2 b3 ▸ decodeCommand_standsFor _ rest⟩
  · cases h
  · next t r =>
    cases h
    exact ⟨[t], rfl, decodeToken_standsFor t rest⟩
  · cases h
  · next b r =>
    cases h
    exact ⟨[b], rfl, decodeRun_standsFor b rest⟩
  · cases h
  · next lo hi r =>
    cases h
    exact ⟨[lo, hi], rfl, rfl, rfl, rfl, rfl⟩
  · cases h
  · next n =>
    split at h
    · cases h
    · cases h
      exact ⟨bs.take n, (List.take_append_drop n bs).symm, rfl, rfl,
        congrArg Pos.literals (List.length_take_of_le (by omega)), rfl⟩
  · next b0 b1 b2 b3 r =>
    cases h
    exact ⟨[b0, b1, b2, b3], rfl, wordBytes_le32 b0 b1 b2 b3 ▸ decodeBlockHeader_standsFor _ rest⟩
  · cases h
  · next m0 m1 m2 m3 flg bd hc r =>
    split at h
    · next hm =>
      obtain ⟨rfl, rfl, rfl, rfl⟩ := hm
      split at h
      · next hflg =>
        subst hflg
        split at h
        · next hbd =>
          cases h
          exact ⟨_, rfl, hbd, rfl, rfl, rfl⟩
        · cases h
      · cases h
    · cases h
  · cases h
  · next b0 b1 r =>
    split at h
    · next hz =>
      obtain ⟨rfl, rfl⟩ := hz
      cases h
      exact ⟨[0, 0], rfl, rfl, rfl, rfl, rfl⟩
    · cases h
  · cases h

/-- Settles O2, by the place. -/
theorem encodeDecodeRoundTrip : Obligations.EncodeDecodeRoundTrip := by
  unfold Obligations.EncodeDecodeRoundTrip
  intro p bs rest i h
  obtain ⟨read, rfl, hw, hf, hp, rfl⟩ := decode_standsFor h
  exact ⟨hw, hf, hp, rfl⟩

/-- Settles O4: the decoder evaluates on each word. -/
theorem specWordsDecode : Obligations.SpecWordsDecode :=
  ⟨rfl, rfl, rfl, rfl, rfl, rfl, rfl, rfl, rfl, rfl, rfl, rfl, rfl, rfl⟩

end Sys2Proof
end

section
/-! The command word (30_encoding.md R94): a command does not see the word that started it, only its OP. -/

namespace Sys2Proof.Machine

section

variable (s : State) (ld ld' : Desc) (st : Stage)

@[simp] theorem State.setStage_par : (s.setStage ld' st).par = s.par := rfl

theorem finishCompress_setStage (tokens : Nat) (res : EncResult) :
    finishCompress ld tokens res (s.setStage ld' st) = finishCompress ld tokens res s := by
  cases res <;> rfl

theorem endDecode_setStage (r : DecResult) : endDecode ld r (s.setStage ld' st) = endDecode ld r s := by
  cases r <;> rfl

theorem withWindow_setStage {k k' : List Byte → State} (h : ∀ wd, k wd = k' wd) :
    withWindow ld (s.setStage ld' st) k = withWindow ld s k' := funext h ▸ rfl

theorem withPayload_setStage {k k' : List Byte → List Byte → State}
    (h : ∀ payload hist, k payload hist = k' payload hist) :
    withPayload ld (s.setStage ld' st) k = withPayload ld s k' := funext₂ h ▸ rfl

theorem runCompress_setStage : runCompress ld (s.setStage ld' st) = runCompress ld s := by
  refine withWindow_setStage s ld ld' st fun wd => ?_
  rw [State.setStage_par]
  cases s.par.grain with
  | command => exact finishCompress_setStage s ld ld' st _ _
  | element => rfl

theorem runDecompress_setStage : runDecompress ld (s.setStage ld' st) = runDecompress ld s := by
  refine withPayload_setStage s ld ld' st fun payload hist => ?_
  rw [State.setStage_par]
  cases s.par.grain with
  | command => exact endDecode_setStage s ld ld' st _
  | element => rfl

/-- What the engine runs for a command word does not depend on the stage it is started from. -/
theorem runWord_setStage (w : Word) : runWord w ld (s.setStage ld' st) = runWord w ld s := by
  unfold runWord
  split
  · exact runCompress_setStage s ld ld' st
  · split
    · exact runDecompress_setStage s ld ld' st
    · rfl

end

section

variable {w v : Word} (h : wordOp w = wordOp v)
include h

theorem runWord_congr : runWord w = runWord v := by
  unfold runWord
  rw [h]

/-- Words of one OP start commands that differ in the word kept alone (40_commands.md R120). -/
theorem startCommand_eq_setStage (s : State) :
    s.startCommand w = (s.startCommand v).setStage (latch s.eng) (.pending w) := by
  unfold State.startCommand
  rw [h]
  rfl

theorem exec_decodeCommand_congr {s : State} (hp : s.eng.phase = .idle) :
    exec (decodeCommand w) s = exec (decodeCommand v) s := by
  have hw : s.Runs w (latch s.eng) (s.startCommand w) := .inl ⟨hp, rfl, rfl⟩
  have hv : s.Runs v (latch s.eng) (s.startCommand v) := .inl ⟨hp, rfl, rfl⟩
  rw [hw.exec_eq, hv.exec_eq, runWord_congr h, startCommand_eq_setStage h, runWord_setStage]

end

/-- Settles O3: a command word is split into OP and the bits ignored, and a command sees the OP alone. -/
theorem commandWordSelectsCommand : Obligations.CommandWordSelectsCommand := by
  unfold Obligations.CommandWordSelectsCommand
  intro w v
  refine ⟨fun h => ⟨w.extractLsb' 4 28, ?_⟩, fun h => ⟨w.extractLsb' 4 28, ?_⟩,
    fun h1 h2 => ⟨w.extractLsb' 4 28, ?_⟩, fun h s hp => exec_decodeCommand_congr h hp⟩
  · exact if_pos h
  · have h1 : w.extractLsb' 0 4 ≠ 1 := by rw [h]; decide
    exact (if_neg h1).trans (if_pos h)
  · exact (if_neg h1).trans (if_neg h2)

end Sys2Proof.Machine
end

section
/-! Run byte strings (30_encoding.md R83), and the token and run of a long field (R82, R84). -/

namespace Sys2Proof

theorem assemble_append (is js : List Instr) : assemble (is ++ js) = assemble is ++ assemble js :=
  List.flatMap_append

namespace Machine

/-- The bytes of the run of `m` (30_encoding.md R83). -/
theorem assemble_emitRun (m : Nat) :
    assemble (emitRun m) = List.replicate (m / 255) 0xFF ++ [BitVec.ofNat 8 (m % 255)] := by
  simp [emitRun, assemble, List.flatMap_replicate, encode]

theorem assemble_emitRun_length (m : Nat) : (assemble (emitRun m)).length = 1 + m / 255 := by
  rw [assemble_emitRun, List.length_append, List.length_replicate, Nat.add_comm]
  rfl

theorem runRemainder_toNat (m : Nat) : (BitVec.ofNat 8 (m % 255)).toNat = m % 255 :=
  Nat.mod_eq_of_lt (by omega)

/-- The end byte of an emitted run does end it (30_encoding.md R83). -/
theorem runRemainder_ne (m : Nat) : BitVec.ofNat 8 (m % 255) ≠ 0xFF := by
  intro h
  have hmod : m % 255 = 255 := (runRemainder_toNat m).symm.trans (congrArg BitVec.toNat h)
  omega

theorem readRun_assemble_emitRun (m : Nat) (rest : List Byte) :
    readRun (assemble (emitRun m) ++ rest) = some (m, rest) := by
  rw [assemble_emitRun, List.append_assoc, List.singleton_append, readRun_replicate _ _ _ (runRemainder_ne m),
    runRemainder_toNat, Nat.div_add_mod]

/-- A field of 15 or more has nibble 15 and a run (30_encoding.md R82, R84). -/
theorem nibble_of_ge {v : Nat} (h : 15 ≤ v) : nibble v = 15 := by
  unfold nibble
  rw [Nat.min_eq_right h]
  rfl

theorem emitRunOf_of_ge {v : Nat} (h : 15 ≤ v) : emitRunOf v = emitRun (v - 15) := if_pos h

theorem assemble_emitLast_of_ge {v : Nat} (h : 15 ≤ v) (lits : List Byte) :
    assemble (emitLast v lits) = [0xF0] ++ assemble (emitRun (v - 15)) ++ lits := by
  unfold emitLast
  rw [nibble_of_ge h, emitRunOf_of_ge h, assemble_append, assemble_append]
  congr 1
  exact List.append_nil lits

theorem assemble_emitMatch_of_ge {v : Nat} (o : Nat) (h : 15 ≤ v) :
    assemble (emitMatch o (v + 4)) =
      [0x0F, BitVec.ofNat 8 (o % 256), BitVec.ofNat 8 (o / 256)] ++ assemble (emitRun (v - 15)) := by
  unfold emitMatch emitSeq
  rw [Nat.add_sub_cancel, nibble_of_ge h, emitRunOf_of_ge h, assemble_append]
  rfl

/-- Settles O5: the run of `m` is `m / 255` bytes 0xFF and the byte `m % 255`, and everything follows from that. -/
theorem runEncoding : Obligations.RunEncoding := by
  unfold Obligations.RunEncoding
  refine ⟨readRun_replicate, assemble_emitRun, readRun_assemble_emitRun, fun v blk h => ?_, fun o v h => ?_,
    fun v h => ?_, fun v => rfl⟩
  · exact assemble_emitLast_of_ge h (blk.take v)
  · exact assemble_emitMatch_of_ge o h
  · have hv : ¬ v < 15 := by omega
    exact (assemble_emitRun_length (v - 15)).trans (if_neg hv).symm

end Machine

end Sys2Proof
end

section
/-! The three ways a command word goes on: its descriptor is bad, it ends, or it is cut and goes on (40_commands.md
R121 to R125, R128; log 6). -/

namespace Sys2Proof.Machine

/-! ## The checks a command begins with -/

section

variable {ld : Desc} {s : State}

theorem withWindow_bad {d : Detail} (k : List Byte → State) (hc : checkCompress s.par ld = some d) :
    withWindow ld s k = .next (s.badCommand d) := by
  unfold withWindow
  rw [hc]

theorem withWindow_good (k : List Byte → State) (hc : checkCompress s.par ld = none)
    (hb : bufferRefusal s.par ld.compressWindow ld.compressOut = none) :
    withWindow ld s k = .next (k (s.mem.readRange ld.win (ld.P + ld.L))) := by
  unfold withWindow
  rw [hc, hb]

theorem withPayload_bad {d : Detail} (k : List Byte → List Byte → State) (hc : checkDecompress s.par ld = some d) :
    withPayload ld s k = .next (s.badCommand d) := by
  unfold withPayload
  rw [hc]

theorem withPayload_good (k : List Byte → List Byte → State) (hc : checkDecompress s.par ld = none)
    (hb : bufferRefusal s.par ld.payload ld.decompressWindow = none) :
    withPayload ld s k = .next (k (s.mem.readRange ld.inp ld.n) (s.mem.readRange ld.win ld.P)) := by
  unfold withPayload
  rw [hc, hb]

end

/-- The first failing check of a compress descriptor, with the limits by number (40_commands.md R124). -/
theorem checkCompress_of_bad {p : Params} {ld : Desc} (hl : p.Legal)
    (h : 65536 < ld.P ∨ 4194304 < ld.L ∨ 2 ^ p.addrW < ld.win + ld.P + ld.L ∨ 2 ^ p.addrW < ld.out + ld.L) :
    checkCompress p ld = some
      (if 65536 < ld.P then .prefixTooLong else if 4194304 < ld.L then .lengthTooLong else .bufferWraps) := by
  obtain ⟨-, -, -, -, -, -, hblock, hprefix, -⟩ := hl
  unfold checkCompress memSize
  rw [hblock, hprefix]
  split
  · rfl
  · next hP =>
    split
    · rfl
    · next hL => rw [if_pos ((h.resolve_left hP).resolve_left hL)]

/-- The first failing check of a decompress descriptor, with the limits by number (40_commands.md R125). -/
theorem checkDecompress_of_bad {p : Params} {ld : Desc} (hl : p.Legal)
    (h : 65536 < ld.P ∨ 4194304 < ld.cap ∨ 4194304 < ld.n ∨ 2 ^ p.addrW < ld.inp + ld.n ∨
      2 ^ p.addrW < ld.win + ld.P + ld.cap) :
    checkDecompress p ld = some
      (if 65536 < ld.P then .prefixTooLong
        else if 4194304 < ld.cap ∨ 4194304 < ld.n then .lengthTooLong else .bufferWraps) := by
  obtain ⟨-, -, -, -, -, -, hblock, hprefix, -⟩ := hl
  unfold checkDecompress memSize
  rw [hblock, hprefix]
  split
  · rfl
  · next hP =>
    split
    · rfl
    · next hlen => rw [if_pos ((or_assoc.2 (h.resolve_left hP)).resolve_left hlen)]

/-! ## How a command word goes on -/

/-- `t` is `s` after the completion step with some ending, with nothing but memory and the draws changed before. -/
def Ended (s t : State) : Prop := ∃ u e, SameOutside s u ∧ u.eng = s.eng ∧ t = u.endCommand e

theorem badCommand_ended (d : Detail) (s : State) : Ended s (s.badCommand d) := ⟨s, _, .refl s, rfl, rfl⟩

theorem finishCompress_ended (ld : Desc) (tokens : Nat) (res : EncResult) (s : State) :
    Ended s (finishCompress ld tokens res s) := by
  cases res with
  | internal => exact ⟨s.scramble ld.compressOut, _, .refl s, rfl, rfl⟩
  | incompressible => exact ⟨s.scramble ld.compressOut, _, .refl s, rfl, rfl⟩
  | payload bytes => exact ⟨s.write ld.out bytes, _, .refl s, rfl, rfl⟩

theorem endDecode_ended (ld : Desc) (r : DecResult) (s : State) : Ended s (endDecode ld r s) := by
  cases r with
  | ok win =>
    exact ⟨(s.write (ld.win + ld.P) (win.drop ld.P)).scramble
      ⟨ld.win + ld.P + (win.drop ld.P).length, ld.cap - (win.drop ld.P).length⟩, _, .refl s, rfl, rfl⟩
  | fail d pos => exact ⟨s.scramble ld.decompressOut, _, .refl s, rfl, rfl⟩

/-- A command word ends its command, or, where the command is cut (log 6), goes on to another stage. -/
theorem runWord_cases {w : Word} {ld : Desc} {s t : State} (h : runWord w ld s = .next t) :
    Ended s t ∨ (s.par.grain = .element ∧ ∃ st, t = s.setStage ld st) := by
  unfold runWord at h
  split at h
  · rcases withWindow_next h with ⟨d, -, rfl⟩ | ⟨-, -, rfl⟩
    · exact .inl (badCommand_ended d s)
    · split
      · exact .inl (finishCompress_ended ..)
      · next hg => exact .inr ⟨hg, _, rfl⟩
  · split at h
    · rcases withPayload_next h with ⟨d, -, rfl⟩ | ⟨-, -, rfl⟩
      · exact .inl (badCommand_ended d s)
      · split
        · exact .inl (endDecode_ended ..)
        · next hg => exact .inr ⟨hg, _, rfl⟩
    · cases h
      exact .inl (badCommand_ended _ s)

section

variable {s t : State} (h : Ended s t)
include h

theorem Ended.idle : t.eng.phase = .idle ∧ t.eng.done = true := by
  obtain ⟨u, e, -, -, rfl⟩ := h
  exact ⟨rfl, rfl⟩

theorem Ended.busy : t.busy = false := State.busy_eq_false_iff.2 h.idle.1

theorem Ended.frame : SameDescriptor s t ∧ t.eng.cmdOp = s.eng.cmdOp ∧ SameOutside s t := by
  obtain ⟨u, e, hout, heng, rfl⟩ := h
  unfold SameDescriptor latch
  rw [State.endCommand_eng, heng]
  exact ⟨rfl, rfl, hout⟩

end

/-- The CMD write changes neither the descriptor registers nor the results of the last command, and of the host
only the hands-off record (40_commands.md R120; log 33). -/
theorem State.Runs.frame {s u : State} {w : Word} {ld : Desc} (h : s.Runs w ld u) :
    SameDescriptor s u ∧ (s.eng.phase = .idle → u.eng.cmdOp = wordOp w) ∧ u.host.acts = s.host.acts ∧
      u.host.rdata = s.host.rdata ∧ u.host.frame = s.host.frame ∧ u.eng.tokens = s.eng.tokens ∧
      u.eng.outLen = s.eng.outLen ∧ u.eng.errPos = s.eng.errPos := by
  obtain ⟨-, -, rfl⟩ | ⟨hp, rfl⟩ := h
  · exact ⟨rfl, fun _ => rfl, rfl, rfl, rfl, rfl, rfl, rfl⟩
  · exact ⟨rfl, fun hi => by simp [hi] at hp, rfl, rfl, rfl, rfl, rfl, rfl⟩

/-- Settles O22: the CMD write, and then either way a command word goes on, leaves the frame alone. -/
theorem commandFrame : Obligations.CommandFrame := by
  unfold Obligations.CommandFrame
  intro s u t w ld hrun hexec
  rw [hrun.exec_eq] at hexec
  obtain ⟨hdesc, hop, hacts, hrdata, hframe, htokens, hlen, herr⟩ := hrun.frame
  obtain ⟨-, hmem, -⟩ := hrun.same
  rcases runWord_cases hexec with hend | ⟨-, st, rfl⟩
  · obtain ⟨hdesc', hop', hpar, hin, hhost⟩ := hend.frame
    rw [← hhost] at hacts hrdata hframe
    exact ⟨hdesc'.trans hdesc, fun hi => hop'.trans (hop hi), fun hu => hu ▸ hop', ⟨hpar, hin, hhost⟩, hacts, hrdata,
      hframe, fun hb => by simp [hend.busy] at hb⟩
  · exact ⟨hdesc, hop, fun hu => hu ▸ rfl, .refl u, hacts, hrdata, hframe, fun _ => ⟨hmem, htokens, hlen, herr⟩⟩

end Sys2Proof.Machine
end

section
/-! The endings of the commands run as one step (40_commands.md R121 to R125, R129). -/

namespace Sys2Proof.Machine

/-- What `raise Status(BAD_COMMAND, detail, 0)` leaves (40_commands.md R123 to R125): OUT_LEN and TOKENS are open. -/
theorem badCommand_left (s : State) (d : Detail) :
    (s.badCommand d).eng =
      { s.eng with
        phase := .idle, done := true, code := .badCommand, detail := d, errPos := 0
        outLen := (s.badCommand d).eng.outLen, tokens := (s.badCommand d).eng.tokens } ∧
    (s.badCommand d).mem = s.mem ∧ SameOutside s (s.badCommand d) := ⟨rfl, rfl, .refl s⟩

/-- Settles O14: the command is `raise Status(BAD_COMMAND, RESERVED_OP, 0)` and nothing else. -/
theorem reservedCommandEnds : Obligations.ReservedCommandEnds := by
  unfold Obligations.ReservedCommandEnds
  intro s u ld op ignored _ _ hrun
  obtain ⟨-, hmem, -⟩ := hrun.same
  obtain ⟨heng, hmem', hout⟩ := badCommand_left u .reservedOp
  refine ⟨u.badCommand .reservedOp, hrun.runCommand_eq fun _ v => .next (v.badCommand .reservedOp), heng, ?_,
    hmem'.trans hmem, hout⟩
  exact (statusWord_endCommand u _).trans (by decide)

/-- Settles O15, by the first failing check of `check_compress`. -/
theorem compressBadDescriptor : Obligations.CompressBadDescriptor := by
  unfold Obligations.CompressBadDescriptor
  intro s u ld ignored hl hrun hbad
  obtain ⟨hpar, hmem, -⟩ := hrun.same
  rw [← hpar] at hl hbad
  obtain ⟨heng, hmem', hout⟩ := badCommand_left u _
  have hexec : exec (.compressBlock ignored) s = runCompress ld u := hrun.runCommand_eq runCompress
  exact ⟨_, hexec.trans (withWindow_bad _ (checkCompress_of_bad hl hbad)), heng, hmem'.trans hmem, hout⟩

/-- Settles O16, by the first failing check of `check_decompress`. -/
theorem decompressBadDescriptor : Obligations.DecompressBadDescriptor := by
  unfold Obligations.DecompressBadDescriptor
  intro s u ld ignored hl hrun hbad
  obtain ⟨hpar, hmem, -⟩ := hrun.same
  rw [← hpar] at hl hbad
  obtain ⟨heng, hmem', hout⟩ := badCommand_left u _
  have hexec : exec (.decompressBlock ignored) s = runDecompress ld u := hrun.runCommand_eq runDecompress
  exact ⟨_, hexec.trans (withPayload_bad _ (checkDecompress_of_bad hl hbad)), heng, hmem'.trans hmem, hout⟩

section

variable {s : State} {ld : Desc}

/-- COMPRESS_BLOCK on a good descriptor and buffers, as one step (40_commands.md R121, R129). -/
theorem runCompress_command (hg : s.par.grain = .command) (hc : checkCompress s.par ld = none)
    (hb : bufferRefusal s.par ld.compressWindow ld.compressOut = none) :
    runCompress ld s = .next (finishCompress ld
      (compressWindow s.par ld (s.mem.readRange ld.win (ld.P + ld.L))).1
      (compressWindow s.par ld (s.mem.readRange ld.win (ld.P + ld.L))).2 s) := by
  unfold runCompress
  rw [withWindow_good _ hc hb, hg]

/-- COMPRESS_BLOCK on a good descriptor and buffers, cut into stages: the match-finder has run (log 6). -/
theorem runCompress_element (hg : s.par.grain = .element) (hc : checkCompress s.par ld = none)
    (hb : bufferRefusal s.par ld.compressWindow ld.compressOut = none) :
    runCompress ld s = .next (s.setStage ld
      (.found (matchScratch s.par (s.mem.readRange ld.win (ld.P + ld.L)) ld.P))) := by
  unfold runCompress
  rw [withWindow_good _ hc hb, hg]

/-- DECOMPRESS_BLOCK on a good descriptor and buffers, as one step (40_commands.md R122, R129). -/
theorem runDecompress_command (hg : s.par.grain = .command) (hc : checkDecompress s.par ld = none)
    (hb : bufferRefusal s.par ld.payload ld.decompressWindow = none) :
    runDecompress ld s = .next
      (endDecode ld (decodeBlock (s.mem.readRange ld.inp ld.n) (s.mem.readRange ld.win ld.P) ld.cap) s) := by
  unfold runDecompress
  rw [withPayload_good _ hc hb, hg]

/-- DECOMPRESS_BLOCK on a good descriptor and buffers, cut into elements: the first token is next (log 6). -/
theorem runDecompress_element (hg : s.par.grain = .element) (hc : checkDecompress s.par ld = none)
    (hb : bufferRefusal s.par ld.payload ld.decompressWindow = none) :
    runDecompress ld s = .next (s.setDec ld ⟨0, .token, s.mem.readRange ld.win ld.P⟩) := by
  unfold runDecompress
  rw [withPayload_good _ hc hb, hg]
  rfl

end

/-- CODE by the encoder's result (40_commands.md R121). -/
def EncResult.code : EncResult → StatusCode
  | .payload _ => .ok
  | .incompressible => .incompressible
  | .internal => .compressionInternal

/-- The engine a compress command leaves: OUT_LEN is open (40_commands.md R121, R128). -/
theorem finishCompress_eng (ld : Desc) (tokens : Nat) (res : EncResult) (s : State) :
    (finishCompress ld tokens res s).eng =
      { s.eng with
        phase := .idle, done := true, code := res.code, detail := .none, errPos := 0
        tokens := BitVec.ofNat 32 tokens, outLen := (finishCompress ld tokens res s).eng.outLen } := by
  cases res <;> rfl

theorem finishCompress_sameOutside (ld : Desc) (tokens : Nat) (res : EncResult) (s : State) :
    SameOutside s (finishCompress ld tokens res s) := by
  obtain ⟨-, -, hout⟩ := (finishCompress_ended ld tokens res s).frame
  exact hout

/-- Settles O17: the ending is `finishCompress` of the three stages' result. -/
theorem compressCompletes : Obligations.CompressCompletes := by
  unfold Obligations.CompressCompletes
  intro s u ld ignored wd cmds res hrun hg hc hb hwd hcmds hres
  obtain ⟨hpar, hmem, hdraws⟩ := hrun.same
  rw [← hpar] at hg hc hb hcmds hres
  rw [← hmem] at hwd
  have hexec : exec (.compressBlock ignored) s = .next (finishCompress ld cmds.length res u) := by
    rw [hres, hcmds, hwd]
    exact (hrun.runCommand_eq runCompress).trans (runCompress_command hg hc hb)
  have heng := finishCompress_eng ld cmds.length res u
  have hout := finishCompress_sameOutside ld cmds.length res u
  have hleft := finishCompress_mem ld cmds.length res u
  unfold SameMemOutside at hleft ⊢
  rw [hmem, hdraws] at hleft
  refine ⟨_, hexec, hout, ?_⟩
  cases res with
  | payload bytes => exact ⟨heng, rfl, hleft⟩
  | incompressible => exact ⟨heng, hleft⟩
  | internal => exact ⟨heng, hleft⟩

/-- Settles O18: the ending is `endDecode` of the datapath's result, which keeps to the capacity. -/
theorem decompressCompletes : Obligations.DecompressCompletes := by
  unfold Obligations.DecompressCompletes
  intro s u ld ignored payload hist hrun hg hc hb hpayload hhist
  obtain ⟨hpar, hmem, -⟩ := hrun.same
  rw [← hpar] at hg hc hb
  rw [← hmem] at hpayload hhist
  have hexec : exec (.decompressBlock ignored) s = .next (endDecode ld (decodeBlock payload hist ld.cap) u) := by
    rw [hpayload, hhist]
    exact (hrun.runCommand_eq runDecompress).trans (runDecompress_command hg hc hb)
  have hlen : hist.length = ld.P := hhist ▸ Memory.readRange_length _ _ _
  have hcases := decodeBlock_cases payload hist ld.cap
  refine ⟨_, hexec, ?_⟩
  cases hd : decodeBlock payload hist ld.cap with
  | ok win =>
    rw [hd] at hcases
    obtain ⟨out, rfl, hcap⟩ := hcases
    exact finishDecode_decoded u (by rw [List.length_append]; omega) (by rw [List.length_append]; omega)
  | fail d pos => exact failDecode_failed ld d pos u

end Sys2Proof.Machine
end

section
/-! The host's 32-bit accesses to the registers, offset by offset (40_commands.md R120, R126, R127). -/

namespace Sys2Proof.Machine

section

variable {s : State} {off : Nat} (hl : s.par.Legal) (hlt : off < 256) (ha : off % 4 = 0)
include hl hlt ha

/-- A word of the register file is inside memory, and its offset is that of a register. -/
theorem word_inRegisterFile : s.par.ifaceBase + off + 4 ≤ memSize s.par ∧
    meets ⟨s.par.ifaceBase + off, 4⟩ (registerFile s.par) = true ∧
    regOffset s.par (s.par.ifaceBase + off) 4 = some off := by
  obtain ⟨halign, htop⟩ := legal_registerFile hl
  have hm : meets ⟨s.par.ifaceBase + off, 4⟩ (registerFile s.par) = true := by rw [meets_registerFile]; omega
  refine ⟨by omega, hm, ?_⟩
  rw [regOffset_of_word hl (by omega) hm, Nat.add_sub_cancel_left]

theorem hostStore_word (v : Word) :
    hostStore (s.par.ifaceBase + off) (wordBytes v) s = .next (s.regWrite (regAt off) v) := by
  obtain ⟨hin, hm, hoff⟩ := word_inRegisterFile hl hlt ha
  rw [hostStore_registerFile hin hm (wordBytes_length v), hoff, wordOf_wordBytes]
  rfl

theorem hostLoad_word : hostLoad (s.par.ifaceBase + off) 4 s = .next (s.regRead (regAt off)) := by
  obtain ⟨hin, hm, hoff⟩ := word_inRegisterFile hl hlt ha
  rw [hostLoad_registerFile hin hm, hoff]
  rfl

end

theorem regWrite_busy {s : State} (hb : s.busy = true) (r : Reg) (v : Word) : s.regWrite r v = s := if_pos hb

/-- What a read of a register returns to the host. -/
theorem regRead_rdata (s : State) (r : Reg) : (s.regRead r).host.rdata = wordBytes (s.regValue r) := by
  unfold State.regRead
  dsimp only
  split <;> rfl

/-- The offsets that hold a register (10_state.md R22). -/
def regOffsets : List Nat := [0x00, 0x04, 0x08, 0x0C, 0x10, 0x14, 0x18, 0x1C, 0x20, 0x24, 0x28, 0x2C]

theorem mem_regOffsets {off : Nat} : off ∈ regOffsets ↔
    off = 0x00 ∨ off = 0x04 ∨ off = 0x08 ∨ off = 0x0C ∨ off = 0x10 ∨ off = 0x14 ∨ off = 0x18 ∨ off = 0x1C ∨
      off = 0x20 ∨ off = 0x24 ∨ off = 0x28 ∨ off = 0x2C := by
  simp [regOffsets]

theorem regAt_reserved {off : Nat} (h : off ∉ regOffsets) : regAt off = .reserved := by
  simp only [mem_regOffsets, not_or] at h
  simp [regAt, h]

/-- Settles O10, offset by offset. -/
theorem registerWrite : Obligations.RegisterWrite := by
  unfold Obligations.RegisterWrite
  intro s off v hl hlt ha
  rw [hostStore_word hl hlt ha]
  refine ⟨fun hb => congrArg _ (regWrite_busy hb _ _), fun hb => congrArg _ ?_⟩
  unfold State.regWrite
  rw [if_neg (by simp [hb])]
  by_cases hoff : off ∈ regOffsets
  · rcases mem_regOffsets.1 hoff with
      rfl | rfl | rfl | rfl | rfl | rfl | rfl | rfl | rfl | rfl | rfl | rfl
    all_goals rfl
  · have hres := regAt_reserved hoff
    simp only [mem_regOffsets, not_or] at hoff
    simp [hres, hoff]

/-- The PARAM word by number (10_state.md R34). -/
theorem paramWord_eq (p : Params) :
    paramWord p = BitVec.ofNat 32 (p.minMatch % 256 + 256 * (p.lastLiterals % 256)) := by
  have hmin := Nat.mod_lt p.minMatch (show 256 > 0 by decide)
  have hlast := Nat.mod_lt p.lastLiterals (show 256 > 0 by decide)
  apply BitVec.eq_of_toNat_eq
  unfold paramWord
  rw [BitVec.toNat_append, BitVec.toNat_append, ← Nat.shiftLeft_add_eq_or_of_lt (BitVec.isLt _)]
  simp only [BitVec.toNat_ofNat, Nat.shiftLeft_eq, Nat.zero_mod, Nat.zero_mul, Nat.zero_or]
  omega

/-- Settles O11: a load changes only the host's record, and the word read is the register at the offset. -/
theorem registerRead : Obligations.RegisterRead := by
  unfold Obligations.RegisterRead
  intro s off hl hlt ha
  have hload := hostLoad_word hl hlt ha
  obtain ⟨hpar, heng, hmem, hin, hacts, hframe, -⟩ := hostLoad_next hload
  refine ⟨_, hload, heng, hmem, hpar, hin, hacts, hframe, (regRead_rdata s _).trans (congrArg wordBytes ?_)⟩
  rw [← paramWord_eq]
  by_cases hoff : off ∈ regOffsets
  · rcases mem_regOffsets.1 hoff with
      rfl | rfl | rfl | rfl | rfl | rfl | rfl | rfl | rfl | rfl | rfl | rfl
    all_goals rfl
  · have hres := regAt_reserved hoff
    simp only [mem_regOffsets, not_or] at hoff
    simp [hres, hoff, State.regValue]

/-- Settles O9: the CMD write starts the command, and the engine's next turn runs it. -/
theorem cmdWriteStartsCommand : Obligations.CmdWriteStartsCommand := by
  unfold Obligations.CmdWriteStartsCommand
  intro s v hl
  obtain ⟨hcompress, hdecompress, hreserved, -⟩ := commandWordSelectsCommand v v
  refine ⟨hcompress, hdecompress, hreserved, fun hidle => ?_, fun hb => ?_⟩
  · have hp : (s.startCommand v).eng.phase = .busy (latch s.eng) (.pending v) := rfl
    refine ⟨s.startCommand v, hostStore_cmd hl (State.busy_eq_false_iff.2 hidle) v, rfl, rfl,
      statusWord_of_clear rfl rfl rfl, rfl, rfl, rfl, rfl, rfl, agentStep_pending hp, fun hg t ht => ?_⟩
    rw [engine_pending hp] at ht
    rcases runWord_cases ht with hend | ⟨helem, -⟩
    · exact hend.idle
    · exact absurd (hg.symm.trans helem) (by decide)
  · have hstore := hostStore_word hl (off := 0) (by decide) rfl v
    rw [Nat.add_zero, regWrite_busy hb] at hstore
    exact hstore

end Sys2Proof.Machine
end

section
/-! Runs of several steps, and the two ways a command is cut (log 6): what both have in common. -/

namespace Sys2Proof.Machine

/-! ## Runs -/

/-- `t` comes after some number of steps from `s`. -/
def Reaches (s t : State) : Prop := ∃ k, run k s = .next t

theorem Reaches.refl (s : State) : Reaches s s := ⟨0, rfl⟩

theorem Reaches.head {s t u : State} (hs : step s = .next t) (h : Reaches t u) : Reaches s u := by
  obtain ⟨k, hk⟩ := h
  exact ⟨k + 1, by simpa only [run, hs] using hk⟩

theorem Reaches.single {s t : State} (hs : step s = .next t) : Reaches s t := .head hs (.refl t)

theorem Reaches.trans {s t u : State} (h : Reaches s t) (h' : Reaches t u) : Reaches s u := by
  obtain ⟨k, hk⟩ := h
  induction k generalizing s with
  | zero =>
    cases hk
    exact h'
  | succ k ih =>
    unfold run at hk
    split at hk
    · next v hv => exact .head hv (ih hk)
    · cases hk
    · cases hk

/-- With no input left a BUSY engine moves (70_reset_and_hazards.md R300; log 5). -/
theorem step_busy {s : State} {ld : Desc} {st : Stage} (hi : s.inputs = []) (hp : s.eng.phase = .busy ld st) :
    step s = agentStep .engine s := by
  have hb : s.busy = true := State.busy_eq_true_iff.2 ⟨ld, st, hp⟩
  unfold step State.defaultAgent
  rw [hi, hb]
  rfl

theorem step_pending {s : State} {ld : Desc} {w : Word} (hi : s.inputs = [])
    (hp : s.eng.phase = .busy ld (.pending w)) : step s = runWord w ld s :=
  (step_busy hi hp).trans (engine_pending hp)

theorem runWord_compress {w : Word} (h : wordOp w = 1) : runWord w = runCompress := if_pos h

theorem runWord_decompress {w : Word} (h : wordOp w = 2) : runWord w = runDecompress := by
  unfold runWord
  rw [h]
  rfl

/-! ## The cut -/

section

variable (s : State) (g g' : Grain)

theorem State.withGrain_self (h : s.par.grain = g) : s.withGrain g = s := by
  subst h
  rfl

theorem badCommand_withGrain (d : Detail) :
    ((s.withGrain g).badCommand d).withGrain g' = (s.withGrain g').badCommand d := rfl

theorem finishCompress_withGrain (ld : Desc) (tokens : Nat) (res : EncResult) :
    (finishCompress ld tokens res (s.withGrain g)).withGrain g' = finishCompress ld tokens res (s.withGrain g') := by
  cases res <;> rfl

theorem endDecode_withGrain (ld : Desc) (r : DecResult) :
    (endDecode ld r (s.withGrain g)).withGrain g' = endDecode ld r (s.withGrain g') := by
  cases r <;> rfl

end

/-! ## Memory -/

/-- What is left of a read after its first `k` bytes. -/
theorem Memory.readRange_drop (m : Memory) (base n k : Nat) :
    (m.readRange base n).drop k = m.readRange (base + k) (n - k) := by
  rcases Nat.le_total k n with h | h
  · obtain ⟨j, rfl⟩ := Nat.exists_eq_add_of_le h
    rw [Memory.readRange_add, Nat.add_sub_cancel_left]
    exact List.drop_left' (Memory.readRange_length m base k)
  · rw [Nat.sub_eq_zero_of_le h, List.drop_eq_nil_of_le (by rwa [Memory.readRange_length])]
    rfl

end Sys2Proof.Machine
end

section
/-! COMPRESS_BLOCK stage by stage (40_commands.md R121, R129; log 6). -/

namespace Sys2Proof.Machine

/-! ## The stages do not depend on the cut -/

section

variable (par : Params) (g : Grain)

theorem rawClosed_grain (cur : List Byte) (o : Nat) (earlier : List (List Byte)) :
    rawClosed { par with grain := g } cur o earlier = rawClosed par cur o earlier := by
  induction earlier generalizing o with
  | nil => rfl
  | cons t ts ih =>
    unfold rawClosed
    rw [ih]

theorem candLists_grain (skip : Nat) (earlier : List (List Byte)) (wd : List Byte) :
    candLists { par with grain := g } skip earlier wd = candLists par skip earlier wd := by
  induction wd generalizing skip earlier with
  | nil => cases skip <;> rfl
  | cons b bs ih =>
    cases skip with
    | zero =>
      unfold candLists
      rw [ih, rawClosed_grain]
      rfl
    | succ skip => exact ih skip _

theorem matchCandidates_grain (wd : List Byte) (p : Nat) :
    matchCandidates { par with grain := g } wd p = matchCandidates par wd p := candLists_grain ..

theorem checkCmds_grain (p l i : Nat) (cmds : List Cmd) :
    checkCmds { par with grain := g } p l i cmds = checkCmds par p l i cmds := by
  induction cmds generalizing i with
  | nil => rfl
  | cons c cs ih =>
    cases c with
    | seq r o k =>
      unfold checkCmds
      rw [ih]
    | last r => cases cs <;> rfl

theorem encodeBlock_grain (p : Nat) (blk : List Byte) (cmds : List Cmd) :
    encodeBlock { par with grain := g } p blk cmds = encodeBlock par p blk cmds := by
  unfold encodeBlock
  rw [checkCmds_grain]

theorem parseBy_grain (cands : List (List Cand)) : parseBy { par with grain := g } cands = parseBy par cands := rfl

/-- The three stages on a window give the same however the command is cut. -/
theorem compressWindow_grain (ld : Desc) (wd : List Byte) :
    compressWindow { par with grain := g } ld wd = compressWindow par ld wd := by
  simp only [compressWindow, matchCandidates_grain, parseBy_grain, encodeBlock_grain]

end

/-! ## The stages one after another -/

/-- The engine at a stage of the running command, where TOKENS holds `tokens`. -/
def State.atStage (s : State) (ld : Desc) (tokens : Word) (st : Stage) : State :=
  (s.setEng { s.eng with tokens := tokens }).setStage ld st

/-- An ending writes TOKENS and the phase, so it does not see what they were. -/
theorem finishCompress_atStage (s : State) (ld ld' : Desc) (tokens : Word) (st : Stage) (n : Nat) (res : EncResult) :
    finishCompress ld n res (s.atStage ld' tokens st) = finishCompress ld n res s := by
  cases res <;> rfl

/-- The token count reaches the ending through TOKENS, a 32-bit register. -/
theorem finishCompress_tokens (s : State) (ld : Desc) (n : Nat) (res : EncResult) :
    finishCompress ld (BitVec.ofNat 32 n).toNat res s = finishCompress ld n res s := by
  have h : BitVec.ofNat 32 (BitVec.ofNat 32 n).toNat = BitVec.ofNat 32 n := by
    rw [BitVec.ofNat_toNat, BitVec.setWidth_eq]
  unfold finishCompress State.finish
  rw [h]

section

variable {s : State} {ld : Desc} {tokens : Word} (hi : s.inputs = [])
include hi

theorem step_atStage (st : Stage) :
    step (s.atStage ld tokens st) = agentStep .engine (s.atStage ld tokens st) :=
  step_busy (s := s.atStage ld tokens st) hi rfl

/-- The emit stage goes on from the sequences left to the encoder's ending (43_block_encoder.md R190). -/
theorem reaches_emit (todo : List Cmd) (ip : Nat) (payload : List Byte) :
    Reaches (s.atStage ld tokens (.emitting ⟨todo, ip, payload⟩))
      (finishCompress ld tokens.toNat (encResult ld.L (payload ++
        assemble (emitCmds todo (s.mem.readRange (ld.win + ip) (ld.P + ld.L - ip))))) s) := by
  induction todo generalizing ip payload with
  | nil =>
    refine .single ((step_atStage hi _).trans ((engine_emitting rfl).trans ?_))
    rw [emitCmds, show assemble [] = [] from rfl, List.append_nil]
    exact congrArg _ (finishCompress_atStage ..)
  | cons c cs ih =>
    refine .head ((step_atStage hi _).trans (engine_emitting rfl)) ?_
    have hrest := ih (ip + c.span)
      (payload ++ assemble (emitCmd c (s.mem.readRange (ld.win + ip) (ld.P + ld.L - ip))))
    rw [emitCmds, assemble_append, Memory.readRange_drop, ← List.append_assoc, Nat.add_assoc, Nat.sub_sub]
    exact hrest

/-- The check and the emit stage give the encoder's ending (43_block_encoder.md R188, R190). -/
theorem reaches_encode (p : ParseScratch) :
    Reaches (s.atStage ld (BitVec.ofNat 32 (tokenCount p.cmds)) (.parsed p))
      (finishCompress ld (tokenCount p.cmds)
        (encodeBlock s.par ld.P (s.mem.readRange (ld.win + ld.P) ld.L) p.cmds) s) := by
  refine .head ((step_atStage hi _).trans (engine_parsed rfl)) ?_
  unfold stageCheck encodeBlock
  rw [Memory.readRange_length, finishCompress_atStage]
  by_cases hc : checkCmds s.par ld.P ld.L 0 p.cmds = true
  · have hemit := reaches_emit (ld := ld) (tokens := BitVec.ofNat 32 (tokenCount p.cmds)) hi p.cmds ld.P []
    rw [Nat.add_sub_cancel_left, List.nil_append, finishCompress_tokens] at hemit
    rw [if_pos hc]
    exact (if_pos hc).symm ▸ hemit
  · rw [if_neg hc]
    exact (if_neg hc).symm ▸ .refl _

/-- The parse stage and what follows give the ending of the whole command (40_commands.md R121). -/
theorem reaches_compressed (wd : List Byte) (hwd : wd = s.mem.readRange ld.win (ld.P + ld.L)) :
    Reaches (s.setStage ld (.found (matchScratch s.par wd ld.P)))
      (finishCompress ld (compressWindow s.par ld wd).1 (compressWindow s.par ld wd).2 s) := by
  refine .head ((step_busy (s := s.setStage ld _) hi rfl).trans (engine_found rfl)) ?_
  have hblk : wd.drop ld.P = s.mem.readRange (ld.win + ld.P) ld.L := by
    rw [hwd, Memory.readRange_drop, Nat.add_sub_cancel_left]
  unfold compressWindow
  rw [hblk]
  exact reaches_encode hi _

end

/-- Settles O31: a bad descriptor ends both runs at once, and on a good one the stages end as the one step does. -/
theorem compressStagesRefineCommand : Obligations.CompressStagesRefineCommand := by
  unfold Obligations.CompressStagesRefineCommand
  intro s t ld w _ hp hw hi hg hstep
  have hself := s.withGrain_self .element hg
  rw [step_pending (s := s.withGrain .command) hi hp, runWord_compress hw] at hstep
  rcases withWindow_next hstep with ⟨d, hd, rfl⟩ | ⟨hc, hb, -⟩
  · rw [badCommand_withGrain, hself]
    refine Reaches.single ?_
    rw [step_pending hi hp, runWord_compress hw]
    exact withWindow_bad _ hd
  · rw [runCompress_command rfl hc hb] at hstep
    cases hstep
    rw [finishCompress_withGrain, hself]
    have helem : step s = .next (s.setStage ld
        (.found (matchScratch s.par (s.mem.readRange ld.win (ld.P + ld.L)) ld.P))) := by
      rw [step_pending hi hp, runWord_compress hw]
      exact runCompress_element hg hc hb
    have hwindow := compressWindow_grain s.par .command ld (s.mem.readRange ld.win (ld.P + ld.L))
    exact hwindow.symm ▸ Reaches.head helem (reaches_compressed hi _ rfl)

end Sys2Proof.Machine
end

section
/-! DECOMPRESS_BLOCK element by element (40_commands.md R122, R129, 44_block_decoder.md R201 to R211; log 6). -/

namespace Sys2Proof.Machine

/-! ## What a length leaves of the bytes it is read from -/

theorem readRun_suffix {bs r : List Byte} {v : Nat} (h : readRun bs = some (v, r)) : r <:+ bs := by
  induction bs generalizing v r with
  | nil => cases h
  | cons b bs ih =>
    unfold readRun at h
    split at h
    · obtain ⟨x, hx, heq⟩ := Option.map_eq_some_iff.1 h
      cases heq
      exact (ih hx).trans (List.suffix_cons b bs)
    · cases h
      exact List.suffix_cons b bs

/-- A length with `n` added to the value of its run leaves what the run leaves. -/
theorem readRun_map_suffix {n len : Nat} {bs r : List Byte}
    (h : ((readRun bs).map fun x => (n + x.1, x.2)) = some (len, r)) : r <:+ bs := by
  obtain ⟨x, hx, heq⟩ := Option.map_eq_some_iff.1 h
  cases heq
  exact readRun_suffix hx

theorem readLitLen_suffix {ln : BitVec 4} {bs r : List Byte} {lit : Nat} (h : readLitLen ln bs = some (lit, r)) :
    r <:+ bs := by
  unfold readLitLen at h
  split at h
  · exact readRun_map_suffix h
  · cases h
    exact List.suffix_refl bs

theorem readMatchLen_suffix {mn : BitVec 4} {bs r : List Byte} {len : Nat} (h : readMatchLen mn bs = some (len, r)) :
    r <:+ bs := by
  unfold readMatchLen at h
  split at h
  · exact readRun_map_suffix h
  · cases h
    exact List.suffix_refl bs

/-! ## One turn of the datapath -/

/-- The bytes `rest` are the end of the payload in memory. -/
def State.PayloadEndsIn (s : State) (ld : Desc) (rest : List Byte) : Prop := rest <:+ s.mem.readRange ld.inp ld.n

/-- The decode datapath with `rest` left of the payload. -/
def State.decodingAt (s : State) (ld : Desc) (rest : List Byte) (p : DecPos) (win : List Byte) : State :=
  s.setDec ld ⟨ld.n - rest.length, p, win⟩

section

variable {s : State} {ld : Desc} {rest : List Byte} (hr : s.PayloadEndsIn ld rest)
include hr

theorem State.PayloadEndsIn.of_suffix {r : List Byte} (h : r <:+ rest) : s.PayloadEndsIn ld r := h.trans hr

theorem State.PayloadEndsIn.length_le : rest.length ≤ ld.n := by
  have hle := List.IsSuffix.length_le hr
  rwa [Memory.readRange_length] at hle

/-- With `rest` left the datapath reads `rest`. -/
theorem State.PayloadEndsIn.read :
    s.mem.readRange (ld.inp + (ld.n - rest.length)) (ld.n - (ld.n - rest.length)) = rest := by
  have hdrop := List.suffix_iff_eq_drop.1 hr
  rw [Memory.readRange_length, Memory.readRange_drop] at hdrop
  exact hdrop.symm

theorem step_decodingAt (hi : s.inputs = []) (p : DecPos) (win : List Byte) :
    step (s.decodingAt ld rest p win) = .next (decoderTurn ld ⟨ld.n - rest.length, p, win⟩ rest s) := by
  have hturn := engine_decoding (s := s.decodingAt ld rest p win) rfl
  rw [step_busy (s := s.decodingAt ld rest p win) hi rfl, hturn]
  refine congrArg Host.Outcome.next ?_
  show decoderTurn ld _ (s.mem.readRange (ld.inp + (ld.n - rest.length)) (ld.n - (ld.n - rest.length))) _ = _
  rw [hr.read]
  rfl

end

/-- One byte read moves the cursor by one. -/
theorem State.PayloadEndsIn.cursor_succ {s : State} {ld : Desc} {b : Byte} {bs : List Byte}
    (hr : s.PayloadEndsIn ld (b :: bs)) : ld.n - (b :: bs).length + 1 = ld.n - bs.length := by
  have hle := hr.length_le
  rw [List.length_cons] at hle ⊢
  omega

/-! ## Runs (44_block_decoder.md R202) -/

/-- A turn inside a run: at the places `f`, with `k` to follow its value. -/
def runTurn (s : State) (ld : Desc) (win : List Byte) (f : Nat → DecPos) (k : Nat → Nat → State) (ip sum : Nat) :
    List Byte → State
  | [] => failDecode ld .truncatedRun ip s
  | b :: _ => if b = 0xFF then s.setDec ld ⟨ip + 1, f (sum + 255), win⟩ else k (sum + b.toNat) (ip + 1)

section

variable {s : State} {ld : Desc} (hi : s.inputs = [])
include hi

/-- The turns inside a run read it whole, and `k` follows; or the payload ends inside it. -/
theorem reaches_run {win : List Byte} {f : Nat → DecPos} {k : Nat → Nat → State}
    (hf : ∀ ip sum bs, decoderTurn ld ⟨ip, f sum, win⟩ bs s = runTurn s ld win f k ip sum bs) {bs : List Byte}
    (hr : s.PayloadEndsIn ld bs) (sum : Nat) :
    Reaches (s.decodingAt ld bs (f sum) win)
      ((readRun bs).elim (failDecode ld .truncatedRun ld.n s) fun x => k (sum + x.1) (ld.n - x.2.length)) := by
  induction bs generalizing sum with
  | nil => exact .single ((step_decodingAt hr hi _ _).trans (congrArg _ (hf ..)))
  | cons b bs ih =>
    have hstep := (step_decodingAt hr hi (f sum) win).trans (congrArg _ (hf ..))
    rw [runTurn, hr.cursor_succ] at hstep
    rw [readRun]
    by_cases hb : b = 0xFF
    · rw [if_pos hb] at hstep ⊢
      refine .head hstep ?_
      have hrest := ih (hr.of_suffix (List.suffix_cons b bs)) (sum + 255)
      simp only [Nat.add_assoc, Nat.add_comm 255] at hrest
      rw [Option.elim_map]
      exact hrest
    · rw [if_neg hb] at hstep ⊢
      exact .single hstep

/-- A token, and its literal run where it has one (44_block_decoder.md R201 to R203). -/
theorem reaches_literals {t : Byte} {r : List Byte} (win : List Byte) (hr : s.PayloadEndsIn ld (t :: r)) :
    Reaches (s.decodingAt ld (t :: r) .token win)
      ((readLitLen (tokenLn t) r).elim (failDecode ld .truncatedRun ld.n s) fun x =>
        s.decodingAt ld x.2 (.literals (tokenMn t) x.1) win) := by
  have hstep : step (s.decodingAt ld (t :: r) .token win) =
      .next (s.decodingAt ld r (afterToken (tokenLn t) (tokenMn t)) win) := by
    unfold State.decodingAt
    rw [← hr.cursor_succ]
    exact step_decodingAt hr hi .token win
  refine .head hstep ?_
  unfold afterToken readLitLen
  by_cases hln : tokenLn t = 15
  · have hrun := reaches_run (f := .litRun (tokenMn t))
      (k := fun v ip => s.setDec ld ⟨ip, .literals (tokenMn t) (15 + v), win⟩) hi
      (fun _ _ bs => by cases bs <;> rfl) (hr.of_suffix (List.suffix_cons t r)) 0
    rw [if_pos hln, if_pos hln]
    simp only [Nat.zero_add] at hrun
    rw [Option.elim_map]
    exact hrun
  · rw [if_neg hln, if_neg hln]
    exact .refl _

/-- The match run of a sequence where it has one (44_block_decoder.md R207). -/
theorem reaches_matchLen {r : List Byte} (off : Nat) (mn : BitVec 4) (win : List Byte) (hr : s.PayloadEndsIn ld r) :
    Reaches (afterOffset ld (ld.n - r.length) off mn win s)
      ((readMatchLen mn r).elim (failDecode ld .truncatedRun ld.n s) fun x =>
        matchOrFail ld (ld.n - x.2.length) off x.1 win s) := by
  unfold afterOffset readMatchLen
  by_cases hmn : mn = 15
  · have hrun := reaches_run (f := .matchRun off) (k := fun v ip => matchOrFail ld ip off (19 + v) win s) hi
      (fun _ _ bs => by cases bs <;> rfl) hr 0
    rw [if_pos hmn, if_pos hmn]
    simp only [Nat.zero_add] at hrun
    rw [Option.elim_map]
    exact hrun
  · rw [if_neg hmn, if_neg hmn]
    exact .refl _

end

/-! ## One pass of R211's loop -/

/-- The result of a pass of R211's loop is where the datapath gets from `u`. -/
def SeqResult.ReachedFrom (s : State) (ld : Desc) (u : State) : SeqResult → Prop
  | .ended r => Reaches u (endDecode ld r s)
  | .more rest win => s.PayloadEndsIn ld rest ∧ Reaches u (s.decodingAt ld rest .token win)

theorem SeqResult.ReachedFrom.of_reaches {s u v : State} {ld : Desc} {r : SeqResult} (h : Reaches u v)
    (hv : r.ReachedFrom s ld v) : r.ReachedFrom s ld u := by
  cases r with
  | ended r => exact h.trans hv
  | more rest win =>
    obtain ⟨hr, hreach⟩ := hv
    exact ⟨hr, h.trans hreach⟩

/-- A pass after its literal length `lit`, with the bytes `r` left and the match nibble `mn` (R203, R204). -/
def decodeLiterals (n p cap : Nat) (mn : BitVec 4) (lit : Nat) (r win : List Byte) : SeqResult :=
  if r.length < lit then .ended (.fail .truncatedLiterals (n - r.length))
  else if cap < win.length - p + lit then .ended (.fail .oversize (n - r.length))
  else if r.length = lit then
    if mn = 0 then .ended (.ok (win ++ r.take lit)) else .ended (.fail .badLastToken n)
  else decodeMatch n p cap mn (r.drop lit) (win ++ r.take lit)

theorem decodeSeq_cons (n p cap : Nat) (t : Byte) (r win : List Byte) :
    decodeSeq n p cap (t :: r) win = (readLitLen (tokenLn t) r).elim (.ended (.fail .truncatedRun n)) fun x =>
      decodeLiterals n p cap (tokenMn t) x.1 x.2 win := by
  rw [decodeSeq]
  cases readLitLen (tokenLn t) r <;> rfl

section

variable {s : State} {ld : Desc}

/-- The match, once its length is known (R207, R209). -/
theorem matchOrFail_reached {r : List Byte} (hr : s.PayloadEndsIn ld r) (off mlen : Nat) (win : List Byte) :
    (if ld.cap < win.length - ld.P + mlen then SeqResult.ended (.fail .oversize (ld.n - r.length))
      else .more r (copyMatch win off mlen)).ReachedFrom s ld (matchOrFail ld (ld.n - r.length) off mlen win s) := by
  unfold matchOrFail
  split
  · exact .refl _
  · exact ⟨hr, .refl _⟩

variable (hi : s.inputs = [])
include hi

/-- The second half of a sequence (R205 to R209). -/
theorem decodeMatch_reached {rest : List Byte} (mn : BitVec 4) (win : List Byte) (hr : s.PayloadEndsIn ld rest) :
    (decodeMatch ld.n ld.P ld.cap mn rest win).ReachedFrom s ld (s.decodingAt ld rest (.offset mn) win) := by
  have hstep := step_decodingAt hr hi (.offset mn) win
  match rest with
  | [] => exact Reaches.single hstep
  | [_] => exact Reaches.single hstep
  | b₀ :: b₁ :: r =>
    have hr' : s.PayloadEndsIn ld r := hr.of_suffix ((List.suffix_cons b₁ r).trans (List.suffix_cons b₀ _))
    have hip : ld.n - (b₀ :: b₁ :: r).length + 2 = ld.n - r.length := by
      have hle := hr.length_le
      rw [List.length_cons, List.length_cons] at hle ⊢
      omega
    refine .of_reaches (.single hstep) ?_
    unfold decodeMatch decoderTurn DecScratch.op
    dsimp only
    rw [hip]
    split
    · exact .refl _
    · refine .of_reaches (reaches_matchLen hi (le16 b₀ b₁) mn win hr') ?_
      cases hlen : readMatchLen mn r with
      | none => exact .refl _
      | some x => exact matchOrFail_reached (hr'.of_suffix (readMatchLen_suffix hlen)) _ _ _

/-- The literals of a sequence, and what follows them (R203, R204). -/
theorem decodeLiterals_reached {r : List Byte} (mn : BitVec 4) (lit : Nat) (win : List Byte)
    (hr : s.PayloadEndsIn ld r) :
    (decodeLiterals ld.n ld.P ld.cap mn lit r win).ReachedFrom s ld (s.decodingAt ld r (.literals mn lit) win) := by
  have hle := hr.length_le
  refine .of_reaches (.single (step_decodingAt hr hi _ _)) ?_
  unfold decodeLiterals decoderTurn
  dsimp only
  split
  · exact .refl _
  · next hlit =>
    split
    · exact .refl _
    · have hip : ld.n - r.length + lit = ld.n - (r.drop lit).length := by
        rw [List.length_drop]
        omega
      have hend : ld.n - r.length + lit = ld.n ↔ r.length = lit := by omega
      unfold afterLiterals
      simp only [hend]
      split
      · next hlast =>
        split
        · exact .refl _
        · rw [hend.2 hlast]
          exact .refl _
      · rw [hip]
        exact decodeMatch_reached hi mn _ (hr.of_suffix (List.drop_suffix lit r))

/-- One pass of R211's loop is a run of the datapath. -/
theorem decodeSeq_reached {rest : List Byte} (win : List Byte) (hr : s.PayloadEndsIn ld rest) :
    (decodeSeq ld.n ld.P ld.cap rest win).ReachedFrom s ld (s.decodingAt ld rest .token win) := by
  cases rest with
  | nil => exact Reaches.single (step_decodingAt hr hi _ _)
  | cons t r =>
    rw [decodeSeq_cons]
    refine .of_reaches (reaches_literals hi win hr) ?_
    cases hlen : readLitLen (tokenLn t) r with
    | none => exact .refl _
    | some x =>
      have hsuffix := (readLitLen_suffix hlen).trans (List.suffix_cons t r)
      exact decodeLiterals_reached hi (tokenMn t) x.1 win (hr.of_suffix hsuffix)

/-- The loop of R211 is a run of the datapath: every pass reads at least one byte (R210). -/
theorem reaches_decodeLoop {fuel : Nat} {rest win : List Byte} (hr : s.PayloadEndsIn ld rest)
    (hfuel : rest.length < fuel) (hP : ld.P ≤ win.length) :
    Reaches (s.decodingAt ld rest .token win) (endDecode ld (decodeLoop ld.n ld.P ld.cap fuel rest win) s) := by
  induction fuel generalizing rest win with
  | zero => exact absurd hfuel (Nat.not_lt_zero _)
  | succ fuel ih =>
    have hpass := decodeSeq_reached hi win hr
    have hgood := decodeSeq_good (cap := ld.cap) hP hr.length_le
    rw [decodeLoop]
    cases hseq : decodeSeq ld.n ld.P ld.cap rest win with
    | ended r =>
      rw [hseq] at hpass
      exact hpass
    | more rest' win' =>
      rw [hseq] at hpass hgood
      obtain ⟨hr', hreach⟩ := hpass
      obtain ⟨hlt, out, rfl, -⟩ := hgood
      exact hreach.trans (ih hr' (by omega) (by rw [List.length_append]; omega))

/-- The elements of the payload in memory end the command as `decodeBlock` says. -/
theorem reaches_decodeBlock :
    Reaches (s.setDec ld ⟨0, .token, s.mem.readRange ld.win ld.P⟩)
      (endDecode ld (decodeBlock (s.mem.readRange ld.inp ld.n) (s.mem.readRange ld.win ld.P) ld.cap) s) := by
  have hn : (s.mem.readRange ld.inp ld.n).length = ld.n := Memory.readRange_length _ _ _
  have hP : (s.mem.readRange ld.win ld.P).length = ld.P := Memory.readRange_length _ _ _
  have hloop := reaches_decodeLoop (ld := ld) (fuel := ld.n + 1) (win := s.mem.readRange ld.win ld.P) hi
    (List.suffix_refl (s.mem.readRange ld.inp ld.n)) (by omega) (by omega)
  unfold State.decodingAt at hloop
  rw [hn, Nat.sub_self] at hloop
  unfold decodeBlock
  rw [hn, hP]
  exact hloop

end

/-- Settles O30: a bad descriptor ends both runs at once, and on a good one the elements end as the one step does. -/
theorem decodeElementsRefineCommand : Obligations.DecodeElementsRefineCommand := by
  unfold Obligations.DecodeElementsRefineCommand
  intro s t ld w hp hw hi hg hstep
  have hself := s.withGrain_self .element hg
  rw [step_pending (s := s.withGrain .command) hi hp, runWord_decompress hw] at hstep
  rcases withPayload_next hstep with ⟨d, hd, rfl⟩ | ⟨hc, hb, -⟩
  · rw [badCommand_withGrain, hself]
    refine Reaches.single ?_
    rw [step_pending hi hp, runWord_decompress hw]
    exact withPayload_bad _ hd
  · rw [runDecompress_command rfl hc hb] at hstep
    cases hstep
    rw [endDecode_withGrain, hself]
    have helem : step s = .next (s.setDec ld ⟨0, .token, s.mem.readRange ld.win ld.P⟩) := by
      rw [step_pending hi hp, runWord_decompress hw]
      exact runDecompress_element hg hc hb
    exact Reaches.head helem (reaches_decodeBlock hi)

end Sys2Proof.Machine
end

section
/-! Suffixes of a window as byte strings: their order (41_match_finder.md R140) and their common prefixes (R141). -/

namespace Sys2Proof.Machine

/-! ## The order -/

theorem lexLt_iff (a b : List Byte) : lexLt a b = true ↔ a < b := by
  induction a generalizing b with
  | nil => cases b <;> simp [lexLt]
  | cons x as ih =>
    cases b with
    | nil => simp [lexLt]
    | cons y bs => simp [lexLt, List.cons_lt_cons_iff, BitVec.lt_def, ih]

/-- No two suffixes of a window have the same length, so one of them is below the other. -/
theorem drop_lt_or_gt {wd : List Byte} {x y : Nat} (hx : x < wd.length) (hy : y < wd.length) (hne : x ≠ y) :
    wd.drop x < wd.drop y ∨ wd.drop y < wd.drop x := by
  have hdiff : wd.drop x ≠ wd.drop y := fun heq => by
    have hlen := congrArg List.length heq
    rw [List.length_drop, List.length_drop] at hlen
    omega
  by_contra hnot
  obtain ⟨hxy, hyx⟩ := not_or.mp hnot
  exact hdiff ((List.Lex.trichotomous (· < · : Byte → Byte → Prop)).trichotomous _ _ hxy hyx)

/-! ## Common prefixes -/

@[simp] theorem lcp_nil_left (b : List Byte) : lcp [] b = 0 := by cases b <;> rfl

@[simp] theorem lcp_nil_right (a : List Byte) : lcp a [] = 0 := by cases a <;> rfl

@[simp] theorem lcp_cons_self (x : Byte) (as bs : List Byte) : lcp (x :: as) (x :: bs) = lcp as bs + 1 := if_pos rfl

theorem lcp_cons_of_ne {x y : Byte} (h : x ≠ y) (as bs : List Byte) : lcp (x :: as) (y :: bs) = 0 := if_neg h

theorem lcp_comm (a b : List Byte) : lcp a b = lcp b a := by
  induction a generalizing b with
  | nil => simp
  | cons x as ih =>
    cases b with
    | nil => simp
    | cons y bs =>
      by_cases h : x = y
      · subst h
        rw [lcp_cons_self, lcp_cons_self, ih]
      · rw [lcp_cons_of_ne h, lcp_cons_of_ne (Ne.symm h)]

theorem le_lcp_iff (n : Nat) (a b : List Byte) :
    n ≤ lcp a b ↔ n ≤ a.length ∧ n ≤ b.length ∧ a.take n = b.take n := by
  induction n generalizing a b with
  | zero => simp
  | succ n ih =>
    cases a with
    | nil => simp
    | cons x as =>
      cases b with
      | nil => simp
      | cons y bs =>
        by_cases h : x = y
        · subst h
          simp [ih]
        · simp [lcp_cons_of_ne h, h]

/-- The LCP-interval property (R151) at three strings in order. -/
theorem lcp_eq_min_of_lt {a b c : List Byte} (hab : a < b) (hbc : b < c) :
    lcp a c = min (lcp a b) (lcp b c) := by
  induction a generalizing b c with
  | nil => simp
  | cons x as ih =>
    cases b with
    | nil => exact absurd hab (List.not_lt_nil _)
    | cons y bs =>
      cases c with
      | nil => exact absurd hbc (List.not_lt_nil _)
      | cons z cs =>
        rcases List.cons_lt_cons_iff.mp hab with hxy | ⟨rfl, hab'⟩
        · have hxz : x ≠ z := by
            rcases List.cons_lt_cons_iff.mp hbc with hyz | ⟨rfl, -⟩
            · rw [BitVec.lt_def] at hxy hyz
              rintro rfl
              omega
            · exact BitVec.ne_of_lt hxy
          rw [lcp_cons_of_ne hxz, lcp_cons_of_ne (BitVec.ne_of_lt hxy), Nat.zero_min]
        · rcases List.cons_lt_cons_iff.mp hbc with hyz | ⟨rfl, hbc'⟩
          · rw [lcp_cons_of_ne (BitVec.ne_of_lt hyz), lcp_cons_of_ne (BitVec.ne_of_lt hyz), Nat.min_zero]
          · rw [lcp_cons_self, lcp_cons_self, lcp_cons_self, ih hab' hbc', Nat.add_min_add_right]

/-- The LCP-interval property from the other side. -/
theorem lcp_eq_min_of_gt {a b c : List Byte} (hab : b < a) (hbc : c < b) :
    lcp a c = min (lcp a b) (lcp b c) := by
  rw [lcp_comm a c, lcp_comm a b, lcp_comm b c, lcp_eq_min_of_lt hbc hab, Nat.min_comm]

end Sys2Proof.Machine
end

section
/-! The suffix array with its LCP array and rank (41_match_finder.md R140, R142, R143). Both sorts of the match-finder
are insertion sorts by an irreflexive order. -/

namespace Sys2Proof.Machine

/-! ## Insertion sort by an irreflexive order -/

section

variable {α : Type} {r : α → α → Prop} [DecidableRel r] (htrans : ∀ a b c : α, r a b → r b c → r a c)
include htrans

theorem pairwise_orderedInsert_of_comparable {a : α} {l : List α} (hl : l.Pairwise r)
    (ha : ∀ b ∈ l, r a b ∨ r b a) : (l.orderedInsert r a).Pairwise r := by
  induction l with
  | nil => exact List.pairwise_singleton r a
  | cons b l ih =>
    obtain ⟨hb, hl'⟩ := List.pairwise_cons.mp hl
    by_cases hab : r a b
    · rw [List.orderedInsert_cons_of_le r l hab]
      exact List.pairwise_cons.mpr ⟨List.forall_mem_cons.mpr ⟨hab, fun c hc => htrans a b c hab (hb c hc)⟩, hl⟩
    · have hba : r b a := (ha b List.mem_cons_self).resolve_left hab
      rw [List.orderedInsert_of_not_le r l hab]
      refine List.pairwise_cons.mpr ⟨fun c hc => ?_, ih hl' fun c hc => ha c (List.mem_cons_of_mem b hc)⟩
      rcases (List.mem_orderedInsert r).mp hc with rfl | hc
      · exact hba
      · exact hb c hc

theorem pairwise_insertionSort_of_comparable {l : List α} (h : l.Pairwise fun a b => r a b ∨ r b a) :
    (l.insertionSort r).Pairwise r := by
  induction l with
  | nil => exact List.Pairwise.nil
  | cons a l ih =>
    obtain ⟨ha, hl⟩ := List.pairwise_cons.mp h
    exact pairwise_orderedInsert_of_comparable htrans (ih hl) fun b hb => ha b ((List.mem_insertionSort r).mp hb)

end

/-! ## The suffix array -/

/-- The suffix at `i` is below the suffix at `j`. -/
abbrev SuffixLt (wd : List Byte) (i j : Nat) : Prop := wd.drop i < wd.drop j

theorem suffixLt_trans (wd : List Byte) (i j k : Nat) (hij : SuffixLt wd i j) (hjk : SuffixLt wd j k) :
    SuffixLt wd i k := List.lt_trans hij hjk

theorem insertSuffix_eq_orderedInsert (wd : List Byte) (i : Nat) (js : List Nat) :
    insertSuffix wd i js = js.orderedInsert (SuffixLt wd) i := by
  induction js with
  | nil => rfl
  | cons j js ih => simp only [insertSuffix, List.orderedInsert_cons, lexLt_iff, ih]

theorem suffixArray_eq_insertionSort (wd : List Byte) :
    suffixArray wd = (List.range wd.length).insertionSort (SuffixLt wd) := by
  unfold suffixArray List.insertionSort
  congr 1
  funext i js
  exact insertSuffix_eq_orderedInsert wd i js

theorem suffixArray_perm (wd : List Byte) : (suffixArray wd).Perm (List.range wd.length) := by
  rw [suffixArray_eq_insertionSort]
  exact List.perm_insertionSort _ _

theorem suffixArray_pairwise (wd : List Byte) : (suffixArray wd).Pairwise (SuffixLt wd) := by
  rw [suffixArray_eq_insertionSort]
  refine pairwise_insertionSort_of_comparable (suffixLt_trans wd) ?_
  refine List.nodup_range.imp_of_mem fun hx hy hne => ?_
  exact drop_lt_or_gt (List.mem_range.mp hx) (List.mem_range.mp hy) hne

theorem suffixArray_nodup (wd : List Byte) : (suffixArray wd).Nodup :=
  (suffixArray_perm wd).nodup_iff.mpr List.nodup_range

@[simp] theorem length_suffixArray (wd : List Byte) : (suffixArray wd).length = wd.length := by
  rw [(suffixArray_perm wd).length_eq, List.length_range]

@[simp] theorem mem_suffixArray {wd : List Byte} {q : Nat} : q ∈ suffixArray wd ↔ q < wd.length := by
  rw [(suffixArray_perm wd).mem_iff, List.mem_range]

/-! ## LCP and RANK -/

/-- The common prefixes of neighbours in a list of positions that begins with `x`, each with the later of the two. -/
def neighbours (wd : List Byte) : Nat → List Nat → List (Nat × Nat)
  | _, [] => []
  | x, y :: ys => (lcp (wd.drop x) (wd.drop y), y) :: neighbours wd y ys

@[simp] theorem length_neighbours (wd : List Byte) (x : Nat) (ys : List Nat) :
    (neighbours wd x ys).length = ys.length := by
  induction ys generalizing x with
  | nil => rfl
  | cons y ys ih => exact congrArg (· + 1) (ih y)

theorem neighbours_getElem? {wd : List Byte} {x : Nat} {ys : List Nat} {i a b : Nat}
    (ha : (x :: ys)[i]? = some a) (hb : ys[i]? = some b) :
    (neighbours wd x ys)[i]? = some (lcp (wd.drop a) (wd.drop b), b) := by
  induction ys generalizing x i with
  | nil => simp at hb
  | cons y ys ih =>
    cases i with
    | zero =>
      simp only [List.getElem?_cons_zero, Option.some.injEq] at ha hb
      subst ha hb
      rfl
    | succ i => exact ih ha hb

theorem lcpArray_cons (wd : List Byte) (x : Nat) (ys : List Nat) :
    lcpArray wd (x :: ys) = 0 :: (neighbours wd x ys).map Prod.fst ++ [0] := by
  have hzip : ((x :: ys).zip ys).map (fun (i, j) => lcp (wd.drop i) (wd.drop j)) =
      (neighbours wd x ys).map Prod.fst := by
    induction ys generalizing x with
    | nil => rfl
    | cons y ys ih => exact congrArg (lcp (wd.drop x) (wd.drop y) :: ·) (ih y)
  exact (if_neg (List.cons_ne_nil x ys)).trans (congrArg (0 :: · ++ [0]) hzip)

theorem length_lcpArray (wd : List Byte) (sa : List Nat) : (lcpArray wd sa).length = sa.length + 1 := by
  cases sa with
  | nil => rfl
  | cons x ys => simp [lcpArray_cons]

theorem lcpArray_zero (wd : List Byte) (sa : List Nat) : (lcpArray wd sa)[0]? = some 0 := by
  cases sa with
  | nil => rfl
  | cons x ys => simp [lcpArray_cons]

theorem lcpArray_length (wd : List Byte) (sa : List Nat) : (lcpArray wd sa)[sa.length]? = some 0 := by
  cases sa with
  | nil => rfl
  | cons x ys => simp [lcpArray_cons]

theorem lcpArray_getElem? {wd : List Byte} {sa : List Nat} {i x y : Nat} (hx : sa[i]? = some x)
    (hy : sa[i + 1]? = some y) : (lcpArray wd sa)[i + 1]? = some (lcp (wd.drop x) (wd.drop y)) := by
  cases sa with
  | nil => simp at hx
  | cons z zs =>
    have hn := neighbours_getElem? (wd := wd) hx hy
    rw [lcpArray_cons, List.cons_append, List.getElem?_cons_succ, List.getElem?_append_left, List.getElem?_map, hn]
    · rfl
    · rw [List.length_map]
      exact (List.getElem?_eq_some_iff.mp hn).1

theorem rankArray_getElem? {sa : List Nat} {p : Nat} (hp : p < sa.length) : (rankArray sa)[p]? = some (sa.idxOf p) := by
  simp [rankArray, hp]

/-- Settles O32: insertion makes the array, the arrays beside it are read off its list. -/
theorem suffixArrayContract : Obligations.SuffixArrayContract := by
  unfold Obligations.SuffixArrayContract
  refine ⟨fun wd => ⟨suffixArray_perm wd, suffixArray_pairwise wd, ?_, lcpArray_zero wd _, ?_, ?_, ?_⟩, ?_⟩
  · rw [length_lcpArray, length_suffixArray]
  · have hlast := lcpArray_length wd (suffixArray wd)
    rwa [length_suffixArray] at hlast
  · rintro (_ | i) x y hi hx hy
    · omega
    · exact lcpArray_getElem? hx hy
  · intro i x hx
    obtain ⟨hi, rfl⟩ := List.getElem?_eq_some_iff.mp hx
    have hlt : (suffixArray wd)[i] < wd.length := mem_suffixArray.mp (List.getElem_mem hi)
    rw [rankArray_getElem? (by rwa [length_suffixArray]), (suffixArray_nodup wd).idxOf_getElem i hi]
  · intro wd x y n hx hy
    rw [le_lcp_iff, List.length_drop, List.length_drop]
    refine and_congr ?_ (and_congr ?_ Iff.rfl) <;> omega

end Sys2Proof.Machine
end

section
/-! The raw list of a site: the walks over the suffix array and the closed form give the same entries
(41_match_finder.md R144 to R146, R151). -/

namespace Sys2Proof.Machine

/-! ## Entries of a list of earlier positions -/

/-- The position `q` gives the site `p` a raw entry (R151). -/
abbrev InReach (par : Params) (wd : List Byte) (p q : Nat) : Prop :=
  q < p ∧ p - q ≤ par.maxOffset ∧ par.minMatch ≤ lcp (wd.drop q) (wd.drop p)

/-- The raw entry `q` gives the site `p` (R151). -/
def rawEntry (wd : List Byte) (p q : Nat) : Cand := ⟨p - q, lcp (wd.drop q) (wd.drop p)⟩

/-- The raw entries of the site `p` that a list of positions gives, in its order. -/
def rawEntries (par : Params) (wd : List Byte) (p : Nat) (qs : List Nat) : List Cand :=
  (qs.filter (InReach par wd p ·)).map (rawEntry wd p)

section

variable {par : Params} {wd : List Byte} {p : Nat}

theorem rawEntries_cons_of {q : Nat} (h : InReach par wd p q) (qs : List Nat) :
    rawEntries par wd p (q :: qs) = rawEntry wd p q :: rawEntries par wd p qs := by
  rw [rawEntries, List.filter_cons, if_pos (decide_eq_true h)]
  rfl

theorem rawEntries_cons_of_not {q : Nat} (h : ¬ InReach par wd p q) (qs : List Nat) :
    rawEntries par wd p (q :: qs) = rawEntries par wd p qs := by
  rw [rawEntries, List.filter_cons, if_neg fun hd => h (of_decide_eq_true hd)]
  rfl

theorem rawEntries_eq_nil {qs : List Nat} (h : ∀ q ∈ qs, ¬ InReach par wd p q) : rawEntries par wd p qs = [] := by
  rw [rawEntries, List.filter_eq_nil_iff.mpr fun q hq hd => h q hq (of_decide_eq_true hd)]
  rfl

theorem rawEntries_append (qs rs : List Nat) :
    rawEntries par wd p (qs ++ rs) = rawEntries par wd p qs ++ rawEntries par wd p rs := by
  rw [rawEntries, List.filter_append, List.map_append]
  rfl

theorem mem_rawEntries {qs : List Nat} {e : Cand} :
    e ∈ rawEntries par wd p qs ↔ ∃ q ∈ qs, InReach par wd p q ∧ e = rawEntry wd p q := by
  simp only [rawEntries, List.mem_map, List.mem_filter, decide_eq_true_eq, and_assoc, eq_comm (a := e)]

/-- A list that holds every position before the site gives all entries of R151. -/
theorem mem_rawEntries_of_earlier {qs : List Nat} (hqs : ∀ q, q < p → q ∈ qs) {e : Cand} :
    e ∈ rawEntries par wd p qs ↔ ∃ q, InReach par wd p q ∧ e = rawEntry wd p q := by
  rw [mem_rawEntries]
  exact exists_congr fun q => ⟨And.right, fun h => ⟨hqs q h.1.1, h⟩⟩

/-- An order of the positions is the reverse order of the offsets. -/
theorem rawEntries_pairwise {R S : Nat → Nat → Prop} {qs : List Nat} (hqs : qs.Pairwise R)
    (h : ∀ q q', q < p → q' < p → R q q' → S (p - q) (p - q')) :
    (rawEntries par wd p qs).Pairwise fun a b => S a.off b.off := by
  refine List.pairwise_map.mpr ((hqs.filter _).imp_of_mem fun {q q'} hq hq' hR => ?_)
  obtain ⟨-, hreach⟩ := List.mem_filter.mp hq
  obtain ⟨-, hreach'⟩ := List.mem_filter.mp hq'
  exact h q q' (of_decide_eq_true hreach).1 (of_decide_eq_true hreach').1 hR

/-! ## The walk -/

/-- The LCP a walk has come down to after an LCP entry `l`; `none` is infinity. -/
def lowest (cur : Option Nat) (l : Nat) : Nat := cur.elim l (min · l)

theorem walkFrom_cons (cur : Option Nat) (l q : Nat) (rest : List (Nat × Nat)) :
    walkFrom par p cur ((l, q) :: rest) =
      if lowest cur l < par.minMatch then []
      else if p < q then walkFrom par p (some (lowest cur l)) rest
      else if par.maxOffset < p - q then walkFrom par p (some (lowest cur l)) rest
      else ⟨p - q, lowest cur l⟩ :: walkFrom par p (some (lowest cur l)) rest := by
  cases cur <;> rfl

/-- Along the neighbours of the site in one direction, the LCP a walk has come down to is the LCP with the
site, and where it falls below MIN_MATCH no later position is in reach. `R` is the order of the suffixes in that
direction. -/
theorem walkFrom_neighbours {R : Nat → Nat → Prop}
    (hmin : ∀ a b c, R a b → R b c →
      lcp (wd.drop a) (wd.drop c) = min (lcp (wd.drop a) (wd.drop b)) (lcp (wd.drop b) (wd.drop c)))
    {cur : Option Nat} {x : Nat} {ys : List Nat} (hpw : (p :: ys).Pairwise R) (hne : p ∉ ys)
    (hcur : ∀ y ∈ ys.head?, lowest cur (lcp (wd.drop x) (wd.drop y)) = lcp (wd.drop p) (wd.drop y)) :
    walkFrom par p cur (neighbours wd x ys) = rawEntries par wd p ys := by
  induction ys generalizing cur x with
  | nil => rfl
  | cons y ys ih =>
    obtain ⟨hp, hys⟩ := List.pairwise_cons.mp hpw
    obtain ⟨hy, hys'⟩ := List.pairwise_cons.mp hys
    have hpy : R p y := hp y List.mem_cons_self
    have hp' : ∀ z ∈ ys, R p z := fun z hz => hp z (List.mem_cons_of_mem y hz)
    obtain ⟨hney, hne'⟩ := not_or.mp (mt List.mem_cons.mpr hne)
    have hrest := ih (cur := some (lcp (wd.drop p) (wd.drop y))) (x := y)
      (List.pairwise_cons.mpr ⟨hp', hys'⟩) hne'
      fun z hz => (hmin p y z hpy (hy z (List.mem_of_mem_head? hz))).symm
    rw [neighbours, walkFrom_cons, hcur y rfl, hrest]
    split
    next hlow =>
      refine (rawEntries_eq_nil fun z hz ⟨_, _, hlcp⟩ => ?_).symm
      have hle : lcp (wd.drop z) (wd.drop p) ≤ lcp (wd.drop p) (wd.drop y) := by
        rw [lcp_comm]
        rcases List.mem_cons.mp hz with rfl | hz
        · exact le_rfl
        · exact (hmin p y z hpy (hy z hz)).trans_le (Nat.min_le_left _ _)
      omega
    next hhigh =>
      rw [lcp_comm] at hhigh
      split
      next hlt => exact (rawEntries_cons_of_not (fun ⟨hearlier, _, _⟩ => by omega) ys).symm
      next hle =>
        split
        next hfar => exact (rawEntries_cons_of_not (fun ⟨_, hoff, _⟩ => by omega) ys).symm
        next hnear =>
          have hreach : InReach par wd p y := ⟨by omega, by omega, by omega⟩
          rw [rawEntries_cons_of hreach, rawEntry, lcp_comm]

end

/-! ## The neighbours of a site in the two directions -/

section

variable {wd : List Byte}

theorem neighbours_append_singleton (x : Nat) (ys : List Nat) (z : Nat) :
    neighbours wd x (ys ++ [z]) = neighbours wd x ys ++ [(lcp (wd.drop (ys.getLastD x)) (wd.drop z), z)] := by
  induction ys generalizing x with
  | nil => rfl
  | cons y ys ih =>
    rw [List.cons_append, neighbours, ih, List.getLastD_cons]
    rfl

theorem drop_neighbours (x : Nat) (ys : List Nat) (p : Nat) (zs : List Nat) :
    (neighbours wd x (ys ++ p :: zs)).drop (ys.length + 1) = neighbours wd p zs := by
  induction ys generalizing x with
  | nil => rfl
  | cons y ys ih => exact ih y

theorem zip_neighbours (t : List Nat) (x : Nat) (ys : List Nat) :
    ((neighbours wd x ys).map Prod.fst ++ t).zip ys = neighbours wd x ys := by
  induction ys generalizing x with
  | nil => exact List.zip_nil_right
  | cons y ys ih => exact congrArg (_ :: ·) (ih y)

variable {p : Nat}

/-- What the downward walk meets (R145): the positions of larger rank, from the site on. -/
theorem drop_zip_lcpArray (pre post : List Nat) :
    ((lcpArray wd (pre ++ p :: post)).zip (pre ++ p :: post)).drop (pre.length + 1) = neighbours wd p post := by
  cases pre with
  | nil =>
    rw [List.nil_append, lcpArray_cons]
    exact zip_neighbours [0] p post
  | cons x pre =>
    rw [List.cons_append, lcpArray_cons, List.cons_append, List.zip_cons_cons, zip_neighbours]
    exact drop_neighbours x pre p post

/-- What the upward walk meets (R144): the positions of smaller rank, from the site on. -/
theorem take_zip_lcpArray (pre post : List Nat) :
    (((lcpArray wd (pre ++ p :: post)).tail.zip (pre ++ p :: post)).take pre.length).reverse =
      neighbours wd p pre.reverse := by
  induction pre with
  | nil => rfl
  | cons x pre ih =>
    have hstep : ((lcpArray wd (x :: (pre ++ p :: post))).tail.zip (x :: (pre ++ p :: post))).take (pre.length + 1) =
        (lcp (wd.drop (pre.reverse.getLastD p)) (wd.drop x), x) ::
          ((lcpArray wd (pre ++ p :: post)).tail.zip (pre ++ p :: post)).take pre.length := by
      cases pre with
      | nil =>
        rw [lcp_comm]
        rfl
      | cons y pre =>
        rw [List.reverse_cons, List.getLastD_concat, lcp_comm, List.cons_append, lcpArray_cons, lcpArray_cons]
        rfl
    rw [List.cons_append, List.length_cons, hstep, List.reverse_cons, List.reverse_cons, ih,
      neighbours_append_singleton]

/-- The array on the two sides of a position, and the rank of the position between them. -/
theorem exists_suffixArray_eq_append (hp : p < wd.length) :
    ∃ pre post, suffixArray wd = pre ++ p :: post ∧ (rankArray (suffixArray wd)).getD p 0 = pre.length := by
  obtain ⟨pre, post, heq, hnot⟩ := List.eq_append_cons_of_mem (mem_suffixArray.mpr hp)
  refine ⟨pre, post, heq, ?_⟩
  rw [List.getD_eq_getElem?_getD, rankArray_getElem? (by rwa [length_suffixArray]), Option.getD_some, heq,
    List.idxOf_append_of_notMem hnot, List.idxOf_cons_self, Nat.add_zero]

end

section

variable (par : Params) {wd : List Byte} {p : Nat}

theorem upward_eq_walkFrom {pre post rank : List Nat} (h : rank.getD p 0 = pre.length) :
    upward par (pre ++ p :: post) (lcpArray wd (pre ++ p :: post)) rank p =
      walkFrom par p none (neighbours wd p pre.reverse) := by
  rw [← take_zip_lcpArray pre post, ← h]
  rfl

theorem downward_eq_walkFrom {pre post rank : List Nat} (h : rank.getD p 0 = pre.length) :
    downward par (pre ++ p :: post) (lcpArray wd (pre ++ p :: post)) rank p =
      walkFrom par p none (neighbours wd p post) := by
  rw [← drop_zip_lcpArray pre post, ← h]
  rfl

/-- The raw list of the walks (R144 to R146): the entries of the positions on both sides of the site in the suffix
array, which hold every earlier position, each once. -/
theorem exists_walks_eq (hp : p < wd.length) :
    ∃ qs : List Nat, qs.Nodup ∧ (∀ q, q < p → q ∈ qs) ∧
      upward par (suffixArray wd) (lcpArray wd (suffixArray wd)) (rankArray (suffixArray wd)) p ++
        downward par (suffixArray wd) (lcpArray wd (suffixArray wd)) (rankArray (suffixArray wd)) p =
      rawEntries par wd p qs := by
  obtain ⟨pre, post, hsa, hrank⟩ := exists_suffixArray_eq_append hp
  have hpw := suffixArray_pairwise wd
  have hperm : (p :: (pre.reverse ++ post)).Perm (suffixArray wd) := by
    rw [hsa]
    exact ((pre.reverse_perm.append_right post).cons p).trans List.perm_middle.symm
  obtain ⟨hnot, hqs⟩ := List.nodup_cons.mp (hperm.nodup_iff.mpr (suffixArray_nodup wd))
  rw [List.mem_append, not_or] at hnot
  have hmem : ∀ q, q < p → q ∈ pre.reverse ++ post := fun q hq =>
    (List.mem_cons.mp (hperm.mem_iff.mpr (mem_suffixArray.mpr (hq.trans hp)))).resolve_left (Nat.ne_of_lt hq)
  refine ⟨pre.reverse ++ post, hqs, hmem, ?_⟩
  rw [hsa, List.pairwise_append] at hpw
  obtain ⟨hpre, hpost, hcross⟩ := hpw
  have hdown : (p :: pre.reverse).Pairwise fun i j => SuffixLt wd j i :=
    List.pairwise_cons.mpr ⟨fun q hq => hcross q (List.mem_reverse.mp hq) p List.mem_cons_self,
      List.pairwise_reverse.mpr hpre⟩
  rw [hsa] at hrank ⊢
  rw [upward_eq_walkFrom par hrank, downward_eq_walkFrom par hrank, rawEntries_append,
    walkFrom_neighbours (fun a b c => lcp_eq_min_of_gt) hdown hnot.1 (fun _ _ => rfl),
    walkFrom_neighbours (fun a b c => lcp_eq_min_of_lt) hpost hnot.2 (fun _ _ => rfl)]

end

/-- Settles O33: the walks meet every position but the site's own. -/
theorem rawListClosedForm : Obligations.RawListClosedForm := by
  unfold Obligations.RawListClosedForm
  intro par wd p e _ hp
  obtain ⟨qs, -, hqs, hwalks⟩ := exists_walks_eq par hp
  rw [hwalks, mem_rawEntries_of_earlier hqs]
  simp only [InReach, rawEntry, and_assoc]

end Sys2Proof.Machine
end

section
/-! The match-finder the commands use, position by position (41_match_finder.md R151, R154; log 14). -/

namespace Sys2Proof.Machine

/-! ## The sort by offset (R149) -/

theorem insertByOffset_eq_orderedInsert (e : Cand) (es : List Cand) :
    insertByOffset e es = es.orderedInsert (fun a b => a.off < b.off) e := by
  induction es with
  | nil => rfl
  | cons x xs ih => simp only [insertByOffset, List.orderedInsert_cons, ih]

theorem sortByOffset_eq_insertionSort (es : List Cand) :
    sortByOffset es = es.insertionSort fun a b => a.off < b.off := by
  unfold sortByOffset List.insertionSort
  congr 1
  funext e es
  exact insertByOffset_eq_orderedInsert e es

theorem mem_sortByOffset {e : Cand} {es : List Cand} : e ∈ sortByOffset es ↔ e ∈ es := by
  rw [sortByOffset_eq_insertionSort]
  exact List.mem_insertionSort _

theorem sortByOffset_pairwise {es : List Cand} (h : es.Pairwise fun a b => a.off ≠ b.off) :
    (sortByOffset es).Pairwise fun a b => a.off < b.off := by
  rw [sortByOffset_eq_insertionSort]
  exact pairwise_insertionSort_of_comparable (r := fun a b : Cand => a.off < b.off) (fun _ _ _ => Nat.lt_trans)
    (h.imp Nat.lt_or_gt_of_ne)

/-! ## The raw list in closed form -/

section

variable (par : Params) (wd : List Byte) (p : Nat)

/-- The raw list of the site `p` in closed form (R151): the entries of the earlier positions, the nearest first. -/
def closedRaw : List Cand := rawEntries par wd p (List.range p).reverse

theorem mem_closedRaw {e : Cand} : e ∈ closedRaw par wd p ↔ ∃ q, InReach par wd p q ∧ e = rawEntry wd p q := by
  exact mem_rawEntries_of_earlier fun q hq => List.mem_reverse.mpr (List.mem_range.mpr hq)

theorem closedRaw_pairwise : (closedRaw par wd p).Pairwise fun a b => a.off < b.off := by
  refine rawEntries_pairwise (R := fun q q' => q' < q) ?_ fun q q' hq _ hlt => by omega
  exact List.pairwise_reverse.mpr List.pairwise_lt_range

/-- The suffixes before the site `p`, the nearest first. -/
def suffixesBefore : Nat → List (List Byte)
  | 0 => []
  | q + 1 => wd.drop q :: suffixesBefore q

/-- The search stops at an offset above MAX_OFFSET, since every later one is larger. -/
theorem rawClosed_suffixesBefore {n o : Nat} (h : n + o = p + 1) (ho : 1 ≤ o) :
    rawClosed par (wd.drop p) o (suffixesBefore wd n) = rawEntries par wd p (List.range n).reverse := by
  induction n generalizing o with
  | zero => rfl
  | succ n ih =>
    have hoff : p - n = o := by omega
    rw [suffixesBefore, rawClosed, ih (o := o + 1) (by omega) (by omega), List.range_succ, List.reverse_concat]
    split
    next hfar =>
      refine (rawEntries_eq_nil fun q hq ⟨_, hnear, _⟩ => ?_).symm
      rw [← List.reverse_concat, ← List.range_succ, List.mem_reverse, List.mem_range] at hq
      omega
    next hnear =>
      split
      next hlcp => rw [rawEntries_cons_of (show InReach par wd p n from ⟨by omega, by omega, hlcp⟩), rawEntry, hoff]
      next hlcp => rw [rawEntries_cons_of_not fun ⟨_, _, hlong⟩ => hlcp hlong]

/-- The candidate list of the site `p` (R147 to R151). -/
def candidatesAt : List Cand := candidatesOf par (wd.length - p) (closedRaw par wd p)

theorem candLists_eq_map (skip : Nat) :
    candLists par skip (suffixesBefore wd p) (wd.drop p) =
      (List.range (wd.length - (p + skip))).map fun i => candidatesAt par wd (p + skip + i) := by
  generalize hrest : wd.drop p = rest
  induction rest generalizing p skip with
  | nil =>
    have hlen : wd.length ≤ p := List.drop_eq_nil_iff.mp hrest
    rw [Nat.sub_eq_zero_of_le (by omega)]
    cases skip <;> rfl
  | cons b bs ih =>
    have hbs : wd.drop (p + 1) = bs := by rw [← List.tail_drop, hrest, List.tail_cons]
    have hlen : bs.length + 1 = wd.length - p := by rw [← List.length_drop, hrest, List.length_cons]
    cases skip with
    | zero =>
      have hsite : candidatesOf par (bs.length + 1) (rawClosed par (b :: bs) 1 (suffixesBefore wd p)) =
          candidatesAt par wd p := by
        rw [hlen, ← hrest, rawClosed_suffixesBefore par wd p rfl le_rfl]
        rfl
      have hih := ih (p + 1) 0 hbs
      rw [suffixesBefore, hrest] at hih
      rw [candLists, hsite, hih, show wd.length - (p + 0) = wd.length - (p + 1 + 0) + 1 by omega,
        List.range_succ_eq_map, List.map_cons, List.map_map]
      refine congrArg (_ :: ·) (List.map_congr_left fun i _ => ?_)
      exact congrArg (candidatesAt par wd) (by omega)
    | succ skip =>
      have hih := ih (p + 1) skip hbs
      rw [suffixesBefore, hrest] at hih
      rw [candLists, hih, Nat.add_right_comm, Nat.add_assoc p]

theorem matchCandidates_eq_map :
    matchCandidates par wd p = (List.range (wd.length - p)).map fun i => candidatesAt par wd (p + i) := by
  have h := candLists_eq_map par wd 0 p
  rwa [Nat.zero_add] at h

theorem length_matchCandidates : (matchCandidates par wd p).length = wd.length - p := by
  rw [matchCandidates_eq_map, List.length_map, List.length_range]

variable {par wd p}

theorem matchCandidates_getElem? {i : Nat} {c : List Cand} (h : (matchCandidates par wd p)[i]? = some c) :
    i < wd.length - p ∧ c = candidatesAt par wd (p + i) := by
  rw [matchCandidates_eq_map, List.getElem?_map, Option.map_eq_some_iff] at h
  obtain ⟨j, hj, rfl⟩ := h
  obtain ⟨hi, rfl⟩ := List.getElem?_eq_some_iff.mp hj
  rw [List.getElem_range]
  exact ⟨by rwa [List.length_range] at hi, rfl⟩

/-- The raw list of the walks in offset order is the closed form: both hold the same entries in the same order. -/
theorem sortByOffset_walks (hp : p < wd.length) :
    sortByOffset (upward par (suffixArray wd) (lcpArray wd (suffixArray wd)) (rankArray (suffixArray wd)) p ++
      downward par (suffixArray wd) (lcpArray wd (suffixArray wd)) (rankArray (suffixArray wd)) p) =
    closedRaw par wd p := by
  obtain ⟨qs, hnodup, hqs, hwalks⟩ := exists_walks_eq par hp
  have hdistinct : (rawEntries par wd p qs).Pairwise fun a b => a.off ≠ b.off :=
    rawEntries_pairwise hnodup fun q q' hq hq' hne => by omega
  have : Std.Asymm fun a b : Cand => a.off < b.off := ⟨fun _ _ => Nat.lt_asymm⟩
  rw [hwalks]
  refine (sortByOffset_pairwise hdistinct).eq_of_mem_iff (closedRaw_pairwise par wd p) fun e => ?_
  rw [mem_sortByOffset, mem_rawEntries_of_earlier hqs, mem_closedRaw]

end

/-- Settles O34: the lists of each site come from the same raw list. -/
theorem matchFinderClosedForm : Obligations.MatchFinderClosedForm := by
  unfold Obligations.MatchFinderClosedForm
  intro par wd p _
  rw [matchCandidates_eq_map]
  refine List.map_congr_left fun i hi => ?_
  have hsite : p + i < wd.length := by
    have hi := List.mem_range.mp hi
    omega
  rw [sortByOffset_walks hsite, candidatesAt]

end Sys2Proof.Machine
end

section
/-! The candidate list of a site: length cut and tail rule, Pareto filter, cap (41_match_finder.md R147 to R150), and
what they leave (R152, R153). -/

namespace Sys2Proof.Machine

/-! ## The Pareto filter (R149) -/

theorem pareto_sublist (best : Nat) (es : List Cand) : (pareto best es).Sublist es := by
  induction es generalizing best with
  | nil => exact List.Sublist.refl []
  | cons e es ih =>
    unfold pareto
    split
    · exact (ih e.len).cons_cons e
    · exact (ih best).cons e

theorem mem_pareto_iff {best : Nat} {es : List Cand} (h : es.Pairwise fun a b => a.off < b.off) (e : Cand) :
    e ∈ pareto best es ↔ e ∈ es ∧ best < e.len ∧ ∀ x ∈ es, x.off < e.off → x.len < e.len := by
  induction es generalizing best with
  | nil => simp [pareto]
  | cons y ys ih =>
    obtain ⟨hy, hys⟩ := List.pairwise_cons.mp h
    rw [List.mem_cons, List.forall_mem_cons]
    unfold pareto
    split
    next hlt =>
      rw [List.mem_cons, ih hys]
      constructor
      · rintro (rfl | ⟨hmem, hlen, hall⟩)
        · exact ⟨.inl rfl, hlt, fun hoff => absurd hoff (Nat.lt_irrefl _),
            fun x hx hoff => absurd hoff (Nat.lt_asymm (hy x hx))⟩
        · exact ⟨.inr hmem, hlt.trans hlen, fun _ => hlen, hall⟩
      · rintro ⟨rfl | hmem, hbest, hhead, hall⟩
        · exact .inl rfl
        · exact .inr ⟨hmem, hhead (hy e hmem), hall⟩
    next hge =>
      rw [ih hys]
      constructor
      · rintro ⟨hmem, hbest, hall⟩
        exact ⟨.inr hmem, hbest, fun _ => by omega, hall⟩
      · rintro ⟨rfl | hmem, hbest, -, hall⟩
        · exact absurd hbest hge
        · exact ⟨hmem, hbest, hall⟩

/-- Settles O35: the filter from a best length of 0. -/
theorem paretoFilter : Obligations.ParetoFilter := by
  unfold Obligations.ParetoFilter
  exact fun es h => ⟨pareto_sublist 0 es, mem_pareto_iff h⟩

theorem pareto_pairwise {best : Nat} {es : List Cand} (h : es.Pairwise fun a b => a.off < b.off) :
    (pareto best es).Pairwise fun a b => a.off < b.off ∧ a.len < b.len := by
  have hsub := pareto_sublist best es
  refine (h.sublist hsub).imp_of_mem fun ha hb hoff => ⟨hoff, ?_⟩
  obtain ⟨-, -, hall⟩ := (mem_pareto_iff h _).mp hb
  exact hall _ (hsub.subset ha) hoff

/-! ## The cut (R147, R148) and the cap (R150) -/

theorem mem_cutEntries {par : Params} {left : Nat} {raw : List Cand} {e : Cand} :
    e ∈ cutEntries par left raw ↔
      ∃ r ∈ raw, e.off = r.off ∧ e.len = cutLen par left r.len ∧ par.minMatch ≤ e.len := by
  simp only [cutEntries, List.mem_filter, List.mem_map, decide_eq_true_eq]
  constructor
  · rintro ⟨⟨r, hr, rfl⟩, hlen⟩
    exact ⟨r, hr, rfl, rfl, hlen⟩
  · rintro ⟨r, hr, hoff, hlen, hmin⟩
    exact ⟨⟨r, hr, by rw [← hoff, ← hlen]⟩, hmin⟩

theorem cutEntries_pairwise {par : Params} {left : Nat} {raw : List Cand}
    (h : raw.Pairwise fun a b => a.off < b.off) :
    (cutEntries par left raw).Pairwise fun a b => a.off < b.off := by
  unfold cutEntries
  exact List.Pairwise.filter _ (List.pairwise_map.mpr h)

theorem capList_sublist (n : Option Nat) (es : List Cand) : (capList n es).Sublist es := by
  cases n with
  | none => exact List.Sublist.refl es
  | some k => exact List.drop_sublist _ es

section

variable {par : Params} {wd : List Byte} {p : Nat}

/-! ## The invariants of an entry (R152) -/

/-- (a) to (d); (d) counts from the start of the window. -/
theorem IsEntry.bounds (hmin : 0 < par.minMatch) {e : Cand} (he : IsEntry par wd p e) :
    1 ≤ e.off ∧ e.off ≤ par.maxOffset ∧ e.off ≤ p ∧
      par.minMatch ≤ e.len ∧ e.len ≤ min par.matchLenCap par.maxLenDr ∧
      p + e.len + par.lastLiterals ≤ wd.length := by
  obtain ⟨q, hlt, hreach, -, hoff, hlen, hlo⟩ := he
  omega

/-- (e): the bytes of a match are those at its referent. -/
theorem IsEntry.bytes {e : Cand} (he : IsEntry par wd p e) {t : Nat} (ht : t < e.len) :
    wd[p - e.off + t]? = wd[p + t]? := by
  obtain ⟨q, hlt, -, -, hoff, hlen, -⟩ := he
  obtain ⟨-, -, htake⟩ := (le_lcp_iff e.len _ _).mp (hlen.trans_le (Nat.min_le_left _ _))
  have hget := congrArg (·[t]?) htake
  simp only [List.getElem?_take_of_lt ht, List.getElem?_drop] at hget
  rw [hoff, Nat.sub_sub_self (Nat.le_of_lt hlt), hget]

/-! ## The list of a site -/

theorem mem_cutEntries_closedRaw {e : Cand} :
    e ∈ cutEntries par (wd.length - p) (closedRaw par wd p) ↔ IsEntry par wd p e := by
  have hcut : ∀ l, cutLen par (wd.length - p) l = min l (min par.matchLenCap (min (wd.length - p)
      (min par.maxLenDr (wd.length - p - par.lastLiterals)))) := fun l => by
    simp only [cutLen, Nat.min_assoc]
  rw [mem_cutEntries]
  constructor
  · rintro ⟨r, hr, hoff, hlen, hmin⟩
    obtain ⟨q, ⟨hlt, hreach, hlcp⟩, rfl⟩ := (mem_closedRaw par wd p).mp hr
    exact ⟨q, hlt, hreach, hlcp, hoff, hlen.trans (hcut _), hmin⟩
  · rintro ⟨q, hlt, hreach, hlcp, hoff, hlen, hmin⟩
    exact ⟨rawEntry wd p q, (mem_closedRaw par wd p).mpr ⟨q, ⟨hlt, hreach, hlcp⟩, rfl⟩, hoff,
      hlen.trans (hcut _).symm, hmin⟩

/-- The entries of a site the Pareto filter keeps (R149), before the cap. -/
def keptAt (par : Params) (wd : List Byte) (p : Nat) : List Cand :=
  pareto 0 (cutEntries par (wd.length - p) (closedRaw par wd p))

theorem candidatesAt_eq_capList : candidatesAt par wd p = capList par.nCand (keptAt par wd p) := rfl

theorem keptAt_pairwise : (keptAt par wd p).Pairwise fun a b => a.off < b.off ∧ a.len < b.len :=
  pareto_pairwise (cutEntries_pairwise (closedRaw_pairwise par wd p))

theorem mem_keptAt (hmin : 0 < par.minMatch) {e : Cand} : e ∈ keptAt par wd p ↔ IsKept par wd p e := by
  rw [keptAt, mem_pareto_iff (cutEntries_pairwise (closedRaw_pairwise par wd p))]
  simp only [mem_cutEntries_closedRaw]
  constructor
  · rintro ⟨he, -, hall⟩
    exact ⟨he, hall⟩
  · rintro ⟨he, hall⟩
    obtain ⟨-, -, -, hlo, -⟩ := he.bounds hmin
    exact ⟨he, hmin.trans_le hlo, hall⟩

theorem isEntry_of_mem_candidatesAt (hmin : 0 < par.minMatch) {e : Cand} (he : e ∈ candidatesAt par wd p) :
    IsEntry par wd p e := by
  rw [candidatesAt_eq_capList] at he
  exact ((mem_keptAt hmin).mp ((capList_sublist _ _).subset he)).1

end

/-- Settles O36: the cap leaves the end of `keptAt`, and each of its members is an entry of the site. -/
theorem candidateInvariants : Obligations.CandidateInvariants := by
  unfold Obligations.CandidateInvariants
  intro par wd p hpar _
  have hmin : 0 < par.minMatch := by rw [hpar.1]; decide
  refine ⟨length_matchCandidates par wd p, fun i c hc => ?_⟩
  obtain ⟨hi, rfl⟩ := matchCandidates_getElem? hc
  refine ⟨⟨keptAt par wd (p + i), keptAt_pairwise, fun e => mem_keptAt hmin, rfl⟩,
    keptAt_pairwise.sublist (capList_sublist par.nCand _), fun e he => ?_⟩
  have hentry := isEntry_of_mem_candidatesAt hmin he
  obtain ⟨hpos, hmax, hstart, hlo, hhi, htail⟩ := hentry.bounds hmin
  exact ⟨hpos, hmax, hstart, hlo, hhi, by omega, fun t ht => hentry.bytes ht⟩

/-- Settles O37: in each case a candidate would break a bound of R152. -/
theorem positionsWithoutCandidates : Obligations.PositionsWithoutCandidates := by
  unfold Obligations.PositionsWithoutCandidates
  intro par wd p i c hpar _ hc
  have hmatch : par.minMatch = 4 := hpar.1
  obtain ⟨-, rfl⟩ := matchCandidates_getElem? hc
  rcases hcands : candidatesAt par wd (p + i) with _ | ⟨e, es⟩
  · exact ⟨fun _ => rfl, fun _ _ => rfl, fun _ _ _ => rfl, fun _ _ => rfl⟩
  · have hentry : IsEntry par wd (p + i) e :=
      isEntry_of_mem_candidatesAt (by omega) (hcands ▸ List.mem_cons_self)
    obtain ⟨hpos, -, hstart, hlo, -, htail⟩ := hentry.bounds (by omega)
    refine ⟨fun hshort => ?_, fun hp hi => ?_, fun hlast hp hshort => ?_, fun hlast hshort => ?_⟩ <;> omega

end Sys2Proof.Machine
end

section
/-! The parse table (42_optimal_parser.md R164, R165): the entry of a position is the first least one of the
literal-only tail and the options of its lists in the order the table weighs them. -/

namespace Sys2Proof.Machine

/-! ## The positions of the table -/

theorem length_parseTable (cands : List (List Cand)) : (parseTable cands).length = cands.length + 1 := by
  induction cands with
  | nil => rfl
  | cons c cs ih => rw [parseTable, List.length_cons, ih, List.length_cons]

theorem parseTable_drop {cands : List (List Cand)} {n : Nat} (h : n ≤ cands.length) :
    (parseTable cands).drop n = parseTable (cands.drop n) := by
  induction cands generalizing n with
  | nil => rw [Nat.le_zero.mp h]; rfl
  | cons c cs ih =>
    cases n with
    | zero => rfl
    | succ n => exact ih (Nat.le_of_succ_le_succ h)

/-- The costs of the table are the least costs of the suffixes of the block. -/
theorem parseTable_getElem?_cost {cands : List (List Cand)} {n : Nat} (h : n ≤ cands.length) :
    (parseTable cands)[n]?.map Entry.cost = some (leastCost (cands.drop n)) := by
  rw [← List.head?_drop, parseTable_drop h, leastCost]
  generalize cands.drop n = cs
  cases cs <;> rfl

/-! ## The options of a position, in the order they are weighed -/

/-- The pairs of a literal count and a candidate, counts from `r` on in ascending order and the candidates of one
list the last first. -/
def sitesFrom (r : Nat) (cs : List (List Cand)) : List (Nat × Cand) :=
  (cs.zipIdx r).flatMap fun site => site.1.reverse.map (site.2, ·)

theorem sitesFrom_cons (r : Nat) (c : List Cand) (cs : List (List Cand)) :
    sitesFrom r (c :: cs) = c.reverse.map (r, ·) ++ sitesFrom (r + 1) cs := by
  rw [sitesFrom, List.zipIdx_cons, List.flatMap_cons]
  rfl

/-- The options of a position (R164): the pairs whose match does not run past the block. -/
def options (cands : List (List Cand)) : List (Nat × Cand) :=
  (sitesFrom 0 cands).filter fun x => x.1 + x.2.len ≤ cands.length

theorem mem_options {cands : List (List Cand)} {r : Nat} {c : Cand} :
    (r, c) ∈ options cands ↔ IsOption cands r c := by
  simp only [options, sitesFrom, IsOption, List.mem_filter, List.mem_flatMap, List.mem_map, List.mem_reverse,
    decide_eq_true_eq]
  refine and_congr_left fun _ => ⟨?_, ?_⟩
  · rintro ⟨⟨l, i⟩, hl, c', hc, heq⟩
    obtain ⟨rfl, rfl⟩ := Prod.mk.inj heq
    exact ⟨l, List.mem_zipIdx_iff_getElem?.mp hl, hc⟩
  · rintro ⟨l, hl, hc⟩
    exact ⟨(l, r), List.mem_zipIdx_iff_getElem?.mpr hl, c, hc, rfl⟩

/-- The tie-break's order of options (R165 (2), (3)). -/
def WeighedBefore (x y : Nat × Cand) : Prop := x.1 < y.1 ∨ (x.1 = y.1 ∧ y.2.len < x.2.len)

theorem options_pairwise {cands : List (List Cand)} (h : SortedCands cands) :
    (options cands).Pairwise WeighedBefore := by
  refine List.Pairwise.filter _ (List.pairwise_flatMap.mpr ⟨fun site hsite => ?_, ?_⟩)
  · rw [List.pairwise_map, List.pairwise_reverse]
    obtain ⟨hsorted, -⟩ := h site.1 (List.fst_mem_of_mem_zipIdx hsite)
    exact hsorted.imp fun hab => .inr ⟨rfl, hab.2⟩
  · have hcounts : (cands.zipIdx.map Prod.snd).Pairwise (· < ·) := by
      rw [List.zipIdx_map_snd]
      exact List.pairwise_lt_range' 1
    refine (List.pairwise_map.mp hcounts).imp fun hlt x hx y hy => ?_
    obtain ⟨_, -, rfl⟩ := List.mem_map.mp hx
    obtain ⟨_, -, rfl⟩ := List.mem_map.mp hy
    exact .inl hlt

/-! ## The first least entry -/

/-- The update of R164: `e` in the place of `best` if it costs less, or the same as the literal-only tail. -/
def updateBest (best e : Entry) : Entry :=
  if e.cost < best.cost ∨ (e.cost = best.cost ∧ best.choice = .tail) then e else best

/-- `m` is least among `start` and the entries of `xs`, and it is the first least of those, or `start` where every
one of them costs more. -/
structure FirstLeast {α : Type} (f : α → Entry) (start : Entry) (xs : List α) (m : Entry) : Prop where
  le_start : m.cost ≤ start.cost
  le_entry : ∀ x ∈ xs, m.cost ≤ (f x).cost
  first : (m = start ∧ ∀ x ∈ xs, start.cost < (f x).cost) ∨
    ∃ pre x post, xs = pre ++ x :: post ∧ m = f x ∧ ∀ y ∈ pre, m.cost < (f y).cost

/-- Updating from the literal-only tail finds the first least entry. -/
theorem firstLeast_foldl_updateBest {α : Type} {f : α → Entry} {start : Entry} (hstart : start.choice = .tail)
    (hf : ∀ x, (f x).choice ≠ .tail) (xs : List α) :
    FirstLeast f start xs (xs.foldl (fun best x => updateBest best (f x)) start) := by
  induction xs using List.reverseRecOn with
  | nil => exact ⟨le_rfl, fun _ h => absurd h List.not_mem_nil, .inl ⟨rfl, fun _ h => absurd h List.not_mem_nil⟩⟩
  | append_singleton xs x ih =>
    rw [List.foldl_append, List.foldl_cons, List.foldl_nil]
    generalize xs.foldl (fun best x => updateBest best (f x)) start = m at ih
    obtain ⟨hle, hall, hfirst⟩ := ih
    unfold updateBest
    split
    next htake =>
      have hx : (f x).cost ≤ m.cost := by omega
      refine ⟨hx.trans hle, ?_, .inr ⟨xs, x, [], rfl, rfl, fun y hy => ?_⟩⟩
      · rw [List.forall_mem_append, List.forall_mem_singleton]
        exact ⟨fun y hy => hx.trans (hall y hy), le_rfl⟩
      · rcases htake with hlt | ⟨heq, htail⟩
        · exact hlt.trans_le (hall y hy)
        · rcases hfirst with ⟨rfl, hmore⟩ | ⟨_, z, _, -, rfl, -⟩
          · exact heq.trans_lt (hmore y hy)
          · exact absurd htail (hf z)
    next hkeep =>
      obtain ⟨hge, hseq⟩ := not_or.mp hkeep
      refine ⟨hle, ?_, ?_⟩
      · rw [List.forall_mem_append, List.forall_mem_singleton]
        exact ⟨hall, Nat.le_of_not_lt hge⟩
      · rcases hfirst with ⟨rfl, hmore⟩ | ⟨pre, z, post, rfl, hz, hpre⟩
        · refine .inl ⟨rfl, ?_⟩
          rw [List.forall_mem_append, List.forall_mem_singleton]
          exact ⟨hmore, Nat.lt_of_le_of_ne (Nat.le_of_not_lt hge) fun h => hseq ⟨h.symm, hstart⟩⟩
        · exact .inr ⟨pre, z, post ++ [x], by rw [List.append_assoc, List.cons_append], hz, hpre⟩

/-! ## The entry of a position -/

/-- The entry of an option (R164). -/
def optionEntry (cands : List (List Cand)) (x : Nat × Cand) : Entry :=
  ⟨optionCost cands x.1 x.2, .seq x.1 x.2.off x.2.len⟩

/-- The entry of the literal-only tail (R164). -/
def tailEntry (cands : List (List Cand)) : Entry := ⟨Cmd.cost (.last cands.length), .tail⟩

/-- S and CHOICE of a position (R164), from its options in one pass. -/
def bestEntry (cands : List (List Cand)) : Entry :=
  (options cands).foldl (fun best x => updateBest best (optionEntry cands x)) (tailEntry cands)

theorem firstLeast_bestEntry (cands : List (List Cand)) :
    FirstLeast (optionEntry cands) (tailEntry cands) (options cands) (bestEntry cands) :=
  firstLeast_foldl_updateBest rfl (fun _ => Choice.noConfusion) _

/-- One candidate is weighed by the update of R164 where it is an option, and has no effect where it is none. -/
theorem consider_eq {cands : List (List Cand)} {r : Nat} {c : Cand} (hr : r < cands.length) (hc : 1 ≤ c.len)
    (best : Entry) :
    consider r ((parseTable cands.tail).drop r) best c =
      if r + c.len ≤ cands.length then updateBest best (optionEntry cands (r, c)) else best := by
  have hpos : cands.tail.length + 1 = cands.length := by
    rw [List.length_tail]
    omega
  have hsite : ((parseTable cands.tail).drop r)[c.len - 1]? = (parseTable cands.tail)[r + (c.len - 1)]? :=
    List.getElem?_drop
  split
  next hfit =>
    have hcost := parseTable_getElem?_cost (cands := cands.tail) (n := r + (c.len - 1)) (by omega)
    rw [List.drop_tail, show r + (c.len - 1) + 1 = r + c.len by omega] at hcost
    obtain ⟨e, he, hcost⟩ := Option.map_eq_some_iff.mp hcost
    simp only [consider, hsite, he, hcost]
    rfl
  next hout =>
    have hnone : (parseTable cands.tail)[r + (c.len - 1)]? = none := by
      rw [List.getElem?_eq_none_iff, length_parseTable]
      omega
    rw [consider, hsite, hnone]

/-- Weighing every site (R164) is one pass over the sites' candidates. -/
theorem bestOf_eq_foldl {cands : List (List Cand)} (h : SortedCands cands) {r : Nat} {cs : List (List Cand)}
    (hcs : cands.drop r = cs) (best : Entry) :
    bestOf r cs ((parseTable cands.tail).drop r) best =
      (sitesFrom r cs).foldl
        (fun best x => if x.1 + x.2.len ≤ cands.length then updateBest best (optionEntry cands x) else best) best := by
  induction cs generalizing r best with
  | nil => rfl
  | cons c cs ih =>
    have hr : r < cands.length := by
      by_contra hge
      rw [List.drop_eq_nil_of_le (Nat.le_of_not_lt hge)] at hcs
      exact List.cons_ne_nil c cs hcs.symm
    have hmem : c ∈ cands := List.mem_of_mem_drop (hcs ▸ List.mem_cons_self)
    have hrest : cands.drop (r + 1) = cs := by rw [← List.tail_drop, hcs, List.tail_cons]
    rw [bestOf, List.tail_drop, ih hrest, sitesFrom_cons, List.foldl_append, List.foldl_map]
    congr 1
    refine List.foldl_ext _ _ _ fun b e he => consider_eq hr ?_ b
    exact (h c hmem).2 e (List.mem_reverse.mp he)

/-- The table is the best entry of its position, and the table of the next. -/
theorem parseTable_cons {c : List Cand} {cs : List (List Cand)} (h : SortedCands (c :: cs)) :
    parseTable (c :: cs) = bestEntry (c :: cs) :: parseTable cs := by
  rw [bestEntry, options, List.foldl_filter]
  simp only [decide_eq_true_eq]
  exact congrArg (· :: parseTable cs) (bestOf_eq_foldl h (r := 0) rfl (tailEntry (c :: cs)))

theorem parseTable_eq {cands : List (List Cand)} (h : SortedCands cands) :
    parseTable cands = bestEntry cands :: (parseTable cands).tail := by
  cases cands with
  | nil => rfl
  | cons c cs => rw [parseTable_cons h, List.tail_cons]

theorem leastCost_eq {cands : List (List Cand)} (h : SortedCands cands) :
    leastCost cands = (bestEntry cands).cost := by
  rw [leastCost, parseTable_eq h]

theorem bestEntry_le_option {cands : List (List Cand)} {r : Nat} {c : Cand} (h : IsOption cands r c) :
    (bestEntry cands).cost ≤ optionCost cands r c :=
  (firstLeast_bestEntry cands).le_entry (r, c) (mem_options.mpr h)

/-- The entry of a position is the tail's where every option costs more, else that of the option which the
tie-break's order puts before the other least ones (R165). -/
theorem bestEntry_cases {cands : List (List Cand)} (h : SortedCands cands) :
    (bestEntry cands = tailEntry cands ∧ ∀ r c, IsOption cands r c → (tailEntry cands).cost < optionCost cands r c) ∨
    ∃ r c, IsOption cands r c ∧ bestEntry cands = optionEntry cands (r, c) ∧
      ∀ r' c', IsOption cands r' c' → optionCost cands r' c' = optionCost cands r c →
        (r', c') = (r, c) ∨ WeighedBefore (r, c) (r', c') := by
  obtain ⟨-, -, ⟨heq, hmore⟩ | ⟨pre, ⟨r, c⟩, post, hsplit, heq, hpre⟩⟩ := firstLeast_bestEntry cands
  · exact .inl ⟨heq, fun r c hopt => hmore (r, c) (mem_options.mpr hopt)⟩
  · have hopt : IsOption cands r c := mem_options.mp (hsplit ▸ List.mem_append_right pre List.mem_cons_self)
    refine .inr ⟨r, c, hopt, heq, fun r' c' hopt' hcost => ?_⟩
    have hmem := mem_options.mpr hopt'
    have hpairs := options_pairwise h
    rw [hsplit] at hmem hpairs
    obtain ⟨-, hpost, -⟩ := List.pairwise_append.mp hpairs
    rcases List.mem_append.mp hmem with hin | hin
    · have hless := hpre (r', c') hin
      rw [heq] at hless
      exact absurd hcost hless.ne'
    · exact (List.mem_cons.mp hin).imp_right (List.rel_of_pairwise_cons hpost)

/-- Settles O38: the head of the table is the first least entry, and the options stand in the tie-break's order. -/
theorem parseTableLeastAndFirst : Obligations.ParseTableLeastAndFirst := by
  unfold Obligations.ParseTableLeastAndFirst
  intro cands h
  refine ⟨bestEntry cands, (parseTable cands).tail, parseTable_eq h, fun hne => ?_, fun hnil => ?_,
    (firstLeast_bestEntry cands).le_start, fun r c => bestEntry_le_option, ?_⟩
  · obtain ⟨c, cs, rfl⟩ := List.exists_cons_of_ne_nil hne
    rfl
  · rw [hnil]
    rfl
  · obtain ⟨heq, hmore⟩ | ⟨r, c, hopt, heq, hfirst⟩ := bestEntry_cases h
    · rw [heq]
      exact ⟨rfl, hmore⟩
    · rw [heq]
      refine ⟨hopt, rfl, fun r' c' hopt' hcost => ?_⟩
      rcases hfirst r' c' hopt' hcost with hsame | hcount | ⟨hcount, hlen⟩
      · obtain ⟨rfl, rfl⟩ := Prod.mk.inj hsame
        exact .inr ⟨rfl, .inr ⟨rfl, le_rfl⟩⟩
      · exact .inl hcount
      · exact .inr ⟨hcount, .inl hlen⟩

end Sys2Proof.Machine
end

section
/-! Admissible parses (42_optimal_parser.md R161), and that the parse is one of least cost (R164, R166). -/

namespace Sys2Proof.Machine

/-! ## Admissible parses -/

theorem admissible_last_iff {cands : List (List Cand)} {r : Nat} :
    Admissible cands [.last r] ↔ r = cands.length := by
  rw [Admissible, admits, beq_iff_eq]

theorem contains_getD_iff {cands : List (List Cand)} {r : Nat} {c : Cand} :
    (cands.getD r []).contains c = true ↔ ∃ l, cands[r]? = some l ∧ c ∈ l := by
  rw [List.contains_iff_mem, List.getD_eq_getElem?_getD]
  cases cands[r]? <;> simp

/-- A sequence is an option of its position, and the rest a parse from where it ends. -/
theorem admissible_seq_iff {cands : List (List Cand)} {r o k : Nat} {cmds : List Cmd} :
    Admissible cands (.seq r o k :: cmds) ↔ IsOption cands r ⟨o, k⟩ ∧ Admissible (cands.drop (r + k)) cmds := by
  rw [Admissible, admits, Bool.and_eq_true, Bool.and_eq_true, contains_getD_iff, decide_eq_true_eq]
  rfl

/-- Induction over an admissible parse, sequence by sequence. -/
theorem admissible_induction {motive : ∀ cands cmds, Admissible cands cmds → Prop}
    (last : ∀ cands, motive cands [.last cands.length] (admissible_last_iff.mpr rfl))
    (seq : ∀ cands r o k cmds (hopt : IsOption cands r ⟨o, k⟩) (hrest : Admissible (cands.drop (r + k)) cmds),
      motive (cands.drop (r + k)) cmds hrest →
        motive cands (.seq r o k :: cmds) (admissible_seq_iff.mpr ⟨hopt, hrest⟩))
    {cands : List (List Cand)} {cmds : List Cmd} (h : Admissible cands cmds) : motive cands cmds h := by
  induction cmds generalizing cands with
  | nil => exact absurd h (by simp [admits])
  | cons cmd cmds ih =>
    cases cmd with
    | seq r o k =>
      obtain ⟨hopt, hrest⟩ := admissible_seq_iff.mp h
      exact seq cands r o k cmds hopt hrest (ih hrest)
    | last r =>
      cases cmds with
      | nil =>
        obtain rfl := admissible_last_iff.mp h
        exact last cands
      | cons cmd cmds => exact absurd h (by simp [admits])

/-- A parse spans the block (R168 (a)). -/
theorem Admissible.sum_span {cands : List (List Cand)} {cmds : List Cmd} (h : Admissible cands cmds) :
    (cmds.map Cmd.span).sum = cands.length := by
  induction h using admissible_induction with
  | last cands => rfl
  | seq cands r o k cmds hopt hrest ih =>
    have hfit : r + k ≤ cands.length := hopt.2
    rw [List.map_cons, List.sum_cons, ih, List.length_drop, Cmd.span]
    omega

/-! ## Costs -/

theorem SortedCands.drop {cands : List (List Cand)} (h : SortedCands cands) (n : Nat) :
    SortedCands (cands.drop n) :=
  fun c hc => h c (List.mem_of_mem_drop hc)

theorem parseCost_cons (cmd : Cmd) (cmds : List Cmd) : parseCost (cmd :: cmds) = cmd.cost + parseCost cmds := by
  rw [parseCost, List.map_cons, List.sum_cons, parseCost]

/-- No admissible parse costs less than `S` of its first position (R164). -/
theorem Admissible.leastCost_le {cands : List (List Cand)} {cmds : List Cmd} (h : Admissible cands cmds)
    (hsorted : SortedCands cands) : leastCost cands ≤ parseCost cmds := by
  induction h using admissible_induction with
  | last cands =>
    rw [leastCost_eq hsorted]
    exact (firstLeast_bestEntry cands).le_start
  | seq cands r o k cmds hopt hrest ih =>
    calc leastCost cands = (bestEntry cands).cost := leastCost_eq hsorted
      _ ≤ Cmd.cost (.seq r o k) + leastCost (cands.drop (r + k)) := bestEntry_le_option hopt
      _ ≤ Cmd.cost (.seq r o k) + parseCost cmds := Nat.add_le_add_left (ih (hsorted.drop _)) _
      _ = parseCost (.seq r o k :: cmds) := (parseCost_cons _ _).symm

/-! ## The parse -/

/-- The choices followed from the table of a position are the tail's, or an option's and those of the position
where its match ends. -/
theorem followChoices_cases {cands : List (List Cand)} (h : SortedCands cands) (fuel : Nat) :
    (followChoices (fuel + 1) (parseTable cands) = [.last cands.length] ∧
      leastCost cands = Cmd.cost (.last cands.length)) ∨
    ∃ r c, IsOption cands r c ∧ leastCost cands = optionCost cands r c ∧
      followChoices (fuel + 1) (parseTable cands) =
        .seq r c.off c.len :: followChoices fuel (parseTable (cands.drop (r + c.len))) := by
  have hlen : (parseTable cands).tail.length = cands.length := by
    rw [List.length_tail, length_parseTable, Nat.add_sub_cancel]
  rw [leastCost_eq h]
  obtain ⟨heq, -⟩ | ⟨r, c, hopt, heq, -⟩ := bestEntry_cases h
  · refine .inl ⟨?_, by rw [heq]; rfl⟩
    rw [parseTable_eq h, followChoices, heq, tailEntry, hlen]
  · refine .inr ⟨r, c, hopt, by rw [heq]; rfl, ?_⟩
    rw [← parseTable_drop hopt.2, parseTable_eq h, followChoices, heq, optionEntry]

theorem IsOption.len_pos {cands : List (List Cand)} (h : SortedCands cands) {r : Nat} {c : Cand}
    (hopt : IsOption cands r c) : 1 ≤ c.len := by
  obtain ⟨⟨l, hl, hc⟩, -⟩ := hopt
  exact (h l (List.mem_of_getElem? hl)).2 c hc

theorem followChoices_optimal {cands : List (List Cand)} (h : SortedCands cands) {fuel : Nat}
    (hfuel : cands.length < fuel) :
    Admissible cands (followChoices fuel (parseTable cands)) ∧
      parseCost (followChoices fuel (parseTable cands)) = leastCost cands := by
  induction fuel generalizing cands with
  | zero => exact absurd hfuel (Nat.not_lt_zero _)
  | succ fuel ih =>
    obtain ⟨hfollow, hcost⟩ | ⟨r, c, hopt, hcost, hfollow⟩ := followChoices_cases h fuel
    · rw [hfollow, hcost]
      exact ⟨admissible_last_iff.mpr rfl, rfl⟩
    · have hpos := hopt.len_pos h
      have hfit := hopt.2
      obtain ⟨hadm, hrest⟩ := ih (h.drop (r + c.len)) (by rw [List.length_drop]; omega)
      rw [hfollow, hcost, parseCost_cons, hrest]
      exact ⟨admissible_seq_iff.mpr ⟨hopt, hadm⟩, rfl⟩

/-- Settles O39: following the choices gives a parse that costs `S[0]`, and every parse costs at least that. -/
theorem parseIsOptimal : Obligations.ParseIsOptimal := by
  unfold Obligations.ParseIsOptimal
  intro cands h
  obtain ⟨hadm, hcost⟩ := followChoices_optimal h (Nat.lt_succ_self cands.length)
  exact ⟨hadm, hcost, fun cmds hcmds => hcmds.leastCost_le h⟩

end Sys2Proof.Machine
end

section
/-! The parse of a compress command and the encoder's check (42_optimal_parser.md R168, R169; 43_block_encoder.md
R188; log 15). -/

namespace Sys2Proof.Machine

/-! ## The check -/

theorem checkCmds_last_iff {par : Params} {p l i r : Nat} :
    checkCmds par p l i [.last r] = true ↔ i + r = l := by
  rw [checkCmds, beq_iff_eq]

theorem checkCmds_seq_iff {par : Params} {p l i r o k : Nat} {cmds : List Cmd} :
    checkCmds par p l i (.seq r o k :: cmds) = true ↔
      (par.minMatch ≤ k ∧ 1 ≤ o ∧ o ≤ par.maxOffset ∧ o ≤ p + (i + r) ∧ i + r + k + par.lastLiterals ≤ l) ∧
        checkCmds par p l (i + r + k) cmds = true := by
  simp only [checkCmds, Bool.and_eq_true, decide_eq_true_eq, and_assoc]

/-- A stream that passes the check ends in its one `LAST`, of LAST_LITERALS bytes or more where there is a match
(R168 (b), (d)). -/
theorem exists_last_of_checkCmds {par : Params} {p l i : Nat} {cmds : List Cmd}
    (h : checkCmds par p l i cmds = true) :
    ∃ (init : List Cmd) (r : Nat), cmds = init ++ [.last r] ∧ (∀ c ∈ init, ∃ r o k, c = .seq r o k) ∧
      (init ≠ [] → par.lastLiterals ≤ r) := by
  induction cmds generalizing i with
  | nil => exact absurd h (by simp [checkCmds])
  | cons cmd cmds ih =>
    cases cmd with
    | seq r o k =>
      obtain ⟨⟨-, -, -, -, htail⟩, hrest⟩ := checkCmds_seq_iff.mp h
      obtain ⟨init, r', rfl, hinit, hlast⟩ := ih hrest
      refine ⟨.seq r o k :: init, r', rfl, List.forall_mem_cons.mpr ⟨⟨r, o, k, rfl⟩, hinit⟩, fun _ => ?_⟩
      rcases eq_or_ne init [] with rfl | hne
      · have hend := checkCmds_last_iff.mp hrest
        omega
      · exact hlast hne
    | last r =>
      cases cmds with
      | nil => exact ⟨[], r, rfl, fun _ h => absurd h List.not_mem_nil, fun h => absurd rfl h⟩
      | cons cmd cmds => exact absurd h (by simp [checkCmds])

theorem encodeBlock_ne_internal {par : Params} {p : Nat} {blk : List Byte} {cmds : List Cmd}
    (h : checkCmds par p blk.length 0 cmds = true) : encodeBlock par p blk cmds ≠ .internal := by
  rw [encodeBlock, if_pos h, encResult]
  split <;> exact EncResult.noConfusion

/-! ## Parses over the match-finder's lists -/

section

variable {par : Params} {wd : List Byte} {p : Nat}

theorem sortedCands_matchCandidates (hmin : 0 < par.minMatch) : SortedCands (matchCandidates par wd p) := by
  intro c hc
  obtain ⟨i, hi⟩ := List.mem_iff_getElem?.mp hc
  obtain ⟨-, rfl⟩ := matchCandidates_getElem? hi
  refine ⟨keptAt_pairwise.sublist (capList_sublist par.nCand _), fun e he => ?_⟩
  obtain ⟨-, -, -, hlen, -⟩ := (isEntry_of_mem_candidatesAt hmin he).bounds hmin
  exact hmin.trans_le hlen

/-- An option of a block position is an entry of its match site. -/
theorem isEntry_of_isOption_drop (hmin : 0 < par.minMatch) {i r : Nat} {c : Cand}
    (h : IsOption ((matchCandidates par wd p).drop i) r c) : IsEntry par wd (p + (i + r)) c := by
  obtain ⟨⟨l, hl, hc⟩, -⟩ := h
  rw [List.getElem?_drop] at hl
  obtain ⟨-, rfl⟩ := matchCandidates_getElem? hl
  exact isEntry_of_mem_candidatesAt hmin hc

/-- The match-finder's lists enforce what the check asks for (R168 (c), (d); 41_match_finder.md R152). -/
theorem checkCmds_of_admissible (hmin : 0 < par.minMatch) {i : Nat} {cmds : List Cmd}
    (hi : i ≤ wd.length - p) (h : Admissible ((matchCandidates par wd p).drop i) cmds) :
    checkCmds par p (wd.length - p) i cmds = true := by
  generalize hcands : (matchCandidates par wd p).drop i = cands at h
  induction h using admissible_induction generalizing i with
  | last cands =>
    rw [checkCmds_last_iff, ← hcands, List.length_drop, length_matchCandidates]
    omega
  | seq cands r o k cmds hopt hrest ih =>
    subst hcands
    obtain ⟨hpos, hmax, hstart, hlo, -, htail⟩ := (isEntry_of_isOption_drop hmin hopt).bounds hmin
    dsimp only at htail
    have hfit : i + r + k + par.lastLiterals ≤ wd.length - p := by omega
    refine checkCmds_seq_iff.mpr ⟨⟨hlo, hpos, hmax, hstart, hfit⟩, ih (by omega) ?_⟩
    rw [List.drop_drop, Nat.add_assoc]

end

/-! ## The parse a command runs -/

theorem parseBy_of_parses_eq_nil {par : Params} (h : par.parses = []) (cands : List (List Cand)) :
    parseBy par cands = parse cands := by
  rw [parseBy, h]
  rfl

/-- The parse of a command is admissible, the parameter's (R169) as well as the least-cost one. -/
theorem admissible_parseBy {par : Params} (hpar : par.Legal) {cands : List (List Cand)} (h : SortedCands cands) :
    Admissible cands (parseBy par cands) := by
  obtain ⟨-, -, -, -, -, -, -, -, -, -, -, -, -, hparses⟩ := hpar
  rw [parseBy]
  rcases hlookup : par.parses.lookup cands with _ | cmds
  · exact (parseIsOptimal cands h).1
  · obtain ⟨pre, post, hsplit, -⟩ := List.lookup_eq_some_iff.mp hlookup
    exact hparses (cands, cmds) (hsplit ▸ List.mem_append_right pre List.mem_cons_self)

/-- Settles O40: the parse is admissible over the match-finder's lists, so it passes the check, and a stream that
passes has the form of a parse. -/
theorem engineParsePassesCheck : Obligations.EngineParsePassesCheck := by
  unfold Obligations.EngineParsePassesCheck
  rintro par wd p cmds hpar - rfl
  have hmin : 0 < par.minMatch := by rw [hpar.1]; decide
  have hsorted : SortedCands (matchCandidates par wd p) := sortedCands_matchCandidates hmin
  have hadm := admissible_parseBy hpar hsorted
  have hcheck := checkCmds_of_admissible hmin (Nat.zero_le _) hadm
  refine ⟨hadm, hadm.sum_span.trans (length_matchCandidates par wd p), exists_last_of_checkCmds hcheck, hcheck,
    encodeBlock_ne_internal (by rwa [List.length_drop]), fun hdefault => ?_⟩
  obtain ⟨-, hcost, hleast⟩ := parseIsOptimal _ hsorted
  rw [parseBy_of_parses_eq_nil hdefault, hcost]
  exact ⟨rfl, hleast⟩

end Sys2Proof.Machine
end

section
/-! The length of a payload (42_optimal_parser.md R163, 30_encoding.md R86). -/

namespace Sys2Proof.Machine

theorem length_assemble_emitRunOf (v : Nat) : (assemble (emitRunOf v)).length = extraRunBytes v := by
  rw [emitRunOf, extraRunBytes]
  split
  next hlong => rw [if_neg (Nat.not_lt.mpr hlong), assemble_emitRun_length]
  next hshort => rw [if_pos (Nat.lt_of_not_le hshort)]; rfl

theorem length_assemble_cons (i : Instr) (is : List Instr) :
    (assemble (i :: is)).length = (encode i).length + (assemble is).length :=
  List.length_append

theorem length_assemble_emitLast (r : Nat) (lits : List Byte) :
    (assemble (emitLast r lits)).length = 1 + extraRunBytes r + lits.length := by
  simp only [emitLast, assemble_append, List.length_append, length_assemble_cons, length_assemble_emitRunOf]
  rfl

theorem length_assemble_emitSeq (r o k : Nat) (lits : List Byte) :
    (assemble (emitSeq r o k lits)).length =
      1 + extraRunBytes r + lits.length + 2 + extraRunBytes (k - 4) := by
  simp only [emitSeq, assemble_append, List.length_append, length_assemble_cons, length_assemble_emitRunOf]
  simp only [encode, assemble, List.length_cons, List.length_nil, List.flatMap_nil]
  omega

/-- A sequence within the block adds its cost to the payload (R162). -/
theorem length_assemble_emitCmd {cmd : Cmd} {blk : List Byte} (h : cmd.span ≤ blk.length) :
    (assemble (emitCmd cmd blk)).length = cmd.cost := by
  cases cmd with
  | seq r o k =>
    have hlits : (blk.take r).length = r := List.length_take_of_le ((Nat.le_add_right r k).trans h)
    rw [emitCmd, length_assemble_emitSeq, hlits, Cmd.cost]
    omega
  | last r =>
    have hlits : (blk.take r).length = r := List.length_take_of_le h
    rw [emitCmd, length_assemble_emitLast, hlits, Cmd.cost, Nat.add_right_comm]

theorem length_assemble_emitCmds {cmds : List Cmd} {blk : List Byte} (h : (cmds.map Cmd.span).sum ≤ blk.length) :
    (assemble (emitCmds cmds blk)).length = parseCost cmds := by
  induction cmds generalizing blk with
  | nil => rfl
  | cons cmd cmds ih =>
    rw [List.map_cons, List.sum_cons] at h
    rw [emitCmds, assemble_append, List.length_append, length_assemble_emitCmd (by omega),
      ih (by rw [List.length_drop]; omega), parseCost_cons]

theorem cost_seq_eq_seqLen (r o k : Nat) : Cmd.cost (.seq r o k) = seqLen r k := by
  rw [Cmd.cost, seqLen, Nat.add_right_comm 1 r]

theorem cost_last_eq_lastLen (r : Nat) : Cmd.cost (.last r) = lastLen r := by
  rw [Cmd.cost, lastLen, Nat.add_right_comm 1 r]

/-- Settles O42: sequence by sequence, for the payload and for the sum. -/
theorem payloadLengthIsCost : Obligations.PayloadLengthIsCost := by
  unfold Obligations.PayloadLengthIsCost
  intro cmds blk h
  refine ⟨length_assemble_emitCmds h, congrArg List.sum (List.map_congr_left fun cmd _ => ?_)⟩
  cases cmd with
  | seq r o k => exact cost_seq_eq_seqLen r o k
  | last r => exact cost_last_eq_lastLen r

end Sys2Proof.Machine
end

section
/-! The bytes of one sequence (43_block_encoder.md R181 to R186). -/

namespace Sys2Proof.Machine

theorem nibble_toNat (v : Nat) : (nibble v).toNat = min v 15 :=
  Nat.mod_eq_of_lt (by omega)

/-- The token of two lengths (30_encoding.md R81, R82, R84). -/
theorem nibble_append_nibble (r m : Nat) :
    nibble r ++ nibble m = BitVec.ofNat 8 (16 * min r 15 + min m 15) := by
  apply BitVec.eq_of_toNat_eq
  rw [BitVec.toNat_append, ← Nat.shiftLeft_add_eq_or_of_lt (BitVec.isLt _), Nat.shiftLeft_eq, nibble_toNat,
    nibble_toNat, BitVec.toNat_ofNat]
  omega

/-- The token of a `LAST` has match nibble 0 (R186). -/
theorem nibble_append_zero (r : Nat) : nibble r ++ 0#4 = BitVec.ofNat 8 (16 * min r 15) :=
  nibble_append_nibble r 0

theorem assemble_emitRunOf (v : Nat) :
    assemble (emitRunOf v) =
      if 15 ≤ v then List.replicate ((v - 15) / 255) 0xFF ++ [BitVec.ofNat 8 ((v - 15) % 255)] else [] := by
  rw [emitRunOf, apply_ite assemble, assemble_emitRun]
  rfl

theorem assemble_emitSeq (r o k : Nat) (lits : List Byte) :
    assemble (emitSeq r o k lits) =
      [BitVec.ofNat 8 (16 * min r 15 + min (k - 4) 15)] ++ assemble (emitRunOf r) ++
        (lits ++ [BitVec.ofNat 8 (o % 256), BitVec.ofNat 8 (o / 256)]) ++ assemble (emitRunOf (k - 4)) := by
  rw [emitSeq, assemble_append, assemble_append, assemble_append, ← nibble_append_nibble]
  rfl

theorem assemble_emitLast (r : Nat) (lits : List Byte) :
    assemble (emitLast r lits) =
      [BitVec.ofNat 8 (16 * min r 15)] ++ assemble (emitRunOf r) ++ lits := by
  rw [emitLast, assemble_append, assemble_append, ← nibble_append_zero]
  exact congrArg _ (List.append_nil lits)

/-- Settles O41: the token's nibbles, the two runs, and the elements one after another. -/
theorem sequenceBytes : Obligations.SequenceBytes := by
  unfold Obligations.SequenceBytes
  intro r o k blk
  rw [emitCmd, assemble_emitSeq, emitCmd, assemble_emitLast, assemble_emitRunOf, assemble_emitRunOf,
    Nat.sub_sub k 4 15, List.append_assoc _ (blk.take r)]
  exact ⟨rfl, rfl⟩

end Sys2Proof.Machine
end

section
/-! What the encoder returns (43_block_encoder.md R187 to R190): its check is the five checks of R188, and a block
without candidates does not compress (R189). -/

namespace Sys2Proof.Machine

/-! ## The five checks, sequence by sequence -/

section

variable {par : Params} {p l : Nat}

theorem ChecksPass.ne_nil {cmds : List Cmd} (h : ChecksPass par p l cmds) : cmds ≠ [] := by
  obtain ⟨init, r, rfl, -⟩ := h.oneLast
  exact List.append_ne_nil_of_right_ne_nil init (List.cons_ne_nil _ _)

/-- Nothing follows the `LAST`. -/
theorem ChecksPass.eq_nil_of_last {r : Nat} {cmds : List Cmd} (h : ChecksPass par p l (.last r :: cmds)) :
    cmds = [] := by
  obtain ⟨init, r', heq, hinit⟩ := h.oneLast
  obtain ⟨-, hend⟩ | ⟨init', rfl, -⟩ := List.cons_eq_append_iff.mp heq
  · exact (List.cons.inj hend).2.symm
  · obtain ⟨_, _, _, hseq⟩ := hinit _ List.mem_cons_self
    cases hseq

theorem seq_not_mem_last {r r' o k : Nat} : Cmd.seq r' o k ∉ [Cmd.last r] := by
  rw [List.mem_singleton]
  exact Cmd.noConfusion

theorem checksPass_last_iff {r : Nat} : ChecksPass par p l [.last r] ↔ r = l := by
  refine ⟨fun h => h.conserved, ?_⟩
  rintro rfl
  have hsplit : ∀ {pre post : List Cmd} {r' o k : Nat}, [Cmd.last r] ≠ pre ++ .seq r' o k :: post :=
    fun heq => seq_not_mem_last (heq.symm ▸ List.mem_append_right _ List.mem_cons_self)
  exact {
    oneLast := ⟨[], r, rfl, fun _ h => absurd h List.not_mem_nil⟩
    lengths := fun _ _ _ h => absurd h seq_not_mem_last
    offsets := fun _ _ _ _ _ h => absurd h hsplit
    tail := fun _ _ _ _ _ h => absurd h hsplit
    conserved := rfl }

theorem sum_span_seq_cons (r o k : Nat) (cmds : List Cmd) :
    ((Cmd.seq r o k :: cmds).map Cmd.span).sum = r + k + (cmds.map Cmd.span).sum := by
  rw [List.map_cons, List.sum_cons, Cmd.span]

section

variable {r o k : Nat} {cmds : List Cmd}

theorem ChecksPass.head_of_seq (h : ChecksPass par p l (.seq r o k :: cmds)) :
    par.minMatch ≤ k ∧ 1 ≤ o ∧ o ≤ par.maxOffset ∧ o ≤ p + r ∧ r + k + par.lastLiterals ≤ l := by
  obtain ⟨hpos, hmax, hstart⟩ := h.offsets [] r o k cmds rfl
  have htail := h.tail [] r o k cmds rfl
  rw [List.map_nil, List.sum_nil, Nat.zero_add] at hstart htail
  exact ⟨h.lengths r o k List.mem_cons_self, hpos, hmax, hstart, htail⟩

/-- The rest of a stream passes for the rest of the block, the bytes of its first sequence being prefix now. -/
theorem ChecksPass.rest_of_seq (h : ChecksPass par p l (.seq r o k :: cmds)) :
    ChecksPass par (p + (r + k)) (l - (r + k)) cmds where
  oneLast := by
    obtain ⟨init, r', heq, hinit⟩ := h.oneLast
    obtain ⟨-, hend⟩ | ⟨init', rfl, hrest⟩ := List.cons_eq_append_iff.mp heq
    · cases hend
    · exact ⟨init', r', hrest, fun c hc => hinit c (List.mem_cons_of_mem _ hc)⟩
  lengths r' o' k' hmem := h.lengths r' o' k' (List.mem_cons_of_mem _ hmem)
  offsets pre r' o' k' post hsplit := by
    have hoff := h.offsets (.seq r o k :: pre) r' o' k' post (congrArg (List.cons _) hsplit)
    rw [sum_span_seq_cons] at hoff
    omega
  tail pre r' o' k' post hsplit := by
    have hfit := h.tail (.seq r o k :: pre) r' o' k' post (congrArg (List.cons _) hsplit)
    rw [sum_span_seq_cons] at hfit
    omega
  conserved := by
    have hsum := h.conserved
    rw [sum_span_seq_cons] at hsum
    omega

/-- A sequence that stays inside the block, before a stream that passes for the rest of it. -/
theorem ChecksPass.seq_cons (hmin : par.minMatch ≤ k) (hoff : 1 ≤ o ∧ o ≤ par.maxOffset ∧ o ≤ p + r)
    (hfit : r + k + par.lastLiterals ≤ l) (h : ChecksPass par (p + (r + k)) (l - (r + k)) cmds) :
    ChecksPass par p l (.seq r o k :: cmds) where
  oneLast := by
    obtain ⟨init, r', rfl, hinit⟩ := h.oneLast
    exact ⟨.seq r o k :: init, r', rfl, List.forall_mem_cons.mpr ⟨⟨r, o, k, rfl⟩, hinit⟩⟩
  lengths r' o' k' hmem := by
    obtain heq | hmem := List.mem_cons.mp hmem
    · cases heq
      exact hmin
    · exact h.lengths r' o' k' hmem
  offsets pre r' o' k' post hsplit := by
    obtain ⟨rfl, heq⟩ | ⟨pre, rfl, hrest⟩ := List.cons_eq_append_iff.mp hsplit
    · cases heq
      rwa [List.map_nil, List.sum_nil, Nat.zero_add]
    · have hoff' := h.offsets pre r' o' k' post hrest
      rw [sum_span_seq_cons]
      omega
  tail pre r' o' k' post hsplit := by
    obtain ⟨rfl, heq⟩ | ⟨pre, rfl, hrest⟩ := List.cons_eq_append_iff.mp hsplit
    · cases heq
      rwa [List.map_nil, List.sum_nil, Nat.zero_add]
    · have hfit' := h.tail pre r' o' k' post hrest
      rw [sum_span_seq_cons]
      omega
  conserved := by
    have hsum := h.conserved
    rw [sum_span_seq_cons]
    omega

end

theorem checksPass_seq_iff {r o k : Nat} {cmds : List Cmd} :
    ChecksPass par p l (.seq r o k :: cmds) ↔
      (par.minMatch ≤ k ∧ 1 ≤ o ∧ o ≤ par.maxOffset ∧ o ≤ p + r ∧ r + k + par.lastLiterals ≤ l) ∧
        ChecksPass par (p + (r + k)) (l - (r + k)) cmds :=
  ⟨fun h => ⟨h.head_of_seq, h.rest_of_seq⟩,
    fun ⟨⟨hmin, hpos, hmax, hstart, hfit⟩, h⟩ => h.seq_cons hmin ⟨hpos, hmax, hstart⟩ hfit⟩

/-- The encoder's check from position `i` on is the five checks with the first `i` bytes in the prefix. -/
theorem checkCmds_iff_checksPass {i : Nat} {cmds : List Cmd} :
    checkCmds par p l i cmds = true ↔ i ≤ l ∧ ChecksPass par (p + i) (l - i) cmds := by
  induction cmds generalizing i with
  | nil => exact iff_of_false (by simp [checkCmds]) fun h => h.2.ne_nil rfl
  | cons cmd cmds ih =>
    cases cmd with
    | seq r o k =>
      rw [checkCmds_seq_iff, checksPass_seq_iff, ih]
      simp only [Nat.add_assoc, Nat.sub_sub]
      constructor
      · rintro ⟨⟨hmin, hpos, hmax, hstart, htail⟩, -, hrest⟩
        exact ⟨by omega, ⟨hmin, hpos, hmax, hstart, by omega⟩, hrest⟩
      · rintro ⟨hi, ⟨hmin, hpos, hmax, hstart, htail⟩, hrest⟩
        exact ⟨⟨hmin, hpos, hmax, hstart, by omega⟩, by omega, hrest⟩
    | last r =>
      cases cmds with
      | nil =>
        rw [checkCmds_last_iff, checksPass_last_iff]
        omega
      | cons cmd cmds =>
        exact iff_of_false (by simp [checkCmds]) fun h => List.cons_ne_nil _ _ h.2.eq_nil_of_last

end

/-! ## The result -/

section

variable {par : Params} {p : Nat} {blk : List Byte} {cmds : List Cmd}

theorem encodeBlock_of_checksPass (h : ChecksPass par p blk.length cmds) :
    encodeBlock par p blk cmds = encResult blk.length (assemble (emitCmds cmds blk)) :=
  if_pos (checkCmds_iff_checksPass.mpr ⟨Nat.zero_le _, h⟩)

theorem encodeBlock_eq_internal_iff :
    encodeBlock par p blk cmds = .internal ↔ ¬ ChecksPass par p blk.length cmds := by
  constructor
  · exact fun h hpass => encodeBlock_ne_internal (checkCmds_iff_checksPass.mpr ⟨Nat.zero_le _, hpass⟩) h
  · exact fun h => if_neg fun hcheck => h (checkCmds_iff_checksPass.mp hcheck).2

/-- Any other result is the incompressibility rule's on a stream that passes. -/
theorem encodeBlock_eq_iff {res : EncResult} (hres : res ≠ .internal) :
    encodeBlock par p blk cmds = res ↔
      ChecksPass par p blk.length cmds ∧ encResult blk.length (assemble (emitCmds cmds blk)) = res := by
  by_cases h : ChecksPass par p blk.length cmds
  · rw [encodeBlock_of_checksPass h, and_iff_right h]
  · rw [encodeBlock_eq_internal_iff.mpr h]
    exact iff_of_false hres.symm fun hpass => h hpass.1

end

theorem encResult_eq_incompressible_iff {l : Nat} {payload : List Byte} :
    encResult l payload = .incompressible ↔ l < payload.length := by
  rw [encResult]
  split
  next hlong => exact iff_of_true rfl hlong
  next hfits => exact iff_of_false EncResult.noConfusion hfits

theorem encResult_eq_payload_iff {l : Nat} {payload bytes : List Byte} :
    encResult l payload = .payload bytes ↔ payload.length ≤ l ∧ bytes = payload := by
  refine ⟨fun h => (encResult_payload h).symm, ?_⟩
  rintro ⟨hlen, rfl⟩
  exact if_neg (Nat.not_lt.mpr hlen)

theorem assemble_emitCmds_cons (cmd : Cmd) (cmds : List Cmd) (blk : List Byte) :
    assemble (emitCmds (cmd :: cmds) blk) =
      assemble (emitCmd cmd blk) ++ assemble (emitCmds cmds (blk.drop cmd.span)) :=
  assemble_append _ _

/-! ## The literal-only parse (R189) -/

theorem parseCost_last (r : Nat) : parseCost [.last r] = lastLen r :=
  (parseCost_cons _ _).trans (cost_last_eq_lastLen r)

theorem lt_lastLen (r : Nat) : r < lastLen r := by
  unfold lastLen
  omega

theorem encodeBlock_last (par : Params) (p : Nat) (blk : List Byte) :
    encodeBlock par p blk [.last blk.length] = .incompressible := by
  have hlen : (assemble (emitCmds [.last blk.length] blk)).length = lastLen blk.length :=
    (length_assemble_emitCmds (cmds := [.last blk.length]) (Nat.le_refl blk.length)).trans (parseCost_last _)
  rw [encodeBlock_of_checksPass (checksPass_last_iff.mpr rfl), encResult_eq_incompressible_iff, hlen]
  exact lt_lastLen _

theorem not_isOption_replicate_nil {n r : Nat} {c : Cand} : ¬ IsOption (List.replicate n []) r c := by
  rintro ⟨⟨l, hl, hc⟩, -⟩
  rw [List.eq_of_mem_replicate (List.mem_of_getElem? hl)] at hc
  exact List.not_mem_nil hc

/-- Without candidates there is no parse but the literal-only one. -/
theorem Admissible.eq_last_of_replicate_nil {n : Nat} {cmds : List Cmd}
    (h : Admissible (List.replicate n []) cmds) : cmds = [.last n] := by
  generalize hcands : List.replicate n [] = cands at h
  induction h using admissible_induction with
  | last cands => rw [← hcands, List.length_replicate]
  | seq cands r o k cmds hopt => exact absurd (hcands ▸ hopt) not_isOption_replicate_nil

theorem sortedCands_replicate_nil (n : Nat) : SortedCands (List.replicate n []) := by
  intro c hc
  rw [List.eq_of_mem_replicate hc]
  exact ⟨List.Pairwise.nil, fun _ he => absurd he List.not_mem_nil⟩

/-- Settles O43: the encoder's check is the five checks, and a block without candidates has the literal-only parse
alone, which is longer than the block. -/
theorem encoderSizeBound : Obligations.EncoderSizeBound := by
  unfold Obligations.EncoderSizeBound
  intro par p blk bytes cmds
  have hnone : ∀ cs, Admissible (List.replicate blk.length []) cs → encodeBlock par p blk cs = .incompressible := by
    intro cs hcs
    rw [hcs.eq_last_of_replicate_nil]
    exact encodeBlock_last par p blk
  refine ⟨encodeBlock_eq_internal_iff, ?_, ?_, rfl, fun c cs => ?_, fun h => (encodeBlock_payload h).2.2,
    parseCost_last _, lt_lastLen _, fun cands h => admissible_last_iff.mpr h.symm, encodeBlock_last par p blk, hnone,
    hnone _ (parseIsOptimal _ (sortedCands_replicate_nil _)).1⟩
  · rw [encodeBlock_eq_iff EncResult.noConfusion, encResult_eq_incompressible_iff]
  · rw [encodeBlock_eq_iff EncResult.noConfusion, encResult_eq_payload_iff]
  · rw [assemble_emitCmds_cons]
    cases c <;> rfl

end Sys2Proof.Machine
end

section
/-! The elements of a payload, one by one, as the decode datapath reads them (44_block_decoder.md R201 to R209; log 6,
log 9, log 27). -/

namespace Sys2Proof.Machine

/-! ## Runs (R202) -/

theorem readRun_eq_some_iff {bs r : List Byte} {v : Nat} :
    readRun bs = some (v, r) ↔
      ∃ (c : Nat) (e : Byte), bs = List.replicate c 0xFF ++ e :: r ∧ e ≠ 0xFF ∧ v = 255 * c + e.toNat := by
  constructor
  · intro h
    induction bs generalizing v with
    | nil => cases h
    | cons b bs ih =>
      rw [readRun] at h
      split at h
      next hb =>
        obtain ⟨⟨v', r'⟩, hrest, heq⟩ := Option.map_eq_some_iff.mp h
        cases heq
        obtain ⟨c, e, rfl, he, rfl⟩ := ih hrest
        exact ⟨c + 1, e, by rw [hb]; rfl, he, by omega⟩
      next hb =>
        cases h
        exact ⟨0, b, rfl, hb, by omega⟩
  · rintro ⟨c, e, rfl, he, rfl⟩
    exact readRun_replicate c e r he

theorem readRun_eq_none_iff {bs : List Byte} : readRun bs = none ↔ ∀ b ∈ bs, b = 0xFF := by
  induction bs with
  | nil => exact iff_of_true rfl fun _ h => absurd h List.not_mem_nil
  | cons b bs ih =>
    rw [readRun, List.forall_mem_cons, ← ih]
    split
    next hb => rw [Option.map_eq_none_iff, and_iff_right hb]
    next hb => exact iff_of_false (Option.some_ne_none _) fun h => hb h.1

/-! ## A turn of the datapath -/

section

variable {s : State} {ld : Desc} {ip : Nat} {p : DecPos} {win : List Byte} (h : s.Decodes ld ip p win)
include h

/-- With the bytes `bs` left of the payload, the datapath runs the element it reads from them. -/
theorem engine_decodes {i : Instr} {bs r : List Byte} (hbs : s.mem.readRange (ld.inp + ip) (ld.n - ip) = bs)
    (hi : decode p.pos bs = .ok (i, r)) : agentStep .engine s = exec i s := by
  rw [agentStep_engine, engineNext, show s.eng.phase = _ from h]
  dsimp only
  rw [hbs, runNext, hi]

/-- Where no element stands in the bytes left, the command fails by the place's name (R212). -/
theorem engine_truncated {bs : List Byte} (hbs : s.mem.readRange (ld.inp + ip) (ld.n - ip) = bs)
    (hturn : decoderTurn ld ⟨ip, p, win⟩ bs s = failDecode ld p.truncation ip s) :
    ∃ t, agentStep .engine s = .next t ∧ Failed s ld p.truncation ip t := by
  refine ⟨_, engine_decoding h, ?_⟩
  rw [hbs, hturn]
  exact failDecode_failed ld p.truncation ip s

end

/-- At the payload's end nothing is left. -/
theorem readRange_at_end (s : State) {ld : Desc} {ip : Nat} (h : ip = ld.n) :
    s.mem.readRange (ld.inp + ip) (ld.n - ip) = [] := by
  rw [h, Nat.sub_self]
  rfl

/-! ## The token (R201) -/

theorem readToken_next {s : State} {ld : Desc} {ip : Nat} {win : List Byte} (h : s.Decodes ld ip .token win)
    (ln mn : BitVec 4) : readToken ln mn s = .next (s.withDec ld (ip + 1) (afterToken ln mn) win) :=
  withDecoder_decoding h _

/-- Settles O23: SEQ and LAST both read a token. -/
theorem tokenRead : Obligations.TokenRead := by
  unfold Obligations.TokenRead
  intro s ld ip win h
  refine ⟨readToken_next h, fun ln => readToken_next h ln 0, fun hend => ?_, fun b bs hbs => ?_⟩
  · exact engine_truncated h (readRange_at_end s hend) rfl
  · rw [engine_decoding h, hbs]
    rfl

/-! ## Runs, byte by byte (R202, R207) -/

section

variable {s : State} {ld : Desc} {ip : Nat} {win : List Byte}

section

variable {mn : BitVec 4} {sum : Nat} (h : s.Decodes ld ip (.litRun mn sum) win)
include h

theorem execRunFf_litRun : execRunFf s = .next (s.withDec ld (ip + 1) (.litRun mn (sum + 255)) win) :=
  withDecoder_decoding h _

theorem execRunEnd_litRun (e : Byte) :
    execRunEnd e s = .next (s.withDec ld (ip + 1) (.literals mn (15 + (sum + e.toNat))) win) :=
  withDecoder_decoding h _

end

section

variable {off sum : Nat} (h : s.Decodes ld ip (.matchRun off sum) win)
include h

theorem execRunFf_matchRun : execRunFf s = .next (s.withDec ld (ip + 1) (.matchRun off (sum + 255)) win) :=
  withDecoder_decoding h _

theorem execRunEnd_matchRun (e : Byte) :
    execRunEnd e s = .next (matchOrFail ld (ip + 1) off (19 + (sum + e.toNat)) win s) :=
  withDecoder_decoding h _

end

end

/-- Settles O24: a run byte is RUN_FF or RUN_END by its value, in both runs; and on byte strings, by induction on
the run. -/
theorem runRead : Obligations.RunRead := by
  unfold Obligations.RunRead
  refine ⟨fun s ld ip sum win mn h => ?_, fun s ld ip off sum win h => ?_, fun _ _ _ => readRun_eq_some_iff,
    fun _ => readRun_eq_none_iff⟩
  · exact ⟨execRunFf_litRun h, execRunEnd_litRun h, fun hend => engine_truncated h (readRange_at_end s hend) rfl,
      fun b bs hbs => engine_decodes h hbs rfl⟩
  · exact ⟨execRunFf_matchRun h, fun hend => engine_truncated h (readRange_at_end s hend) rfl,
      fun b bs hbs => engine_decodes h hbs rfl⟩

/-! ## The match once its length is known (R207, R209) -/

section

variable (s : State) {ld : Desc} {ip off len : Nat} {win : List Byte}

theorem matchOrFail_oversize (h : ld.cap < win.length - ld.P + len) :
    Failed s ld .oversize ip (matchOrFail ld ip off len win s) := by
  rw [matchOrFail, if_pos h]
  exact failDecode_failed ld .oversize ip s

theorem matchOrFail_copies (h : win.length - ld.P + len ≤ ld.cap) :
    matchOrFail ld ip off len win s = s.withDec ld ip .token (copyMatch win off len) :=
  if_neg (Nat.not_lt.mpr h)

end

/-- Settles O27: the run's value is the match length's. -/
theorem matchRunEnd : Obligations.MatchRunEnd := by
  unfold Obligations.MatchRunEnd
  intro s ld ip off sum win e h
  refine ⟨fun hbig => ⟨_, execRunEnd_matchRun h e, matchOrFail_oversize s hbig⟩, fun hfits => ?_⟩
  exact (execRunEnd_matchRun h e).trans (congrArg _ (matchOrFail_copies s hfits))

/-! ## The offset (R205, R206) -/

section

variable {s : State} {ld : Desc} {ip : Nat} {win : List Byte} {mn : BitVec 4} {lo hi : Byte}
  (h : s.Decodes ld ip (.offset mn) win)
include h

theorem execOffset16_bad (hbad : le16 lo hi = 0 ∨ win.length < le16 lo hi) :
    execOffset16 lo hi s = .next (failDecode ld .badOffset (ip + 2) s) :=
  (withDecoder_decoding h _).trans (if_pos hbad)

theorem execOffset16_good (hpos : le16 lo hi ≠ 0) (hoff : le16 lo hi ≤ win.length) :
    execOffset16 lo hi s = .next (afterOffset ld (ip + 2) (le16 lo hi) mn win s) :=
  (withDecoder_decoding h _).trans (if_neg (not_or.mpr ⟨hpos, Nat.not_lt.mpr hoff⟩))

end

/-- Settles O26: the offset's check, then the match run or the match. -/
theorem offsetRead : Obligations.OffsetRead := by
  unfold Obligations.OffsetRead
  intro s ld ip win mn h
  refine ⟨?_, ?_⟩
  · rintro lo hi _ rfl
    refine ⟨fun hbad => ⟨_, execOffset16_bad h hbad, failDecode_failed ..⟩, fun hpos hoff hmn => ?_,
      fun hpos hoff hmn hbig => ⟨_, execOffset16_good h hpos hoff, ?_⟩, fun hpos hoff hmn hfits => ?_⟩
    · exact (execOffset16_good h hpos hoff).trans (congrArg _ (if_pos hmn))
    · rw [afterOffset, if_neg hmn]
      exact matchOrFail_oversize s hbig
    · refine (execOffset16_good h hpos hoff).trans (congrArg _ ?_)
      rw [afterOffset, if_neg hmn]
      exact matchOrFail_copies s hfits
  · rintro _ rfl
    refine ⟨fun hshort => engine_truncated h rfl ?_, fun lo hi r hbs => engine_decodes h hbs rfl⟩
    generalize s.mem.readRange (ld.inp + ip) (ld.n - ip) = bs at hshort
    match bs, hshort with
    | [], _ => rfl
    | [_], _ => rfl

/-! ## The literals (R203, R204) -/

section

variable {s : State} {ld : Desc} {ip : Nat} {win bytes : List Byte} {mn : BitVec 4}
  (h : s.Decodes ld ip (.literals mn bytes.length) win)
include h

theorem execLiterals_oversize (hbig : ld.cap < win.length - ld.P + bytes.length) :
    execLiterals bytes s = .next (failDecode ld .oversize ip s) :=
  (withDecoder_decoding h _).trans ((if_pos rfl).trans (if_pos hbig))

theorem execLiterals_fits (hfits : win.length - ld.P + bytes.length ≤ ld.cap) :
    execLiterals bytes s = .next (afterLiterals ld (ip + bytes.length) mn (win ++ bytes) s) :=
  (withDecoder_decoding h _).trans ((if_pos rfl).trans (if_neg (Nat.not_lt.mpr hfits)))

end

section

variable {ld : Desc} {ip : Nat} {win : List Byte} {mn : BitVec 4} (s : State)

theorem afterLiterals_badLastToken (hend : ip = ld.n) (hmn : mn ≠ 0) :
    afterLiterals ld ip mn win s = failDecode ld .badLastToken ld.n s := by
  rw [afterLiterals, if_pos hend, if_neg hmn, hend]

theorem afterLiterals_finished (hend : ip = ld.n) (hmn : mn = 0) :
    afterLiterals ld ip mn win s = finishDecode ld win s := by
  rw [afterLiterals, if_pos hend, if_pos hmn]

theorem afterLiterals_offset (hmore : ip ≠ ld.n) :
    afterLiterals ld ip mn win s = s.withDec ld ip (.offset mn) win :=
  if_neg hmore

end

/-- Settles O25: the capacity's check, then the three ways a sequence goes on after its literals. -/
theorem literalsCopied : Obligations.LiteralsCopied := by
  unfold Obligations.LiteralsCopied
  intro s ld ip lit win mn h hP
  refine ⟨?_, ?_⟩
  · rintro bytes rfl
    refine ⟨fun hbig => ⟨_, execLiterals_oversize h hbig, failDecode_failed ..⟩,
      fun hfits hend hmn => ⟨_, execLiterals_fits h hfits, ?_⟩,
      fun hfits hend hmn => ⟨_, execLiterals_fits h hfits, ?_⟩, fun hfits hmore => ?_⟩
    · rw [afterLiterals_badLastToken s hend hmn]
      exact failDecode_failed ..
    · rw [afterLiterals_finished s hend hmn]
      exact finishDecode_decoded s (by rw [List.length_append]; omega) (by rw [List.length_append]; omega)
    · exact (execLiterals_fits h hfits).trans (congrArg _ (afterLiterals_offset s hmore))
  · rintro _ rfl
    exact ⟨fun hshort => engine_truncated h rfl (if_pos hshort),
      fun hlong => engine_decodes h rfl (if_neg (Nat.not_lt.mpr hlong))⟩

end Sys2Proof.Machine
end

section
/-! The match copy (44_block_decoder.md R209). -/

namespace Sys2Proof.Machine

theorem copyMatch_take (win : List Byte) (off len : Nat) : (copyMatch win off len).take win.length = win := by
  obtain ⟨out, heq, -⟩ := copyMatch_eq_append win off len
  rw [heq, List.take_left]

/-- The first byte written is the one at the referent. -/
theorem copyMatch_succ_getElem? {win : List Byte} {off : Nat} (len : Nat) (hpos : 1 ≤ off)
    (hoff : off ≤ win.length) :
    (copyMatch win off (len + 1))[win.length]? = (copyMatch win off (len + 1))[win.length - off]? := by
  obtain ⟨out, heq, -⟩ := copyMatch_eq_append (win ++ [win.getD (win.length - off) 0]) off len
  have hlt : win.length - off < win.length := by omega
  rw [copyMatch, heq, List.append_assoc, List.getElem?_append_right (Nat.le_refl _), List.getElem?_append_left hlt,
    Nat.sub_self, List.singleton_append, List.getElem?_cons_zero, List.getD_eq_getElem _ _ hlt,
    List.getElem?_eq_getElem hlt]

/-- Every byte written is the one `off` bytes before it in the result. -/
theorem copyMatch_getElem? {win : List Byte} {off len t : Nat} (hpos : 1 ≤ off) (hoff : off ≤ win.length)
    (ht : t < len) :
    (copyMatch win off len)[win.length + t]? = (copyMatch win off len)[win.length - off + t]? := by
  induction len generalizing win t with
  | zero => exact absurd ht (Nat.not_lt_zero t)
  | succ len ih =>
    cases t with
    | zero => exact copyMatch_succ_getElem? len hpos hoff
    | succ t =>
      have hlen : (win ++ [win.getD (win.length - off) 0]).length = win.length + 1 := List.length_append
      have hnext := ih (win := win ++ [win.getD (win.length - off) 0]) (by omega) (Nat.lt_of_succ_lt_succ ht)
      rw [hlen, Nat.sub_add_comm hoff, Nat.add_right_comm, Nat.add_right_comm _ 1] at hnext
      exact hnext

/-- Settles O28: the copy only appends, and each byte it appends is the one at its referent. -/
theorem matchCopy : Obligations.MatchCopy := by
  unfold Obligations.MatchCopy
  exact fun win off len hpos hoff =>
    ⟨copyMatch_length win off len, copyMatch_take win off len, fun _ ht => copyMatch_getElem? hpos hoff ht⟩

/-- Where the bytes from `m` on are those `off` before them, the match copy of the first `m` bytes goes on with
them. -/
theorem copyMatch_take_of_repeats {wd : List Byte} {m off len : Nat} (hpos : 1 ≤ off) (hoff : off ≤ m)
    (hfit : m + len ≤ wd.length) (hsame : ∀ t < len, wd[m - off + t]? = wd[m + t]?) :
    copyMatch (wd.take m) off len = wd.take (m + len) := by
  induction len generalizing m with
  | zero => rfl
  | succ len ih =>
    have hlen : (wd.take m).length = m := List.length_take_of_le (by omega)
    have hfirst : wd[m - off]? = wd[m]? := hsame 0 (Nat.succ_pos len)
    have href : (wd.take m).getD ((wd.take m).length - off) 0 = wd[m] := by
      rw [hlen, List.getD_eq_getElem?_getD, List.getElem?_take_of_lt (by omega), hfirst, List.getElem?_eq_getElem,
        Option.getD_some]
    rw [copyMatch, href, List.take_append_getElem, Nat.add_comm len, ← Nat.add_assoc]
    refine ih (by omega) (by omega) fun t ht => ?_
    have hnext := hsame (t + 1) (Nat.succ_lt_succ ht)
    rwa [Nat.add_comm t, ← Nat.add_assoc, ← Nat.add_assoc, ← Nat.sub_add_comm hoff] at hnext

end Sys2Proof.Machine
end

section
/-! A payload emitted for an admissible parse decodes to its block (44_block_decoder.md R211, R215;
43_block_encoder.md R190). -/

namespace Sys2Proof.Machine

/-! ## Fields and their runs (30_encoding.md R82 to R85) -/

theorem nibble_of_lt {v : Nat} (h : v < 15) : nibble v ≠ 15 ∧ (nibble v).toNat = v := by
  have hv : (nibble v).toNat = v := by rw [nibble_toNat, Nat.min_eq_left (Nat.le_of_lt h)]
  refine ⟨fun heq => ?_, hv⟩
  rw [heq] at hv
  exact absurd hv.symm (Nat.ne_of_lt h)

theorem emitRunOf_of_lt {v : Nat} (h : v < 15) : emitRunOf v = [] := if_neg (Nat.not_le.mpr h)

/-- The nibble of a field and its run read back as the field (30_encoding.md R82). -/
theorem readLitLen_emitted (v : Nat) (rest : List Byte) :
    readLitLen (nibble v) (assemble (emitRunOf v) ++ rest) = some (v, rest) := by
  unfold readLitLen
  by_cases h : 15 ≤ v
  · rw [if_pos (nibble_of_ge h), emitRunOf_of_ge h, readRun_assemble_emitRun, Option.map_some]
    dsimp only
    rw [Nat.add_sub_of_le h]
  · obtain ⟨hne, hval⟩ := nibble_of_lt (Nat.lt_of_not_le h)
    rw [if_neg hne, hval, emitRunOf_of_lt (Nat.lt_of_not_le h)]
    rfl

theorem readMatchLen_eq (mn : BitVec 4) (bs : List Byte) :
    readMatchLen mn bs = (readLitLen mn bs).map fun x => (x.1 + 4, x.2) := by
  unfold readMatchLen readLitLen
  split
  · rw [Option.map_map]
    refine congrArg (Option.map · _) (funext fun x => ?_)
    exact Prod.ext (by simp only [Function.comp]; omega) rfl
  · rfl

theorem readMatchLen_emitted {k : Nat} (hk : 4 ≤ k) (rest : List Byte) :
    readMatchLen (nibble (k - 4)) (assemble (emitRunOf (k - 4)) ++ rest) = some (k, rest) := by
  rw [readMatchLen_eq, readLitLen_emitted, Option.map_some, Nat.sub_add_cancel hk]

/-- The two bytes of an offset read back as it (30_encoding.md R85). -/
theorem le16_bytes {o : Nat} (h : o ≤ 65535) : le16 (BitVec.ofNat 8 (o % 256)) (BitVec.ofNat 8 (o / 256)) = o := by
  rw [le16, BitVec.toNat_ofNat, BitVec.toNat_ofNat]
  omega

/-! ## One pass of R211's loop on an emitted sequence -/

/-- A pass on an emitted token and literal run reads the literal length and goes on with the literals. -/
theorem decodeSeq_emitted (n p cap r : Nat) (mn : BitVec 4) (rest win : List Byte) :
    decodeSeq n p cap ((nibble r ++ mn) :: (assemble (emitRunOf r) ++ rest)) win =
      decodeLiterals n p cap mn r rest win := by
  rw [decodeSeq_cons, tokenLn_append, tokenMn_append, readLitLen_emitted]
  rfl

section

variable {n p cap : Nat} {lits win : List Byte}

theorem decodeSeq_emitLast (hcap : win.length - p + lits.length ≤ cap) :
    decodeSeq n p cap (assemble (emitLast lits.length lits)) win = .ended (.ok (win ++ lits)) := by
  have hbytes : assemble (emitLast lits.length lits) =
      (nibble lits.length ++ 0#4) :: (assemble (emitRunOf lits.length) ++ lits) := by
    rw [assemble_emitLast, ← nibble_append_zero]
    rfl
  rw [hbytes, decodeSeq_emitted, decodeLiterals, if_neg (Nat.lt_irrefl _), if_neg (Nat.not_lt.mpr hcap), if_pos rfl,
    List.take_length]
  rfl

theorem decodeMatch_emitted {o k : Nat} (rest : List Byte) (hk : 4 ≤ k) (hpos : 1 ≤ o) (hmax : o ≤ 65535)
    (hoff : o ≤ win.length) (hcap : win.length - p + k ≤ cap) :
    decodeMatch n p cap (nibble (k - 4))
      (BitVec.ofNat 8 (o % 256) :: BitVec.ofNat 8 (o / 256) :: (assemble (emitRunOf (k - 4)) ++ rest)) win =
      .more rest (copyMatch win o k) := by
  unfold decodeMatch
  dsimp only
  rw [le16_bytes hmax, if_neg (by omega), readMatchLen_emitted hk]
  exact if_neg (Nat.not_lt.mpr hcap)

theorem decodeSeq_emitSeq {o k : Nat} (rest : List Byte) (hk : 4 ≤ k) (hpos : 1 ≤ o) (hmax : o ≤ 65535)
    (hoff : o ≤ win.length + lits.length) (hp : p ≤ win.length) (hcap : win.length + lits.length - p + k ≤ cap) :
    decodeSeq n p cap (assemble (emitSeq lits.length o k lits) ++ rest) win =
      .more rest (copyMatch (win ++ lits) o k) := by
  have hbytes : assemble (emitSeq lits.length o k lits) ++ rest =
      (nibble lits.length ++ nibble (k - 4)) :: (assemble (emitRunOf lits.length) ++
        (lits ++ BitVec.ofNat 8 (o % 256) :: BitVec.ofNat 8 (o / 256) :: (assemble (emitRunOf (k - 4)) ++ rest))) := by
    rw [assemble_emitSeq, ← nibble_append_nibble]
    simp only [List.append_assoc, List.cons_append, List.nil_append]
  have hwin : (win ++ lits).length = win.length + lits.length := List.length_append
  rw [hbytes, decodeSeq_emitted, decodeLiterals, List.take_left, List.drop_left, List.length_append,
    if_neg (by omega), if_neg (by omega), if_neg (by rw [List.length_cons]; omega)]
  exact decodeMatch_emitted rest hk hpos hmax (hwin ▸ hoff) (hwin ▸ hcap)

end

/-! ## The block -/

theorem decodeLoop_ended {n p cap : Nat} {rest win : List Byte} {r : DecResult} (fuel : Nat)
    (h : decodeSeq n p cap rest win = .ended r) : decodeLoop n p cap (fuel + 1) rest win = r := by
  rw [decodeLoop, h]

theorem decodeLoop_more {n p cap : Nat} {rest win rest' win' : List Byte} (fuel : Nat)
    (h : decodeSeq n p cap rest win = .more rest' win') :
    decodeLoop n p cap (fuel + 1) rest win = decodeLoop n p cap fuel rest' win' := by
  rw [decodeLoop, h]

theorem Cmd.cost_pos (c : Cmd) : 1 ≤ c.cost := by
  cases c with
  | seq r o k => rw [Cmd.cost]; omega
  | last r => rw [Cmd.cost]; omega

/-- Every sequence costs a byte or more (R210). -/
theorem length_le_parseCost (cmds : List Cmd) : cmds.length ≤ parseCost cmds := by
  induction cmds with
  | nil => exact Nat.zero_le _
  | cons c cs ih =>
    rw [parseCost_cons, List.length_cons, Nat.add_comm]
    exact Nat.add_le_add c.cost_pos ih

section

variable {par : Params} {wd : List Byte} {p cap m : Nat}

/-- The last literals bring the window to its end. -/
theorem decodeSeq_emitCmd_last (n : Nat) (hm : p ≤ m) (hend : m ≤ wd.length) (hcap : wd.length - p ≤ cap) :
    decodeSeq n p cap (assemble (emitCmd (.last (wd.length - m)) (wd.drop m))) (wd.take m) = .ended (.ok wd) := by
  have hlits : (wd.drop m).length = wd.length - m := List.length_drop
  have hwin : (wd.take m).length = m := List.length_take_of_le hend
  have hpass := decodeSeq_emitLast (n := n) (p := p) (cap := cap) (lits := wd.drop m) (win := wd.take m) (by omega)
  rw [List.take_append_drop] at hpass
  rwa [emitCmd, ← hlits, List.take_length]

/-- A sequence whose match is an entry of its site decodes to the window bytes it stands for: those of the match are
those at its referent (41_match_finder.md R152 (e)). -/
theorem decodeSeq_emitCmd_seq {r o k : Nat} (n : Nat) (rest : List Byte) (hmin : par.minMatch = 4)
    (hfar : par.maxOffset = 65535) (hm : p ≤ m) (hcap : wd.length - p ≤ cap)
    (he : IsEntry par wd (m + r) ⟨o, k⟩) :
    decodeSeq n p cap (assemble (emitCmd (.seq r o k) (wd.drop m)) ++ rest) (wd.take m) =
      .more rest (wd.take (m + (r + k))) := by
  obtain ⟨hpos, hmax, hstart, hlo, -, htail⟩ := he.bounds (by omega)
  dsimp only at hpos hmax hstart hlo htail
  have hwin : (wd.take m).length = m := List.length_take_of_le (by omega)
  have hlits : ((wd.drop m).take r).length = r := List.length_take_of_le (by rw [List.length_drop]; omega)
  have hcopy : copyMatch (wd.take m ++ (wd.drop m).take r) o k = wd.take (m + (r + k)) := by
    rw [← List.take_add, ← Nat.add_assoc]
    exact copyMatch_take_of_repeats hpos hstart (by omega) fun t ht => he.bytes ht
  have hpass := decodeSeq_emitSeq (n := n) (p := p) (cap := cap) (lits := (wd.drop m).take r) (win := wd.take m)
    (o := o) (k := k) rest (by omega) hpos (by omega) (by omega) (by omega) (by omega)
  rwa [hlits, hcopy] at hpass

/-- The loop of R211 on the payload of an admissible parse from block position `i` on, with the window decoded up to
there, gives the window. -/
theorem decodeLoop_of_admissible {i fuel n : Nat} {cmds : List Cmd} (hmin : par.minMatch = 4)
    (hfar : par.maxOffset = 65535) (hi : p + i ≤ wd.length) (hcap : wd.length - p ≤ cap)
    (h : Admissible ((matchCandidates par wd p).drop i) cmds) (hfuel : cmds.length ≤ fuel) :
    decodeLoop n p cap fuel (assemble (emitCmds cmds (wd.drop (p + i)))) (wd.take (p + i)) = .ok wd := by
  generalize hcands : (matchCandidates par wd p).drop i = cands at h
  induction h using admissible_induction generalizing i fuel with
  | last cands =>
    obtain ⟨fuel, rfl⟩ := Nat.exists_eq_add_of_le' hfuel
    have hrest : cands.length = wd.length - (p + i) := by
      rw [← hcands, List.length_drop, length_matchCandidates, Nat.sub_sub]
    rw [emitCmds, emitCmds, List.append_nil, hrest]
    exact decodeLoop_ended fuel (decodeSeq_emitCmd_last n (Nat.le_add_right p i) hi hcap)
  | seq cands r o k cmds hopt hrest ih =>
    subst hcands
    obtain ⟨fuel, rfl⟩ := Nat.exists_eq_add_of_le' (Nat.le_of_add_left_le hfuel)
    have hfit : r + k ≤ ((matchCandidates par wd p).drop i).length := hopt.2
    rw [List.length_drop, length_matchCandidates] at hfit
    have hentry : IsEntry par wd (p + i + r) ⟨o, k⟩ := by
      rw [Nat.add_assoc]
      exact isEntry_of_isOption_drop (by omega) hopt
    rw [assemble_emitCmds_cons,
      decodeLoop_more fuel (decodeSeq_emitCmd_seq n _ hmin hfar (Nat.le_add_right p i) hcap hentry), List.drop_drop,
      Cmd.span, Nat.add_assoc p i]
    exact ih (by omega) (Nat.le_of_succ_le_succ hfuel) List.drop_drop.symm

end

/-- Settles O44: pass by pass, the decoder reads back the sequence emitted, and a candidate's bytes are those at its
referent. -/
theorem blockRoundTrip : Obligations.BlockRoundTrip := by
  unfold Obligations.BlockRoundTrip
  intro par wd p cap cmds hpar hp hcap hadm
  obtain ⟨hmin, hfar, -⟩ := hpar
  have hspan : (cmds.map Cmd.span).sum = (wd.drop p).length := by
    rw [hadm.sum_span, length_matchCandidates, List.length_drop]
  have hlen : cmds.length ≤ (assemble (emitCmds cmds (wd.drop p))).length := by
    rw [length_assemble_emitCmds (Nat.le_of_eq hspan)]
    exact length_le_parseCost cmds
  rw [decodeBlock, List.length_take_of_le hp]
  exact decodeLoop_of_admissible hmin hfar (i := 0) hp hcap hadm (Nat.le_succ_of_le hlen)

end Sys2Proof.Machine
end

section
/-! The rules of a frame-layer run (45_frame_container.md): its updates, what `exec` of a container word does to the
run that reads it, and what a turn of the host does in each phase of the run. -/

namespace Sys2Proof.Machine

/-! ## Updates of the run -/

theorem State.setFrame_eq_withRun (s : State) (f : FrameRun) : s.setFrame f = s.withRun f := rfl

theorem State.failFrame_eq_runEnded (s : State) (f : FrameRun) (e : HostErr) :
    s.failFrame f e = s.runEnded f (.failed e none) := rfl

theorem State.endFrame_failed (s : State) (f : FrameRun) (e : HostErr) (d : Option Nat) :
    s.endFrame f (.failed e d) = s.runEnded f (.failed e d) := rfl

/-- A success whose output cannot be written is ERR_DST (60_exceptions.md R276; log 18). -/
theorem State.endFrame_success (s : State) (f : FrameRun) :
    s.endFrame f .success = s.runEnded f (if f.dstOk then .success else .failed .dst none) := rfl

theorem State.decodeDone_eq_withRun (s : State) (f : FrameRun) : ∃ g, s.decodeDone f = s.withRun g := by
  unfold State.decodeDone
  split
  · exact ⟨_, rfl⟩
  · split <;> exact ⟨_, rfl⟩

/-! ## The end of a stream (R236, R237, R242, R244, R246) -/

theorem State.streamDone_of_not_verify (s : State) {f : FrameRun} (h : f.opts.verify = false) :
    s.streamDone f = s.runEnded f (if f.dstOk then .success else .failed .dst none) := by
  simp only [State.streamDone, h, Bool.false_eq_true, if_false, State.endFrame_success]

theorem State.streamDone_of_verify (s : State) {f : FrameRun} {p : FramePhase} (h : f.opts.verify = true)
    (hp : decodeStart f.opts = p) :
    s.streamDone f = s.withRun { f with
      phase := p, src := f.out, out := [], prev := none, block := [], produced := some f.out } := by
  simp only [State.streamDone, h, hp, if_true, State.setFrame_eq_withRun]

/-- The end mark completes the stream (R236). -/
theorem nextBlock_of_done (s : State) {f : FrameRun} (h : f.src = []) :
    nextBlock f s = s.streamDone { f with out := f.out ++ [0, 0, 0, 0] } := if_pos h

theorem State.decodeDone_of_not_verify (s : State) {f : FrameRun} (h : f.produced = none) :
    s.decodeDone f = s.runEnded f (if f.dstOk then .success else .failed .dst none) := by
  simp only [State.decodeDone, h, State.endFrame_success]

theorem State.decodeDone_of_equal (s : State) {f : FrameRun} {y : List Byte} (h : f.produced = some y)
    (hd : firstDiff f.out f.input = none) :
    s.decodeDone f = s.runEnded { f with out := y } (if f.dstOk then .success else .failed .dst none) := by
  simp only [State.decodeDone, h, hd, State.endFrame_success]

theorem State.decodeDone_of_differs (s : State) {f : FrameRun} {y : List Byte} {d : Nat} (h : f.produced = some y)
    (hd : firstDiff f.out f.input = some d) :
    s.decodeDone f = s.runEnded { f with out := y } (.failed .dst (some d)) := by
  simp only [State.decodeDone, h, hd, State.endFrame_failed]

/-! ## Container words -/

section

variable {s : State} {f : FrameRun}

theorem State.Reads.phase {p : FramePhase} (h : s.Reads f p) : f.phase = p := h.2.1

theorem State.Reads.withFrame_eq {p : FramePhase} (h : s.Reads f p) (k : FrameRun → State) :
    withFrame p s k = .next (k f) := by
  obtain ⟨hf, hp, ht⟩ := h
  simp only [withFrame, hf, hp, ht, and_self, if_true]

theorem exec_frameHeader_of_error {bd hc : Byte} {e : HostErr} (h : s.Reads f .readHeader)
    (he : headerError s.par bd hc = some e) : exec (.frameHeader bd hc) s = .next (s.runEnded f (.failed e none)) := by
  refine (h.withFrame_eq _).trans ?_
  simp only [he, State.failFrame_eq_runEnded]

theorem exec_frameHeader_of_accepted {bd hc : Byte} (h : s.Reads f .readHeader)
    (he : headerError s.par bd hc = none) :
    exec (.frameHeader bd hc) s = .next (s.withRun { f with
      phase := .readBlock, src := f.src.drop 7, blockMax := s.par.blockMax.of (codeOfBd bd) }) := by
  refine (h.withFrame_eq _).trans ?_
  simp only [he, State.setFrame_eq_withRun]

theorem exec_blkCompressed_of_error {size : BitVec 31} {e : HostErr} (h : s.Reads f .readBlock)
    (he : blockError f size.toNat = some e) :
    exec (.blkCompressed size) s = .next (s.runEnded f (.failed e none)) := by
  refine (h.withFrame_eq _).trans ?_
  simp only [he, State.failFrame_eq_runEnded]

theorem exec_blkCompressed_of_fits {size : BitVec 31} (h : s.Reads f .readBlock)
    (he : blockError f size.toNat = none) :
    exec (.blkCompressed size) s = .next (s.withRun (issueDecompress s.par
      { f with src := (f.src.drop 4).drop size.toNat } ((f.src.drop 4).take size.toNat) f.blockMax)) := by
  refine (h.withFrame_eq _).trans ?_
  simp only [he, State.setFrame_eq_withRun]

theorem exec_blkUncompressed_zero (h : s.Reads f .readBlock) :
    exec (.blkUncompressed 0) s = .next (s.runEnded f (.failed .decompression none)) := h.withFrame_eq _

theorem exec_blkUncompressed_of_error {size : BitVec 31} {e : HostErr} (h : s.Reads f .readBlock) (hz : size ≠ 0)
    (he : blockError f size.toNat = some e) :
    exec (.blkUncompressed size) s = .next (s.runEnded f (.failed e none)) := by
  refine (h.withFrame_eq _).trans ?_
  simp only [if_neg hz, he, State.failFrame_eq_runEnded]

theorem exec_blkUncompressed_of_fits {size : BitVec 31} (h : s.Reads f .readBlock) (hz : size ≠ 0)
    (he : blockError f size.toNat = none) :
    exec (.blkUncompressed size) s = .next (s.withRun { f with
      src := (f.src.drop 4).drop size.toNat
      out := f.out ++ (f.src.drop 4).take size.toNat
      prev := some ((f.src.drop 4).take size.toNat) }) := by
  refine (h.withFrame_eq _).trans ?_
  simp only [if_neg hz, he, State.setFrame_eq_withRun]

theorem exec_blkEndmark (h : s.Reads f .readBlock) :
    exec .blkEndmark s = .next (s.decodeDone { f with src := f.src.drop 4 }) := h.withFrame_eq _

theorem exec_rawFooter (h : s.Reads f .readFooter) :
    exec .rawFooter s = .next (s.withRun (issueDecompress s.par { f with src := [] }
      (f.src.take (f.src.length - 2)) s.par.rawLimit)) := h.withFrame_eq _

/-- The sizes a block header may give (R240). -/
theorem blockError_eq_none_iff {size : Nat} :
    blockError f size = none ↔ size ≤ f.blockMax ∧ size ≤ (f.src.drop 4).length := by
  simp only [blockError, ite_eq_iff, reduceCtorEq, and_false, false_or, and_true, not_lt]

/-! ## Turns of the host -/

/-- Bytes that are no container word end the run with the error of their place (R239, R240, R245). -/
theorem agentStep_badContainer {p : Pos} {bs : List Byte} {r : Reject} (hf : s.host.frame = some f)
    (hn : hostNext s = .unit p bs) (hd : decode p bs = .error r) (hr : rejectUnit r s = badContainer r s) :
    agentStep .host s = .next (s.runEnded f (.failed (containerError r) none)) := by
  have hbad : badContainer r s = .next (s.runEnded f (.failed (containerError r) none)) := by
    rw [badContainer, hf]
    rfl
  rw [agentStep, agentNext, hn, ← hbad, ← hr]
  simp only [runNext, hd]

/-- In a phase that reads no container word the host does its own work. -/
theorem agentStep_frameWork {p : FramePhase} (h : s.Reads f p)
    (hp : p ∈ [.emitHeader, .nextBlock, .awaitCompress, .awaitDecompress]) :
    agentStep .host s = frameWork f s := by
  obtain ⟨hf, rfl, ht⟩ := h
  simp only [List.mem_cons, List.not_mem_nil, or_false] at hp
  unfold agentStep agentNext hostNext
  rcases hp with hp | hp | hp | hp <;> simp only [hf, FrameRun.over, hp, ht, Bool.false_eq_true, if_false, runNext]

theorem agentStep_emitHeader (h : s.Reads f .emitHeader) :
    agentStep .host s = .next (s.withRun { f with
      phase := .nextBlock, out := f.out ++ emittedHeader s.par (f.opts.codeOf s.par) }) :=
  (agentStep_frameWork h (by decide)).trans (by rw [frameWork, h.phase]; rfl)

theorem agentStep_nextBlock (h : s.Reads f .nextBlock) : agentStep .host s = .next (nextBlock f s) :=
  (agentStep_frameWork h (by decide)).trans (by rw [frameWork, h.phase])

theorem agentStep_awaitCompress (h : s.Reads f .awaitCompress) :
    agentStep .host s = .next (collectCompress f s) :=
  (agentStep_frameWork h (by decide)).trans (by rw [frameWork, h.phase])

theorem agentStep_awaitDecompress (h : s.Reads f .awaitDecompress) :
    agentStep .host s = .next (collectDecompress f s) :=
  (agentStep_frameWork h (by decide)).trans (by rw [frameWork, h.phase])

end

end Sys2Proof.Machine
end

section
/-! What a container word changes (45_frame_container.md). -/

namespace Sys2Proof.Machine

/-- Where each way a container word ends replaces the run, its answer has the run replaced. -/
theorem withFrame_next_withRun {p : FramePhase} {s t : State} {k : FrameRun → State}
    (hk : ∀ f, ∃ g, k f = s.withRun g) (h : withFrame p s k = .next t) : ∃ g, t = s.withRun g := by
  obtain ⟨f, -, -, -, rfl⟩ := withFrame_next h
  exact hk f

/-- Settles O49, word by word: each ends the run, sets it, or has its output complete. -/
theorem containerWordFrame : Obligations.ContainerWordFrame := by
  unfold Obligations.ContainerWordFrame
  intro i s t hi h
  cases i with
  | blkCompressed size =>
    refine withFrame_next_withRun (fun f => ?_) h
    split <;> exact ⟨_, rfl⟩
  | blkUncompressed size =>
    refine withFrame_next_withRun (fun f => ?_) h
    split
    · exact ⟨_, rfl⟩
    · split <;> exact ⟨_, rfl⟩
  | blkEndmark => exact withFrame_next_withRun (fun f => s.decodeDone_eq_withRun _) h
  | frameHeader bd hc =>
    refine withFrame_next_withRun (fun f => ?_) h
    split <;> exact ⟨_, rfl⟩
  | rawFooter => exact withFrame_next_withRun (fun f => ⟨_, rfl⟩) h
  | _ => exact hi.elim

end Sys2Proof.Machine
end

section
/-! The header of a block: its checks, and the size they pass (30_encoding.md R90; 45_frame_container.md R240). -/

namespace Sys2Proof

theorem decode_blockHeader_short {bs : List Byte} (h : bs.length < 4) :
    decode .blockHeader bs = .error .shortBlockHeader := by
  match bs with
  | [] | [_] | [_, _] | [_, _, _] => rfl
  | _ :: _ :: _ :: _ :: _ => simp only [List.length_cons] at h; omega

/-- The size of a block header word is its low 31 bits. -/
theorem size_eq_ofNat (w : Word) : w.extractLsb' 0 31 = BitVec.ofNat 31 (w.toNat % 2 ^ 31) := by
  apply BitVec.eq_of_toNat_eq
  simp

/-- Bit 31 of a block header word. -/
theorem compressedBit_eq_zero_iff (w : Word) : w.extractLsb' 31 1 = 0 ↔ w.toNat < 2 ^ 31 := by
  rw [← BitVec.toNat_inj, BitVec.extractLsb'_toNat, Nat.shiftRight_eq_div_pow]
  change _ = 0 ↔ _
  omega

/-- A block header word by the number it is. -/
theorem decodeBlockHeader_eq {w : Word} (h : w.toNat ≠ 0) :
    decodeBlockHeader w =
      if w.toNat < 2 ^ 31 then .blkCompressed (BitVec.ofNat 31 (w.toNat % 2 ^ 31))
      else .blkUncompressed (BitVec.ofNat 31 (w.toNat % 2 ^ 31)) := by
  have hz : w ≠ 0 := fun hw => h (by rw [hw]; rfl)
  simp only [decodeBlockHeader, if_neg hz, compressedBit_eq_zero_iff, size_eq_ofNat]

namespace Machine

section

variable {s : State} {f : FrameRun}

/-- A block header word is read as the word it is. -/
theorem agentStep_blockHeader {b0 b1 b2 b3 : Byte} {rest : List Byte} (h : s.Reads f .readBlock)
    (hsrc : f.src = b0 :: b1 :: b2 :: b3 :: rest) :
    agentStep .host s = exec (decodeBlockHeader (le32 b0 b1 b2 b3)) s :=
  agentStep_unit (a := .host) (rest := rest) (hostNext_readBlock h) (by rw [hsrc]; rfl)

/-- A size that fails its checks ends the run, with bit 31 or without. -/
theorem agentStep_blockError {b0 b1 b2 b3 : Byte} {rest : List Byte} {size : Nat} {e : HostErr}
    (h : s.Reads f .readBlock) (hsrc : f.src = b0 :: b1 :: b2 :: b3 :: rest)
    (hsize : size = (le32 b0 b1 b2 b3).toNat % 2 ^ 31) (hz : size ≠ 0) (he : blockError f size = some e) :
    agentStep .host s = .next (s.runEnded f (.failed e none)) := by
  have hnat : (BitVec.ofNat 31 size).toNat = size := by
    rw [BitVec.toNat_ofNat]
    omega
  rw [agentStep_blockHeader h hsrc, decodeBlockHeader_eq (by omega), ← hsize]
  split
  · exact exec_blkCompressed_of_error h (by rw [hnat]; exact he)
  · exact exec_blkUncompressed_of_error h (by bv_omega) (by rw [hnat]; exact he)

end

/-- Settles O46, by the number the header's four bytes are. -/
theorem blockHeaderRead : Obligations.BlockHeaderRead := by
  unfold Obligations.BlockHeaderRead
  intro s f hr
  refine ⟨fun hlen => agentStep_badContainer hr.1 (hostNext_readBlock hr) (decode_blockHeader_short hlen) rfl,
    fun b0 b1 b2 b3 rest h size hsrc hh hsize => ?_⟩
  have hrest : f.src.drop 4 = rest := by rw [hsrc]; rfl
  rw [← le32_toNat] at hh
  subst hh
  refine ⟨fun hz => ?_, fun htop => ?_, fun hz hbig => ?_, fun hz hmax hcut => ?_, fun hz hlow => ?_,
    fun hz hhigh => ?_⟩
  · have hw : le32 b0 b1 b2 b3 = 0 := BitVec.eq_of_toNat_eq hz
    rw [agentStep_blockHeader hr hsrc, hw]
    rfl
  · rw [agentStep_blockHeader hr hsrc, decodeBlockHeader_eq (by omega), htop]
    exact exec_blkUncompressed_zero hr
  · exact agentStep_blockError hr hsrc hsize hz (if_pos hbig)
  · refine agentStep_blockError hr hsrc hsize hz ?_
    rw [blockError, if_neg (by omega), hrest, if_pos hcut]
  · rw [agentStep_blockHeader hr hsrc, decodeBlockHeader_eq (by omega), if_pos hlow, hsize]
  · rw [agentStep_blockHeader hr hsrc, decodeBlockHeader_eq (by omega), if_neg (by omega), hsize]

end Machine

end Sys2Proof
end

section
/-! The results of a command as the host takes them in one turn (45_frame_container.md R235, R237, R238, R241, R244;
log 37). -/

namespace Sys2Proof.Machine

theorem State.regValue_outLen {s : State} (h : s.busy = false) : s.regValue .outLen = s.eng.outLen := by
  simp only [State.regValue, h, Bool.false_eq_true, if_false]

/-- The prefix of a block is of the block before, the dictionary and FRAME_DEPENDENT alone (R234). -/
theorem blockHistory_congr {f g : FrameRun} (hp : g.prev = f.prev) (hd : g.dict = f.dict)
    (ho : g.opts.dependent = f.opts.dependent) : blockHistory g = blockHistory f := by
  simp only [blockHistory, hp, hd, ho]

theorem blockHistory_of_none {f : FrameRun} (h : f.prev = none) : blockHistory f = f.dict := by
  simp only [blockHistory, h]

section

variable {s : State} {f : FrameRun}

/-! ## COMPRESS_BLOCK -/

section

variable (h : s.Reads f .awaitCompress) (hb : s.busy = false)
include h

theorem agentStep_compressFailed (hc : s.eng.code = .compressionInternal ∨ s.eng.code = .badCommand) :
    agentStep .host s = .next (s.runEnded f (.failed .compression none)) := by
  rw [agentStep_awaitCompress h, collectCompress]
  rcases hc with hc | hc <;> simp only [hc, State.failFrame_eq_runEnded]

theorem agentStep_incompressible (hc : s.eng.code = .incompressible) (hraw : f.opts.raw = false) :
    agentStep .host s = .next (s.withRun
      (blockEmitted f (encode (.blkUncompressed (BitVec.ofNat 31 f.block.length)) ++ f.block))) := by
  rw [agentStep_awaitCompress h, collectCompress]
  simp only [hc, hraw, Bool.false_eq_true, if_false, State.setFrame_eq_withRun]

theorem agentStep_rawIncompressible (hc : s.eng.code = .incompressible) (hraw : f.opts.raw = true) :
    agentStep .host s = .next (s.runEnded f (.failed .rawUncompressed none)) := by
  rw [agentStep_awaitCompress h, collectCompress]
  simp only [hc, hraw, if_true, State.failFrame_eq_runEnded]

include hb

theorem agentStep_compressed (hc : s.eng.code = .ok) (hraw : f.opts.raw = false) :
    agentStep .host s = .next (s.withRun (blockEmitted f
      (encode (.blkCompressed (BitVec.ofNat 31 s.eng.outLen.toNat)) ++
        s.mem.readRange s.par.hostOutput.toNat s.eng.outLen.toNat))) := by
  rw [agentStep_awaitCompress h, collectCompress]
  simp only [hc, hraw, Bool.false_eq_true, if_false, State.regValue_outLen hb, State.setFrame_eq_withRun]

theorem agentStep_rawCompressed (hc : s.eng.code = .ok) (hraw : f.opts.raw = true) :
    agentStep .host s = .next (s.streamDone { f with
      out := f.out ++ s.mem.readRange s.par.hostOutput.toNat s.eng.outLen.toNat ++ [0, 0], block := [] }) := by
  rw [agentStep_awaitCompress h, collectCompress]
  simp only [hc, hraw, if_true, State.regValue_outLen hb]
  rfl

end

/-! ## DECOMPRESS_BLOCK -/

section

variable (h : s.Reads f .awaitDecompress) (hb : s.busy = false)
include h

theorem agentStep_decompressFailed (hc : s.eng.code = .decompressionError) :
    agentStep .host s = .next (s.runEnded f (.failed .decompression none)) := by
  rw [agentStep_awaitDecompress h, collectDecompress]
  simp only [hc, State.failFrame_eq_runEnded]

include hb

variable {hist block : List Byte} (hh : hist = blockHistory f)
  (hblock : block = s.mem.readRange (s.par.hostWindow.toNat + hist.length) s.eng.outLen.toNat)
include hh hblock

theorem agentStep_decompressed (hc : s.eng.code = .ok) (hraw : f.opts.raw = false) :
    agentStep .host s =
      .next (s.withRun { f with phase := .readBlock, out := f.out ++ block, prev := some block }) := by
  subst hh hblock
  rw [agentStep_awaitDecompress h, collectDecompress]
  simp only [hc, hraw, Bool.false_eq_true, if_false, State.regValue_outLen hb, State.setFrame_eq_withRun]

theorem agentStep_rawDecompressed (hc : s.eng.code = .ok) (hraw : f.opts.raw = true) :
    agentStep .host s = .next (s.decodeDone { f with out := f.out ++ block, prev := some block }) := by
  subst hh hblock
  rw [agentStep_awaitDecompress h, collectDecompress]
  simp only [hc, hraw, if_true, State.regValue_outLen hb]

end

end

end Sys2Proof.Machine
end

section
/-! Verify (45_frame_container.md R246): the first difference of two byte strings, and the decode of the stream a run
produced. -/

namespace Sys2Proof.Machine

/-! ## The first difference -/

theorem firstDiff_eq_none_iff {x y : List Byte} : firstDiff x y = none ↔ x = y := by
  induction x generalizing y with
  | nil => cases y <;> simp [firstDiff]
  | cons a as ih =>
    cases y with
    | nil => simp [firstDiff]
    | cons b bs =>
      by_cases hab : a = b
      · simp [firstDiff, hab, ih]
      · simp [firstDiff, hab]

/-- The first difference lies within both strings: they agree before it and differ at it. -/
theorem firstDiff_eq_some_iff {x y : List Byte} {d : Nat} :
    firstDiff x y = some d ↔ x.take d = y.take d ∧ d ≤ x.length ∧ d ≤ y.length ∧ x[d]? ≠ y[d]? := by
  induction x generalizing y d with
  | nil => cases y <;> cases d <;> simp [firstDiff]
  | cons a as ih =>
    cases y with
    | nil => cases d <;> simp [firstDiff]
    | cons b bs =>
      by_cases hab : a = b
      · cases d <;> simp [firstDiff, hab, ih]
      · cases d <;> simp [firstDiff, hab]

/-! ## The run -/

/-- Settles O53: a complete stream turns the run to its own decode, which ends by the first difference. -/
theorem verifyFindsFirstDifference : Obligations.VerifyFindsFirstDifference := by
  unfold Obligations.VerifyFindsFirstDifference
  refine ⟨fun x y => ⟨firstDiff_eq_none_iff, fun d => ?_⟩, fun s f hr hsrc hv hraw => ?_,
    fun s f stream hr hb hc hv hraw hstream => ?_, fun s f stream hr hp => ?_,
    fun s f stream block hr hb hc hraw hprev hp hblock => ?_⟩
  · rw [firstDiff_eq_some_iff, iff_and_self]
    rintro ⟨-, -, -, hne⟩ rfl
    exact hne rfl
  · rw [agentStep_nextBlock hr, nextBlock_of_done s hsrc]
    exact congrArg Host.Outcome.next (State.streamDone_of_verify s hv (by rw [decodeStart, hraw]; rfl))
  · rw [agentStep_rawCompressed hr hb hc hraw, ← hstream]
    exact congrArg Host.Outcome.next (State.streamDone_of_verify s hv (by rw [decodeStart, hraw]; rfl))
  · rw [exec_blkEndmark hr]
    exact ⟨fun heq => congrArg Host.Outcome.next (State.decodeDone_of_equal s hp (firstDiff_eq_none_iff.2 heq)),
      fun d hd => congrArg Host.Outcome.next (State.decodeDone_of_differs s hp hd)⟩
  · rw [agentStep_rawDecompressed hr hb (blockHistory_of_none hprev).symm hblock hc hraw]
    exact ⟨fun heq => congrArg Host.Outcome.next (State.decodeDone_of_equal s hp (firstDiff_eq_none_iff.2 heq)),
      fun d hd => congrArg Host.Outcome.next (State.decodeDone_of_differs s hp hd)⟩

end Sys2Proof.Machine
end

section
/-! The header of a frame: the checksum bytes of R232, and the checks of R239 under each HC_MODE
(45_frame_container.md). -/

namespace Sys2Proof

theorem legalBd_iff {bd : Byte} : legalBd bd = true ↔ bd ∈ [0x40, 0x50, 0x60, 0x70] := by
  simp [legalBd, or_assoc]

theorem decode_frameHeader_short {bs : List Byte} (h : bs.length < 7) :
    decode .frameHeader bs = .error .shortFrameHeader := by
  match bs with
  | [] | [_] | [_, _] | [_, _, _] | [_, _, _, _] | [_, _, _, _, _] | [_, _, _, _, _, _] => rfl
  | _ :: _ :: _ :: _ :: _ :: _ :: _ :: _ => simp only [List.length_cons] at h; omega

theorem decode_frameHeader_magic (flg bd hc : Byte) (rest : List Byte) :
    decode .frameHeader (0x04 :: 0x22 :: 0x4D :: 0x18 :: flg :: bd :: hc :: rest) =
      if flg = 0x40 then if legalBd bd = true then .ok (.frameHeader bd hc, rest) else .error .badDescriptor
      else .error .badFlags := by
  rw [decode, if_pos ⟨rfl, rfl, rfl, rfl⟩]

/-- The block maximum of a code, of parameters the spec allows (00_scope.md R6). -/
def BlockCode.max : BlockCode → Nat
  | .c4 => 65536
  | .c5 => 262144
  | .c6 => 1048576
  | .c7 => 4194304

theorem Params.Legal.blockMax_of {par : Params} (h : par.Legal) (c : BlockCode) : par.blockMax.of c = c.max := by
  obtain ⟨-, -, -, -, hmax, -⟩ := h
  rw [hmax]
  cases c <;> rfl

namespace Machine

/-- `HCc` of each BD, as the table of R232 has it. -/
def tableHc : BlockCode → Byte
  | .c4 => 0xC0
  | .c5 => 0x77
  | .c6 => 0x96
  | .c7 => 0xDF

/-- A legal parameter XXH32 gives the table of R232 (log 16). -/
theorem headerChecksum_bdOf {par : Params} (h : par.Legal) (c : BlockCode) :
    headerChecksum par (bdOf c) = tableHc c := by
  obtain ⟨-, -, -, -, -, -, -, -, -, -, -, -, hknown, -⟩ := h
  have hlook : ∀ e ∈ Config.knownHashes, par.hash e.1.1 e.1.2 = e.2 := fun e he => by
    rw [Params.hash, hknown e he]
    rfl
  simp only [Config.knownHashes, List.forall_mem_cons] at hlook
  obtain ⟨h4, h5, h6, h7, -⟩ := hlook
  cases c with
  | c4 => exact congrArg (BitVec.extractLsb' 8 8) h4
  | c5 => exact congrArg (BitVec.extractLsb' 8 8) h5
  | c6 => exact congrArg (BitVec.extractLsb' 8 8) h6
  | c7 => exact congrArg (BitVec.extractLsb' 8 8) h7

/-- The checksum byte a mode accepts with the BD of a code (R239). -/
def acceptsHc (m : HcMode) (c : BlockCode) (hc : Byte) : Bool :=
  match m with
  | .source => hc == 0xC0 || hc == tableHc c
  | .computed => hc == tableHc c
  | .strictSource => c == .c4 && hc == 0xC0

theorem headerError_bdOf {par : Params} (h : par.Legal) (c : BlockCode) (hc : Byte) :
    headerError par (bdOf c) hc =
      if acceptsHc par.hcMode c hc then none
      else some (if par.hcMode = .strictSource ∧ c ≠ .c4 then .format else .checksum) := by
  unfold headerError acceptsHc
  rw [legalBd_bdOf, headerChecksum_bdOf h]
  cases par.hcMode with
  | source => simp
  | computed => simp
  | strictSource => cases c <;> simp [bdOf]

/-- Settles O45, check by check. -/
theorem frameHeaderRead : Obligations.FrameHeaderRead := by
  unfold Obligations.FrameHeaderRead
  intro s f hpar hr
  have hn := hostNext_readHeader hr
  refine ⟨fun hlen => agentStep_badContainer hr.1 hn (decode_frameHeader_short hlen) rfl,
    fun m0 m1 m2 m3 flg bd hc rest hsrc => ?_, fun code hc accepted haccepted => ?_⟩
  · rw [hsrc] at hn
    refine ⟨fun hm => agentStep_badContainer hr.1 hn (if_neg hm) rfl, ?_⟩
    rintro rfl rfl rfl rfl
    have hd := decode_frameHeader_magic flg bd hc rest
    refine ⟨fun hflg => agentStep_badContainer hr.1 hn (hd.trans (if_neg hflg)) rfl, ?_, ?_⟩
    · rintro rfl hbd
      exact agentStep_badContainer hr.1 hn (hd.trans (if_neg (mt legalBd_iff.1 hbd))) rfl
    · rintro rfl hbd
      exact agentStep_unit (a := .host) hn (decode_frameHeader (legalBd_iff.2 hbd) hc rest)
  · have haccepts : acceptsHc s.par.hcMode code hc = accepted := haccepted.symm
    have herr := headerError_bdOf hpar code hc
    rw [haccepts] at herr
    refine ⟨fun ha => ?_, fun ha => ?_⟩
    · rw [exec_frameHeader_of_accepted hr (herr.trans (if_pos ha)), codeOfBd_bdOf, hpar.blockMax_of]
      rfl
    · exact exec_frameHeader_of_error hr (herr.trans (if_neg (by simp [ha])))

end Machine

end Sys2Proof
end

section
/-! The blocks and the end of a frame, and a raw stream, as a decompress run reads them (45_frame_container.md R240 to
R245). -/

namespace Sys2Proof.Machine

/-! ## The footer of a raw stream (R244, R245) -/

/-- Two bytes at most that are not `00 00` are no footer. -/
theorem decode_rawFooter_error {bs : List Byte} (hlen : bs.length ≤ 2) (h : bs ≠ [0, 0]) :
    decode .rawFooter bs = .error .shortFooter ∨ decode .rawFooter bs = .error .badFooter := by
  match bs with
  | [] | [_] => exact .inl rfl
  | [b0, b1] =>
    refine .inr (if_neg fun hz => h ?_)
    rw [hz.1, hz.2]
  | _ :: _ :: _ :: _ => simp only [List.length_cons] at hlen; omega

theorem agentStep_badFooter {s : State} {f : FrameRun} (h : s.Reads f .readFooter)
    (hz : f.src.drop (f.src.length - 2) ≠ [0, 0]) :
    agentStep .host s = .next (s.runEnded f (.failed .format none)) := by
  have hlen : (f.src.drop (f.src.length - 2)).length ≤ 2 := by
    rw [List.length_drop]
    omega
  rcases decode_rawFooter_error hlen hz with hd | hd
  · exact agentStep_badContainer h.1 (hostNext_readFooter h) hd rfl
  · exact agentStep_badContainer h.1 (hostNext_readFooter h) hd rfl

/-- Settles O48: the footer is the last two bytes, and a run that has decoded no block has the dictionary as prefix. -/
theorem rawFooterRead : Obligations.RawFooterRead := by
  unfold Obligations.RawFooterRead
  intro s f hpar hr hprev
  refine ⟨fun hbad => agentStep_badFooter hr ?_, fun y hsrc => ⟨?_, ?_⟩,
    fun t g block hg hb hraw hgprev hdict hblock => ⟨fun hc hp => ?_, agentStep_decompressFailed hg⟩⟩
  · rcases hbad with hshort | hbad
    · intro hz
      have hlen := congrArg List.length hz
      rw [List.length_drop] at hlen
      simp only [List.length_cons, List.length_nil] at hlen
      omega
    · exact hbad
  · exact agentStep_unit (a := .host) (rest := []) (hostNext_readFooter hr) (by simp [hsrc, decode])
  · obtain ⟨-, -, -, -, -, -, -, -, -, hlimit, -⟩ := hpar
    have hy : f.src.take (f.src.length - 2) = y := by simp [hsrc]
    rw [exec_rawFooter hr, hy, hlimit, issueDecompress, blockHistory_of_none (f := { f with src := [] }) hprev]
    rfl
  · rw [← hdict, ← blockHistory_of_none hgprev] at hblock
    rw [agentStep_rawDecompressed hg hb rfl hblock hc hraw]
    exact congrArg Host.Outcome.next (State.decodeDone_of_not_verify t hp)

/-! ## The blocks of a frame (R240 to R242) -/

/-- A size that leaves enough of the stream passes its checks. -/
theorem blockError_of_fits {f : FrameRun} {size : Nat} (hmax : size ≤ f.blockMax) (hlen : size + 4 ≤ f.src.length) :
    blockError f size = none :=
  blockError_eq_none_iff.2 ⟨hmax, by rw [List.length_drop]; omega⟩

/-- Settles O47: block by block, with the prefix a function of what the run keeps. -/
theorem blockRead : Obligations.BlockRead := by
  unfold Obligations.BlockRead
  intro s f hist hr hhist
  have hh : hist = blockHistory f := hhist
  refine ⟨fun size _ hmax hlen => ?_, fun size hz hmax hlen => ?_, exec_blkUncompressed_zero hr, fun hp => ?_,
    fun t g block hg hb hraw hprev hdict hdep hblock => ⟨fun hc => ?_, agentStep_decompressFailed hg⟩⟩
  · have hn : ((f.src.drop 4).take size.toNat).length = size.toNat := by
      rw [List.length_take, List.length_drop]
      omega
    rw [exec_blkCompressed_of_fits hr (blockError_of_fits hmax hlen), issueDecompress, hn, List.drop_drop, hh]
    rfl
  · rw [exec_blkUncompressed_of_fits hr hz (blockError_of_fits hmax hlen), List.drop_drop]
  · rw [exec_blkEndmark hr]
    exact congrArg Host.Outcome.next (State.decodeDone_of_not_verify s hp)
  · exact agentStep_decompressed hg hb (hh.trans (blockHistory_congr hprev hdict hdep).symm) hblock hc hraw

end Sys2Proof.Machine
end

section
/-! What a compress run emits (45_frame_container.md R231 to R237), and how a run starts (R230, R238, R239, R243,
R244). -/

namespace Sys2Proof.Machine

/-! ## The header of a frame and its blocks (R231 to R236) -/

/-- The block-max code of a run, of parameters the spec allows (00_scope.md R6). -/
theorem FrameOpts.codeOf_eq {par : Params} (h : par.Legal) (o : FrameOpts) : o.codeOf par = o.code.getD .c7 := by
  obtain ⟨-, -, -, -, -, hcode, -⟩ := h
  rw [FrameOpts.codeOf, hcode]

theorem emittedHc_bdOf {par : Params} (h : par.Legal) (c : BlockCode) :
    emittedHc par (bdOf c) = if par.hcMode = .computed then tableHc c else 0xC0 := by
  rw [emittedHc, headerChecksum_bdOf h]
  cases par.hcMode <;> rfl

theorem nextBlock_of_more (s : State) {f : FrameRun} (h : f.src ≠ []) :
    nextBlock f s = s.withRun (issueCompress s.par { f with src := f.src.drop f.blockMax }
      (f.src.take f.blockMax)) := if_neg h

/-- Settles O50: the header by its code, then a block or the end mark. -/
theorem frameEmission : Obligations.FrameEmission := by
  unfold Obligations.FrameEmission
  intro s f hist hpar hhist
  have hh : hist = blockHistory f := hhist
  refine ⟨fun hr => ?_, fun hr hsrc => ?_, fun hr hsrc hv => ?_⟩
  · rw [agentStep_emitHeader hr, FrameOpts.codeOf_eq hpar, emittedHeader, emittedHc_bdOf hpar]
    rfl
  · rw [agentStep_nextBlock hr, nextBlock_of_more s hsrc, hh]
    rfl
  · rw [agentStep_nextBlock hr, nextBlock_of_done s hsrc]
    exact congrArg Host.Outcome.next (State.streamDone_of_not_verify s hv)

/-! ## The block emitted (R235) -/

/-- A length below 2^31 is a block header word of its own, with bit 31 clear. -/
theorem compressedHeader_eq {w : Word} (h : w.toNat < 2 ^ 31) : 0#1 ++ BitVec.ofNat 31 w.toNat = w := by
  apply BitVec.eq_of_toNat_eq
  rw [BitVec.toNat_append, BitVec.toNat_ofNat w.toNat, Nat.mod_eq_of_lt h]
  exact Nat.zero_or _

/-- A length below 2^31 with bit 31 set. -/
theorem uncompressedHeader_eq {n : Nat} (h : n < 2 ^ 31) :
    1#1 ++ BitVec.ofNat 31 n = BitVec.ofNat 32 n ||| 0x80000000 := by
  apply BitVec.eq_of_toNat_eq
  rw [BitVec.toNat_append, BitVec.toNat_or, BitVec.toNat_ofNat n, BitVec.toNat_ofNat n, Nat.mod_eq_of_lt h,
    Nat.mod_eq_of_lt (by omega), Nat.or_comm]
  rfl

/-- Settles O51, by the code the command ended with. -/
theorem blockEmission : Obligations.BlockEmission := by
  unfold Obligations.BlockEmission
  intro s f hr hb hraw hblock
  refine ⟨fun payload hc hlen hpayload => ?_, fun hc => ?_, agentStep_compressFailed hr⟩
  · rw [agentStep_compressed hr hb hc hraw, ← hpayload, encode, compressedHeader_eq hlen]
    rfl
  · rw [agentStep_incompressible hr hc hraw, encode, uncompressedHeader_eq hblock]
    rfl

/-! ## The start of a run -/

/-- The run a job starts with, its dictionary loaded (R230, R243). -/
def startRun (par : Params) (j : Job) (dict input : List Byte) : FrameRun where
  phase := .emitHeader
  opts := j.opts
  dict := loadDict par dict
  src := input
  input := input
  blockMax := par.blockMax.of (j.opts.codeOf par)
  dstOk := j.dstOk

section

variable {s : State} {j : Job}

theorem startJob_memory (h : j.memoryOk = false) : ∃ f, startJob j s = s.runEnded f (.failed .memory none) :=
  ⟨_, if_pos h⟩

theorem startJob_dictionary (h : j.memoryOk = true) (hd : j.dict = .unreadable) :
    ∃ f, startJob j s = s.runEnded f (.failed .dictionary none) := by
  simp only [startJob, h, hd, Bool.true_eq_false, if_false]
  exact ⟨_, rfl⟩

theorem startJob_src (h : j.memoryOk = true) (hd : j.dict ≠ .unreadable) (hs : j.src = none) :
    ∃ f, startJob j s = s.runEnded f (.failed .src none) := by
  cases hdict : j.dict with
  | unreadable => exact absurd hdict hd
  | _ =>
    simp only [startJob, h, hs, hdict, Bool.true_eq_false, if_false]
    exact ⟨_, rfl⟩

/-- A job that can be read: what it starts, by its options. -/
theorem startJob_readable {d x : List Byte} (h : j.memoryOk = true)
    (hd : j.dict = .absent ∧ d = [] ∨ j.dict = .bytes d) (hs : j.src = some x) :
    startJob j s =
      if j.opts.decompress then s.withRun { startRun s.par j d x with phase := decodeStart j.opts }
      else if j.opts.raw then
        if s.par.rawLimit < x.length then s.runEnded (startRun s.par j d x) (.failed .rawTooLarge none)
        else s.withRun (issueCompress s.par { startRun s.par j d x with src := [] } x)
      else s.withRun (startRun s.par j d x) := by
  rcases hd with ⟨hd, rfl⟩ | hd
  · have hnil : loadDict s.par [] = [] := List.drop_nil
    simp only [startJob, h, hd, hs, Bool.true_eq_false, if_false, startRun, hnil]
    rfl
  · simp only [startJob, h, hd, hs, Bool.true_eq_false, if_false, startRun]
    rfl

end

/-- The run a job starts with, of parameters the spec allows. -/
theorem startRun_eq {par : Params} (h : par.Legal) (j : Job) (d x : List Byte) :
    startRun par j d x =
      { phase := .emitHeader, opts := j.opts, dict := d.drop (d.length - 65535), src := x, input := x
        blockMax := (j.opts.code.getD .c7).max, dstOk := j.dstOk } := by
  obtain ⟨-, -, -, -, -, -, -, -, hdict, -⟩ := id h
  rw [startRun, loadDict, hdict, FrameOpts.codeOf_eq h, h.blockMax_of]

/-- The loaded dictionary is the file, or its last DICT_LIMIT bytes. -/
theorem length_loaded (d : List Byte) : (d.drop (d.length - 65535)).length = min d.length 65535 := by
  rw [List.length_drop]
  omega

/-- Settles O52: a job fails, or its run is set by its options; then the two endings of a raw block. -/
theorem runStartAndRawMode : Obligations.RunStartAndRawMode := by
  unfold Obligations.RunStartAndRawMode
  refine ⟨fun s j hpar => ⟨startJob_memory, startJob_dictionary, startJob_src,
    fun d x blockMax hm hd hs hmax => ?_⟩, fun s f payload hr hb hraw hpayload =>
      ⟨fun hc => agentStep_rawIncompressible hr hc hraw, fun hc hv => ?_⟩⟩
  · have hblockMax : (j.opts.code.getD .c7).max = blockMax := hmax.symm
    obtain ⟨-, -, -, -, -, -, -, -, -, hlimit, -⟩ := id hpar
    rw [startJob_readable hm hd hs, startRun_eq hpar, hlimit, hblockMax, ← length_loaded]
    generalize d.drop (d.length - 65535) = dict
    refine ⟨fun hdec => ?_, fun hdec hraw => ?_, fun hdec hraw hlong => ?_, fun hdec hraw hfits => ?_⟩
    · rw [if_pos hdec]
      rfl
    · rw [if_neg (by simp [hdec]), if_neg (by simp [hraw])]
    · rw [if_neg (by simp [hdec]), if_pos hraw, if_pos hlong]
      exact ⟨_, rfl, rfl⟩
    · rw [if_neg (by simp [hdec]), if_pos hraw, if_neg (by omega)]
      exact ⟨_, rfl, rfl, rfl, rfl, rfl, rfl, rfl⟩
  · rw [agentStep_rawCompressed hr hb hc hraw, ← hpayload]
    exact congrArg Host.Outcome.next (State.streamDone_of_not_verify s hv)

end Sys2Proof.Machine
end

section
/-! What the result of a command depends on (70_reset_and_hazards.md R302). -/

namespace Sys2Proof.Machine

/-- Two ended commands have the same status, and the same registers and result bytes from `base` on where these are
specified (20_memory.md R62; 10_state.md R32 to R34). -/
structure SameResult (base : Nat) (t₁ t₂ : State) : Prop where
  code : t₁.eng.code = t₂.eng.code
  detail : t₁.eng.detail = t₂.eng.detail
  errPos : t₁.eng.errPos = t₂.eng.errPos
  outLen : t₁.eng.code = .ok → t₁.eng.outLen = t₂.eng.outLen
  tokens : t₁.eng.code ≠ .badCommand → t₁.eng.tokens = t₂.eng.tokens
  bytes : t₁.eng.code = .ok → ∀ k, k < t₁.eng.outLen.toNat → t₁.mem.read (base + k) = t₂.mem.read (base + k)

/-! ## The endings give the same result from every state -/

/-- A length read from OUT_LEN is the length written, or less. -/
theorem lt_of_lt_toNat_ofNat {k n : Nat} (h : k < (BitVec.ofNat 32 n).toNat) : k < n :=
  h.trans_le (BitVec.toNat_ofNat n 32 ▸ Nat.mod_le n _)

section

variable (ld : Desc) (s₁ s₂ : State)

theorem badCommand_sameResult (base : Nat) (d : Detail) :
    SameResult base (s₁.badCommand d) (s₂.badCommand d) :=
  ⟨rfl, rfl, rfl, nofun, fun h => absurd rfl h, nofun⟩

theorem finishCompress_sameResult (tokens : Nat) (res : EncResult) :
    SameResult ld.out (finishCompress ld tokens res s₁) (finishCompress ld tokens res s₂) := by
  cases res with
  | internal => exact ⟨rfl, rfl, rfl, nofun, fun _ => rfl, nofun⟩
  | incompressible => exact ⟨rfl, rfl, rfl, nofun, fun _ => rfl, nofun⟩
  | payload bytes =>
    refine ⟨rfl, rfl, rfl, fun _ => rfl, fun _ => rfl, fun _ k hk => ?_⟩
    have hlt : k < bytes.length := lt_of_lt_toNat_ofNat hk
    exact (Memory.read_writeRange_inside _ hlt).trans (Memory.read_writeRange_inside _ hlt).symm

/-- A decoded byte is read back: what is made free after an OK ending lies behind it. -/
theorem finishDecode_read {win : List Byte} (s : State) {k : Nat} (hk : k < (win.drop ld.P).length) :
    (finishDecode ld win s).mem.read (ld.win + ld.P + k) = (win.drop ld.P)[k] :=
  (Memory.read_freeRange_outside _ fun h => hk.not_ge (Nat.le_of_add_le_add_left h.1)).trans
    (Memory.read_writeRange_inside _ hk)

theorem endDecode_sameResult (r : DecResult) :
    SameResult (ld.win + ld.P) (endDecode ld r s₁) (endDecode ld r s₂) := by
  cases r with
  | fail d pos => exact ⟨rfl, rfl, rfl, nofun, fun _ => rfl, nofun⟩
  | ok win =>
    refine ⟨rfl, rfl, rfl, fun _ => rfl, fun _ => rfl, fun _ k hk => ?_⟩
    have hlt : k < (win.drop ld.P).length := lt_of_lt_toNat_ofNat hk
    exact (finishDecode_read ld s₁ hlt).trans (finishDecode_read ld s₂ hlt).symm

end

/-! ## The commands read their read set alone -/

/-- Memories that agree on a range read the same there. -/
theorem readRange_of_agree {m m' : Memory} {r : Region} (h : ∀ a, holds r a = true → m.read a = m'.read a)
    {base n : Nat} (hlo : r.base ≤ base) (hhi : base + n ≤ r.base + r.len) :
    m.readRange base n = m'.readRange base n :=
  Memory.readRange_congr fun _ _ => h _ (holds_iff.2 (by omega))

section

variable {s₁ s₂ t₁ t₂ : State} {ld : Desc} (hpar : s₁.par = s₂.par) (hg : s₁.par.grain = .command)
include hpar hg

theorem runCompress_sameResult
    (hread : ∀ r ∈ readSet s₁.par 1 ld, ∀ a, holds r a = true → s₁.mem.read a = s₂.mem.read a)
    (h₁ : runCompress ld s₁ = .next t₁) (h₂ : runCompress ld s₂ = .next t₂) : SameResult ld.out t₁ t₂ := by
  cases hc : checkCompress s₁.par ld with
  | some d =>
    cases (withWindow_bad _ hc).symm.trans h₁
    cases (withWindow_bad _ (hpar ▸ hc)).symm.trans h₂
    exact badCommand_sameResult s₁ s₂ _ d
  | none =>
    obtain ⟨hset, -⟩ := sets_compress hc
    rw [hset, List.forall_mem_singleton] at hread
    have hwd : s₁.mem.readRange ld.win (ld.P + ld.L) = s₂.mem.readRange ld.win (ld.P + ld.L) :=
      readRange_of_agree hread (Nat.le_refl _) (Nat.le_refl _)
    rcases withWindow_next h₁ with ⟨d, hd, -⟩ | ⟨-, hb, -⟩
    · rw [hc] at hd
      cases hd
    · rw [runCompress_command hg hc hb] at h₁
      rw [runCompress_command (hpar ▸ hg) (hpar ▸ hc) (hpar ▸ hb), ← hpar, ← hwd] at h₂
      cases h₁
      cases h₂
      exact finishCompress_sameResult ld s₁ s₂ _ _

theorem runDecompress_sameResult
    (hread : ∀ r ∈ readSet s₁.par 2 ld, ∀ a, holds r a = true → s₁.mem.read a = s₂.mem.read a)
    (h₁ : runDecompress ld s₁ = .next t₁) (h₂ : runDecompress ld s₂ = .next t₂) :
    SameResult (ld.win + ld.P) t₁ t₂ := by
  cases hc : checkDecompress s₁.par ld with
  | some d =>
    cases (withPayload_bad _ hc).symm.trans h₁
    cases (withPayload_bad _ (hpar ▸ hc)).symm.trans h₂
    exact badCommand_sameResult s₁ s₂ _ d
  | none =>
    obtain ⟨hset, -⟩ := sets_decompress hc
    rw [hset, List.forall_mem_cons, List.forall_mem_singleton] at hread
    obtain ⟨hreadIn, hreadWin⟩ := hread
    have hpayload : s₁.mem.readRange ld.inp ld.n = s₂.mem.readRange ld.inp ld.n :=
      readRange_of_agree hreadIn (Nat.le_refl _) (Nat.le_refl _)
    have hhist : s₁.mem.readRange ld.win ld.P = s₂.mem.readRange ld.win ld.P :=
      readRange_of_agree hreadWin (Nat.le_refl _) (Nat.add_le_add_left (Nat.le_add_right _ _) _)
    rcases withPayload_next h₁ with ⟨d, hd, -⟩ | ⟨-, hb, -⟩
    · rw [hc] at hd
      cases hd
    · rw [runDecompress_command hg hc hb] at h₁
      rw [runDecompress_command (hpar ▸ hg) (hpar ▸ hc) (hpar ▸ hb), ← hpayload, ← hhist] at h₂
      cases h₁
      cases h₂
      exact endDecode_sameResult ld s₁ s₂ _

/-- The result of a command word is a function of the descriptor and the read set. -/
theorem runWord_sameResult {w : Word}
    (hread : ∀ r ∈ readSet s₁.par (wordOp w) ld, ∀ a, holds r a = true → s₁.mem.read a = s₂.mem.read a)
    (h₁ : runWord w ld s₁ = .next t₁) (h₂ : runWord w ld s₂ = .next t₂) :
    SameResult (if wordOp w = 1 then ld.out else ld.win + ld.P) t₁ t₂ := by
  by_cases hw1 : wordOp w = 1
  · rw [runWord_compress hw1] at h₁ h₂
    rw [hw1] at hread
    rw [if_pos hw1]
    exact runCompress_sameResult hpar hg hread h₁ h₂
  · rw [if_neg hw1]
    by_cases hw2 : wordOp w = 2
    · rw [runWord_decompress hw2] at h₁ h₂
      rw [hw2] at hread
      exact runDecompress_sameResult hpar hg hread h₁ h₂
    · rw [runWord, if_neg hw1, if_neg hw2] at h₁ h₂
      cases h₁
      cases h₂
      exact badCommand_sameResult s₁ s₂ _ _

end

/-- Settles O21: the checks see the descriptor and the parameters alone, the stages what is read from the read set,
and each ending gives the same result from every state. -/
theorem resultIsAFunctionOfTheReadSet : Obligations.ResultIsAFunctionOfTheReadSet := by
  unfold Obligations.ResultIsAFunctionOfTheReadSet
  intro s₁ s₂ t₁ t₂ w ld hpar hg hp₁ hp₂ hread h₁ h₂
  rw [State.Runs.exec_eq (.inr ⟨hp₁, rfl⟩)] at h₁
  rw [State.Runs.exec_eq (.inr ⟨hp₂, rfl⟩)] at h₂
  obtain ⟨hcode, hdetail, herr, hlen, htokens, hbytes⟩ := runWord_sameResult hpar hg hread h₁ h₂
  exact ⟨hcode, hdetail, herr, hlen, htokens, hbytes⟩

end Sys2Proof.Machine
end

section
/-! Every started command ends (70_reset_and_hazards.md R300, 44_block_decoder.md R210): the stages of a running
command are ranked, and a turn of the engine ends the command or brings it to a stage of lower rank. -/

namespace Sys2Proof.Machine

/-! ## The rank of a stage -/

/-- 1 at the one place that the datapath can leave without reading a byte: before literals, of which there may be none
(44_block_decoder.md R203). -/
def DecPos.weight : DecPos → Nat
  | .literals _ _ => 1
  | .token | .litRun _ _ | .offset _ | .matchRun _ _ => 0

theorem DecPos.weight_le_one (p : DecPos) : p.weight ≤ 1 := by
  cases p with
  | literals mn lit => exact Nat.le_refl _
  | _ => exact Nat.zero_le _

/-- What the datapath has left to do: the payload bytes unread, each counted twice, and the weight of the place. -/
def DecScratch.left (ld : Desc) (d : DecScratch) : Nat := 2 * (ld.n - d.ip) + d.at_.weight

/-- How far a running command is from its end: the stage, then what is left to do within it. -/
def Stage.rank (ld : Desc) : Stage → Nat ×ₗ Nat
  | .pending _ => toLex (3, 0)
  | .found _ => toLex (2, 0)
  | .parsed _ => toLex (1, 0)
  | .emitting e => toLex (0, e.todo.length)
  | .decoding d => toLex (0, d.left ld)

/-- What a turn of an engine at the stage `st` answers: it refuses the buffers, ends the command, or goes on to a
stage of lower rank, where TOKENS holds `tokens`. -/
inductive BusyTurn (ld : Desc) (st : Stage) (s : State) : Out → Prop where
  | refused {r : Refusal} (h : r.ofBuffers = true) : BusyTurn ld st s (.refused r)
  | ended {t : State} (h : Ended s t) : BusyTurn ld st s (.next t)
  | advanced (tokens : Word) {st' : Stage} (h : st'.rank ld < st.rank ld) :
    BusyTurn ld st s (.next (s.atStage ld tokens st'))

/-! ## A command word -/

theorem ofBuffers_of_bufferRefusal {p : Params} {a b : Region} {r : Refusal} (h : bufferRefusal p a b = some r) :
    r.ofBuffers = true := by
  unfold bufferRefusal at h
  split at h
  · cases h; rfl
  · split at h
    · cases h; rfl
    · split at h
      · cases h; rfl
      · split at h <;> cases h
        rfl

section

variable {ld : Desc} {st : Stage} {s : State}

theorem BusyTurn.setStage {st' : Stage} (h : st'.rank ld < st.rank ld) :
    BusyTurn ld st s (.next (s.setStage ld st')) := .advanced s.eng.tokens h

theorem withWindow_busyTurn {k : List Byte → State} (hk : ∀ wd, BusyTurn ld st s (.next (k wd))) :
    BusyTurn ld st s (withWindow ld s k) := by
  unfold withWindow
  split
  · exact .ended (badCommand_ended _ s)
  · split
    · next hr => exact .refused (ofBuffers_of_bufferRefusal hr)
    · exact hk _

theorem withPayload_busyTurn {k : List Byte → List Byte → State}
    (hk : ∀ payload hist, BusyTurn ld st s (.next (k payload hist))) : BusyTurn ld st s (withPayload ld s k) := by
  unfold withPayload
  split
  · exact .ended (badCommand_ended _ s)
  · split
    · next hr => exact .refused (ofBuffers_of_bufferRefusal hr)
    · exact hk _ _

end

theorem runWord_busyTurn (w : Word) (ld : Desc) (s : State) : BusyTurn ld (.pending w) s (runWord w ld s) := by
  unfold runWord
  split
  · refine withWindow_busyTurn fun wd => ?_
    split
    · exact .ended (finishCompress_ended ..)
    · exact .setStage (Prod.Lex.toLex_lt_toLex.2 (.inl (by decide)))
  · split
    · refine withPayload_busyTurn fun payload hist => ?_
      split
      · exact .ended (endDecode_ended ..)
      · exact .setStage (Prod.Lex.toLex_lt_toLex.2 (.inl (Nat.zero_lt_succ _)))
    · exact .ended (badCommand_ended _ s)

/-! ## The stages of a compress command -/

theorem stageParse_busyTurn (ld : Desc) (m : MatchScratch) (s : State) :
    BusyTurn ld (.found m) s (.next (stageParse ld m s)) :=
  .advanced _ (Prod.Lex.toLex_lt_toLex.2 (.inl (by decide)))

theorem stageCheck_busyTurn (ld : Desc) (p : ParseScratch) (s : State) :
    BusyTurn ld (.parsed p) s (.next (stageCheck ld p s)) := by
  unfold stageCheck
  split
  · exact .setStage (Prod.Lex.toLex_lt_toLex.2 (.inl (Nat.zero_lt_succ _)))
  · exact .ended (finishCompress_ended ..)

theorem stageEmit_busyTurn (ld : Desc) (e : EmitScratch) (s : State) :
    BusyTurn ld (.emitting e) s (.next (stageEmit ld e s)) := by
  unfold stageEmit
  split
  · exact .ended (finishCompress_ended ..)
  · next c cs htodo =>
    refine .setStage (Prod.Lex.toLex_lt_toLex.2 (.inr ⟨rfl, ?_⟩))
    rw [htodo]
    exact Nat.lt_succ_self _

/-! ## The elements of a payload -/

section

variable {ld : Desc} {d : DecScratch} {s : State}

theorem BusyTurn.failDecode (e : Detail) (ip : Nat) :
    BusyTurn ld (.decoding d) s (.next (failDecode ld e ip s)) := .ended (endDecode_ended ld (.fail e ip) s)

theorem BusyTurn.setDec {ip : Nat} {p : DecPos} {win : List Byte}
    (h : 2 * (ld.n - ip) + p.weight < 2 * (ld.n - d.ip) + d.at_.weight) :
    BusyTurn ld (.decoding d) s (.next (s.setDec ld ⟨ip, p, win⟩)) :=
  .setStage (Prod.Lex.toLex_lt_toLex.2 (.inr ⟨rfl, h⟩))

/-- An element that starts before the payload's end is read: the place after it may be any. -/
theorem BusyTurn.setDec_of_read {ip : Nat} {p : DecPos} {win : List Byte} (hlt : d.ip < ld.n) (hip : d.ip < ip) :
    BusyTurn ld (.decoding d) s (.next (s.setDec ld ⟨ip, p, win⟩)) := by
  have hweight := p.weight_le_one
  exact .setDec (by omega)

theorem matchOrFail_busyTurn {ip off mlen : Nat} {win : List Byte} (hlt : d.ip < ld.n) (hip : d.ip < ip) :
    BusyTurn ld (.decoding d) s (.next (matchOrFail ld ip off mlen win s)) := by
  unfold matchOrFail
  split
  · exact .failDecode _ _
  · exact .setDec_of_read hlt hip

theorem afterOffset_busyTurn {ip off : Nat} {mn : BitVec 4} {win : List Byte} (hlt : d.ip < ld.n) (hip : d.ip < ip) :
    BusyTurn ld (.decoding d) s (.next (afterOffset ld ip off mn win s)) := by
  unfold afterOffset
  split
  · exact .setDec_of_read hlt hip
  · exact matchOrFail_busyTurn hlt hip

/-- After literals, even none, the datapath stands at a place of less weight. -/
theorem afterLiterals_busyTurn {ip : Nat} {mn : BitVec 4} {win : List Byte} (hat : d.at_.weight = 1)
    (hip : d.ip ≤ ip) : BusyTurn ld (.decoding d) s (.next (afterLiterals ld ip mn win s)) := by
  unfold afterLiterals
  split
  · split
    · exact .ended (endDecode_ended ld (.ok win) s)
    · exact .failDecode _ _
  · refine .setDec ?_
    have hoffset : (DecPos.offset mn).weight = 0 := rfl
    omega

theorem decoderTurn_busyTurn {bs : List Byte} (hbs : bs.length = ld.n - d.ip) :
    BusyTurn ld (.decoding d) s (.next (decoderTurn ld d bs s)) := by
  have hread : ∀ {b r}, bs = b :: r → d.ip < ld.n := by
    rintro b r rfl
    rw [List.length_cons] at hbs
    omega
  unfold decoderTurn
  split
  · exact .failDecode _ _
  · exact .setDec_of_read (hread rfl) (by omega)
  · exact .failDecode _ _
  · split <;> exact .setDec_of_read (hread rfl) (by omega)
  · next mn lit hat =>
    split
    · exact .failDecode _ _
    · split
      · exact .failDecode _ _
      · exact afterLiterals_busyTurn (by rw [hat]; rfl) (by omega)
  · split
    · exact .failDecode _ _
    · exact afterOffset_busyTurn (hread rfl) (by omega)
  · exact .failDecode _ _
  · exact .failDecode _ _
  · split
    · exact .setDec_of_read (hread rfl) (by omega)
    · exact matchOrFail_busyTurn (hread rfl) (by omega)

end

/-! ## A run -/

/-- Everything a turn of a BUSY engine can do. -/
theorem engine_busyTurn {s : State} {ld : Desc} {st : Stage} (hp : s.eng.phase = .busy ld st) :
    BusyTurn ld st s (agentStep .engine s) := by
  cases st with
  | pending w => exact engine_pending hp ▸ runWord_busyTurn w ld s
  | found m => exact engine_found hp ▸ stageParse_busyTurn ld m s
  | parsed p => exact engine_parsed hp ▸ stageCheck_busyTurn ld p s
  | emitting e => exact engine_emitting hp ▸ stageEmit_busyTurn ld e s
  | decoding d => exact engine_decoding hp ▸ decoderTurn_busyTurn (Memory.readRange_length _ _ _)

theorem State.EndsOrRefused.head {s t : State} (hs : step s = .next t) (h : t.EndsOrRefused) : s.EndsOrRefused := by
  obtain ⟨k, hk⟩ := h
  refine ⟨k + 1, ?_⟩
  simpa only [run, hs] using hk

/-- From every stage, by induction on its rank. -/
theorem endsOrRefused_of_busy {s : State} {ld : Desc} {st : Stage} (hi : s.inputs = [])
    (hp : s.eng.phase = .busy ld st) : s.EndsOrRefused := by
  have hturn := engine_busyTurn hp
  rw [← step_busy hi hp] at hturn
  generalize ho : step s = o at hturn
  cases hturn with
  | @refused r hr => exact ⟨1, .inr ⟨r, by rw [run, ho], hr⟩⟩
  | @ended t h => exact .head ho ⟨0, .inl ⟨t, rfl, h.idle⟩⟩
  | advanced tokens hlt => exact .head ho (endsOrRefused_of_busy (s := s.atStage ld tokens _) hi rfl)
termination_by st.rank ld
decreasing_by exact hlt

/-- Settles O60: each turn of the engine ends the command, refuses its buffers, or lowers the rank of its stage. -/
theorem everyStartedCommandEnds : Obligations.EveryStartedCommandEnds := by
  unfold Obligations.EveryStartedCommandEnds
  intro s _ hb hi
  obtain ⟨ld, st, hp⟩ := State.busy_eq_true_iff.1 hb
  exact endsOrRefused_of_busy hi hp

end Sys2Proof.Machine
end

section
/-! Reset while a command runs (70_reset_and_hazards.md R291). -/

namespace Sys2Proof.Machine

/-- Making the ranges of a write set free, of which there is one at most, changes no other byte. -/
theorem scrambleAll_of_length_le_one {rs : List Region} (h : rs.length ≤ 1) (s : State) :
    SameMemOutside rs s (rs.foldl State.scramble s) ∧
      ∀ r ∈ rs, Unspecified (rs.foldl State.scramble s) r s.draws := by
  match rs, h with
  | [], _ => exact ⟨fun _ _ => rfl, nofun⟩
  | [r], _ => exact ⟨sameMemOutside_scramble s r, List.forall_mem_singleton.2 (unspecified_scramble s r)⟩

theorem step_reset {s : State} {es : List Event} (hi : s.inputs = .reset :: es) :
    step s = .next (s.setInputs es).applyReset := by
  unfold step
  rw [hi]

theorem State.cutRanges_of_busy {s : State} {ld : Desc} {st : Stage} (h : s.eng.phase = .busy ld st) :
    s.cutRanges = writeSet s.par s.eng.cmdOp ld := by
  unfold State.cutRanges
  rw [h]

/-- Settles O8: the reset makes the command's write set free and sets the engine to its reset value. -/
theorem resetCutsRunningCommand : Obligations.ResetCutsRunningCommand := by
  unfold Obligations.ResetCutsRunningCommand
  intro s es ld st hi hp
  have hmem : (s.setInputs es).applyReset.mem =
      ((writeSet s.par s.eng.cmdOp ld).foldl State.scramble (s.setInputs es)).mem := by
    rw [State.applyReset_mem, State.cutRanges_of_busy (s := s.setInputs es) hp]
    rfl
  obtain ⟨hsame, hfree⟩ := scrambleAll_of_length_le_one (writeSet_length s.par s.eng.cmdOp ld) (s.setInputs es)
  unfold SameMemOutside at hsame ⊢
  unfold Unspecified at hfree ⊢
  rw [← hmem] at hsame hfree
  exact ⟨_, step_reset hi, statusWord_of_clear rfl rfl rfl, rfl, hsame, hfree⟩

end Sys2Proof.Machine
end
